-- ==== Sys2Proof/Word.lean ====
section
/-! DEFINITION. The word types of FPE. The only widths that move are 32 bits on the bus, 16 bits of a sample, values of
the datapath type, and one byte of a CRCB command (20_memory.md R46). -/

namespace Sys2Proof

/-- A byte: a CRC32 message byte (R151) or a byte of the register space (R41). -/
abbrev Byte := BitVec 8

/-- A 16-bit pattern: a sample (R67), or the `mag` or `bin` field of a peak (R68). -/
abbrev Half := BitVec 16

/-- A 32-bit word: the unit of access of the register space and the length of a command (R40, R60). -/
abbrev Word := BitVec 32

/-- A byte offset into the 512-byte register space (R40). -/
abbrev Offset := BitVec 9

end Sys2Proof
end

