-- ==== Sys2Proof/Syntax.lean ====
section
/-! DEFINITION. The six commands of FPE, one constructor per row of the opcode table (30_encoding.md R62). -/

namespace Sys2Proof

/-- A command (R62) with its operands assembled as R61 says. `HOP` takes its 128 samples from `SAMPLE`, not from the
command word. -/
inductive Instr where
  /-- `NOP`, R81. -/
  | nop
  /-- `INIT`, R82. -/
  | init
  /-- `HOP`, R83. -/
  | hop
  /-- `CRCINIT`, R150. -/
  | crcinit
  /-- `CRCB imm8`, R151: `imm8` is an unsigned byte. -/
  | crcb (imm8 : Byte)
  /-- `PKRD band, index`, R86: `band` is a band id 0..3, `index` a 0-based position in that band's list. -/
  | pkrd (band : Fin 4) (index : Nat)
deriving DecidableEq, Repr

end Sys2Proof
end

