-- ==== Sys2Proof/WellFormed.lean ====
section
/-! DEFINITION. Which terms of Instr are commands a command word can carry. -/

namespace Sys2Proof

/-- `index` is a 22-bit field of the command word (30_encoding.md R60, R61), so a position from 2^22 on has no encoding.
The other operands fit their fields by their types. -/
def Instr.wellFormed : Instr → Bool
  | .pkrd _ index => decide (index < 4194304)
  | .nop => true
  | .init => true
  | .hop => true
  | .crcinit => true
  | .crcb _ => true

end Sys2Proof
end

