-- ==== Sys2Proof/Decode.lean ====
section
/-! DEFINITION. Decoding of command words (30_encoding.md R60 to R64), total and rejecting by name, and the encoder
(R66). -/

namespace Sys2Proof

/-- A row of the opcode map (R62): a word `c` selects the command iff `(c AND mask) = pattern`. -/
structure OpcodeRow where
  pattern : Word
  mask : Word
deriving DecidableEq, Repr

/-- Why a word is no command (R64): its opcode is reserved, or its opcode is a command's and a must-be-zero bit is set,
or there are fewer than the four bytes of a word. -/
inductive DecodeError where
  | reservedOpcode (op : Byte)
  | mustBeZero (op : Byte)
  | truncated
deriving DecidableEq, Repr

/-- `(c AND mask) = match` (R62). -/
def OpcodeRow.selects (r : OpcodeRow) (c : Word) : Bool := (c &&& r.mask) == r.pattern

/-- The row of each command, as R62's table gives it. -/
def Instr.row : Instr → OpcodeRow
  | .nop => ⟨0x00000000#32, 0xFFFFFFFF#32⟩
  | .init => ⟨0x01000000#32, 0xFFFFFFFF#32⟩
  | .hop => ⟨0x02000000#32, 0xFFFFFFFF#32⟩
  | .crcinit => ⟨0x10000000#32, 0xFFFFFFFF#32⟩
  | .crcb _ => ⟨0x11000000#32, 0xFFFFFF00#32⟩
  | .pkrd _ _ => ⟨0x20000000#32, 0xFF000000#32⟩

/-- Bits 31:24 of a command word, the opcode (R60). -/
def fieldOp (c : Word) : Byte := c.extractLsb' 24 8

/-- `imm8 = zext_8(cmd[7:0])` (R61). -/
def fieldImm8 (c : Word) : Byte := c.extractLsb' 0 8

/-- `band = zext_2(cmd[23:22])` (R61). -/
def fieldBand (c : Word) : Fin 4 := ⟨(c.extractLsb' 22 2).toNat, (c.extractLsb' 22 2).isLt⟩

/-- `index = zext_22(cmd[21:0])` (R61). -/
def fieldIndex (c : Word) : Nat := (c.extractLsb' 0 22).toNat

/-- The opcodes R62 gives to commands. -/
def commandOpcodes : List Byte := [0x00#8, 0x01#8, 0x02#8, 0x10#8, 0x11#8, 0x20#8]

/-- The name of the rejection of a word that no row selects (R64). -/
def illegalWord (c : Word) : DecodeError :=
  if commandOpcodes.contains (fieldOp c) then .mustBeZero (fieldOp c) else .reservedOpcode (fieldOp c)

/-- Decoding is a total function on 32-bit words: the word is compared with the six (match, mask) pairs (R63). -/
def decode (c : Word) : Except DecodeError Instr :=
  if Instr.nop.row.selects c then .ok .nop
  else if Instr.init.row.selects c then .ok .init
  else if Instr.hop.row.selects c then .ok .hop
  else if Instr.crcinit.row.selects c then .ok .crcinit
  else if (Instr.crcb 0).row.selects c then .ok (.crcb (fieldImm8 c))
  else if (Instr.pkrd 0 0).row.selects c then .ok (.pkrd (fieldBand c) (fieldIndex c))
  else .error (illegalWord c)

/-- The 32-bit little-endian word of four bytes, the byte at the lowest offset in bits 7:0 (20_memory.md R41). -/
def wordOfBytes (b0 b1 b2 b3 : Byte) : Word := (b3 ++ b2 ++ b1 ++ b0 : BitVec 32)

/-- Byte `k` of a word in little-endian order: bits `8k+7 : 8k` (R41). -/
def byteOfWord (c : Word) (k : Nat) : Byte := c.extractLsb' (8 * k) 8

/-- The command at the head of a byte sequence in address order, with the bytes after it. -/
def decodeBytes : List Byte → Except DecodeError (Instr × List Byte)
  | b0 :: b1 :: b2 :: b3 :: rest =>
    match decode (wordOfBytes b0 b1 b2 b3) with
    | .ok i => .ok (i, rest)
    | .error e => .error e
  | _ => .error .truncated

/-- The command word of an instruction (R62; R66 for the operand forms). -/
def encode : Instr → Word
  | .nop => 0x00000000#32
  | .init => 0x01000000#32
  | .hop => 0x02000000#32
  | .crcinit => 0x10000000#32
  | .crcb imm8 => 0x11000000#32 ||| imm8.setWidth 32
  | .pkrd band index => 0x20000000#32 ||| (BitVec.ofNat 32 band.val <<< 22) ||| BitVec.ofNat 32 index

/-- What the decoder reads from an opcode-table word of `nbits` bits, numbered from bit 0 of the word; every bit from
`nbits` on is 0. The word is laid out in its little-endian bytes first. -/
def decodeTableWord (nbits w : Nat) : Option Instr :=
  let c : Word := BitVec.ofNat 32 (w % 2 ^ nbits)
  match decodeBytes [byteOfWord c 0, byteOfWord c 1, byteOfWord c 2, byteOfWord c 3] with
  | .ok (i, _) => some i
  | .error _ => none

end Sys2Proof
end

