-- ==== Sys2Proof/Config.lean ====
section
/-! DEFINITION. The parameters of FPE (00_scope.md R7, R9; 92_eei_decisions.md section 3): the named constants of the
block, the datapath number system NUM with its laws, and what the spec leaves open as opaque constants. -/

namespace Sys2Proof

/-! ### The number system NUM (R9) -/

/-- NUM: the operations, tables and literals of the datapath over a carrier `α` (R9). `finite v` says that the value is
a finite number; it is the model's means for the rules that speak of finite and non-finite values (R9 NL3, NL5;
93_implementation_defined.md U5), log 3. `w i` is read for `i < 2048`, `tw j` for `j < 1024`. -/
structure NumSys (α : Type) where
  ofInt : Int → α
  add : α → α → α
  sub : α → α → α
  mul : α → α → α
  div : α → α → α
  max : α → α → α
  lt : α → α → Bool
  le : α → α → Bool
  ln : α → α
  trunc : α → Int
  finite : α → Bool
  w : Nat → α
  tw : Nat → α × α
  magFloor : α
  magDiv : α
  minMag : α
  logScale : α
  logBias : α
  interp : α
  binScale : α
  hzPerCb : α
  edge250 : α
  edge520 : α
  edge1450 : α
  edge3500 : α
  edge5500 : α

/-- The integer part of a real number, toward zero (R8: `trunc(3.9) = 3`, `trunc(-3.9) = -3`). -/
noncomputable def truncReal (v : ℝ) : Int := if 0 ≤ v then ⌊v⌋ else ⌈v⌉

/-- The laws NL1 to NL6 (R9), `val` being the real value an element denotes. The readings that go beyond R9's words
(zero as either factor, the floor positive, the tables finite, monotone where the results are finite, on which side the
constant of a product or a sum stands) are log 4; that the `=` of NL3 is identity of elements is log 26. -/
structure NumSys.Laws {α : Type} (N : NumSys α) (val : α → ℝ) : Prop where
  nl1 : ∀ z : Int, |z| ≤ 2 ^ 17 → N.finite (N.ofInt z) = true ∧ val (N.ofInt z) = z
  nl2_max_cases : ∀ x y, N.max x y = x ∨ N.max x y = y
  nl2_max : ∀ x y, N.finite x = true → N.finite y = true → val (N.max x y) = Max.max (val x) (val y)
  nl2_lt : ∀ x y, N.finite x = true → N.finite y = true → (N.lt x y = true ↔ val x < val y)
  nl2_le : ∀ x y, N.finite x = true → N.finite y = true → (N.le x y = true ↔ val x ≤ val y)
  /-- The `=` of NL3 is read as identity of elements, here and in the four laws below: the model's choice, which shuts out a
  carrier with two zeros, such as IEEE 754's, log 26. -/
  nl3_mul_left : ∀ x, N.finite x = true → N.mul (N.ofInt 0) x = N.ofInt 0
  nl3_mul_right : ∀ x, N.finite x = true → N.mul x (N.ofInt 0) = N.ofInt 0
  nl3_add : N.add (N.ofInt 0) (N.ofInt 0) = N.ofInt 0
  nl3_sub : N.sub (N.ofInt 0) (N.ofInt 0) = N.ofInt 0
  nl3_div : ∀ c, N.finite c = true → val c ≠ 0 → N.div (N.ofInt 0) c = N.ofInt 0
  nl4_ln : ∀ x y, N.finite x = true → N.finite y = true → N.finite (N.ln x) = true → N.finite (N.ln y) = true →
    0 < val x → val x ≤ val y → val (N.ln x) ≤ val (N.ln y)
  nl4_mul_right : ∀ c x y, N.finite c = true → N.finite x = true → N.finite y = true →
    N.finite (N.mul x c) = true → N.finite (N.mul y c) = true →
    0 < val c → val x ≤ val y → val (N.mul x c) ≤ val (N.mul y c)
  nl4_mul_left : ∀ c x y, N.finite c = true → N.finite x = true → N.finite y = true →
    N.finite (N.mul c x) = true → N.finite (N.mul c y) = true →
    0 < val c → val x ≤ val y → val (N.mul c x) ≤ val (N.mul c y)
  /-- NL4 does not say on which side the added constant stands: the model asks it of `add x c` only, as every rule that adds
  a constant writes it (R134), log 4. -/
  nl4_add : ∀ c x y, N.finite c = true → N.finite x = true → N.finite y = true →
    N.finite (N.add x c) = true → N.finite (N.add y c) = true → val x ≤ val y → val (N.add x c) ≤ val (N.add y c)
  nl4_div : ∀ c x y, N.finite c = true → N.finite x = true → N.finite y = true →
    N.finite (N.div x c) = true → N.finite (N.div y c) = true →
    0 < val c → val x ≤ val y → val (N.div x c) ≤ val (N.div y c)
  nl5 : ∀ v, N.finite v = true → N.trunc v = truncReal (val v)
  nl6_minMag : N.finite N.minMag = true ∧ val N.minMag = 1 / 64
  nl6_magDiv : N.finite N.magDiv = true ∧ val N.magDiv = 2 ^ 17
  nl6_interp : N.finite N.interp = true ∧ val N.interp = 32
  nl6_binScale : N.finite N.binScale = true ∧ val N.binScale = 64
  nl6_logBias : N.finite N.logBias = true ∧ val N.logBias = 6144
  nl6_hzPerCb : N.finite N.hzPerCb = true ∧ val N.hzPerCb = 125 / 1024
  nl6_edge250 : N.finite N.edge250 = true ∧ val N.edge250 = 250
  nl6_edge520 : N.finite N.edge520 = true ∧ val N.edge520 = 520
  nl6_edge1450 : N.finite N.edge1450 = true ∧ val N.edge1450 = 1450
  nl6_edge3500 : N.finite N.edge3500 = true ∧ val N.edge3500 = 3500
  nl6_edge5500 : N.finite N.edge5500 = true ∧ val N.edge5500 = 5500
  nl6_magFloor : N.finite N.magFloor = true ∧
    ∀ t, N.finite t = true → |val N.magFloor - 1 / 10 ^ 10| ≤ |val t - 1 / 10 ^ 10|
  nl6_logScale : N.finite N.logScale = true ∧
    ∀ t, N.finite t = true → |val N.logScale - 14773 / 10| ≤ |val t - 14773 / 10|
  magFloor_pos : 0 < val N.magFloor
  w_finite : ∀ i, i < 2048 → N.finite (N.w i) = true
  tw_finite : ∀ j, j < 1024 → N.finite (N.tw j).1 = true ∧ N.finite (N.tw j).2 = true

/-- NUM satisfies the laws, for the real values its elements denote (R9). -/
def NumSys.Lawful {α : Type} (N : NumSys α) : Prop := ∃ val : α → ℝ, N.Laws val

/-! ### The carrier T of the machine's NUM -/

/-- The names of the elements of the machine's carrier `T` (R9), as plain data: a rational element is named by itself,
any other element (an irrational value the datapath can reach, an infinity) by a code. Logs 1 and 2. -/
inductive T where
  | rat (q : Rat)
  | code (n : Nat)
deriving DecidableEq, Repr, Inhabited

/-- The name of `ofInt z`, log 2. -/
def T.ofInt (z : Int) : T := .rat z

/-- Apply a binary operation of the rationals to two rational elements. -/
def T.op2 (f : Rat → Rat → Rat) : T → T → T
  | .rat p, .rat q => .rat (f p q)
  | _, _ => .code 0

/-- Compare two rational elements. -/
def T.cmp (f : Rat → Rat → Bool) : T → T → Bool
  | .rat p, .rat q => f p q
  | _, _ => false

/-- A NUM of exact rational arithmetic with a given logarithm, window and twiddle table. The machine does not use it:
it shows that the laws can be met, and tests run the rules on it. -/
def rationalNum (ln : Rat → Rat) (w : Nat → Rat) (tw : Nat → Rat × Rat) : NumSys T where
  ofInt := T.ofInt
  add := T.op2 (· + ·)
  sub := T.op2 (· - ·)
  mul := T.op2 (· * ·)
  div := T.op2 (· / ·)
  max x y := if T.cmp (fun p q => decide (p < q)) x y then y else x
  lt := T.cmp (fun p q => decide (p < q))
  le := T.cmp (fun p q => decide (p ≤ q))
  ln x := match x with
    | .rat q => .rat (ln q)
    | .code _ => .code 0
  trunc x := match x with
    | .rat q => if 0 ≤ q then ⌊q⌋ else ⌈q⌉
    | .code _ => 0
  finite x := match x with
    | .rat _ => true
    | .code _ => false
  w i := .rat (w i)
  tw j := (.rat (tw j).1, .rat (tw j).2)
  magFloor := .rat (1 / 10000000000)
  magDiv := .rat 131072
  minMag := .rat (1 / 64)
  logScale := .rat (14773 / 10)
  logBias := .rat 6144
  interp := .rat 32
  binScale := .rat 64
  hzPerCb := .rat (125 / 1024)
  edge250 := .rat 250
  edge520 := .rat 520
  edge1450 := .rat 1450
  edge3500 := .rat 3500
  edge5500 := .rat 5500

/-- The real value of a rational element. -/
noncomputable def T.toReal : T → ℝ
  | .rat q => (q : ℝ)
  | .code _ => 0

theorem truncReal_ratCast (q : Rat) : truncReal (q : ℝ) = if 0 ≤ q then ⌊q⌋ else ⌈q⌉ := by
  have h : (0 : ℝ) ≤ (q : ℝ) ↔ 0 ≤ q := by exact_mod_cast Iff.rfl
  simp only [truncReal, h, Rat.floor_cast, Rat.ceil_cast]

/-- The laws of R9 can be met: exact rationals, with the constant 0 for `ln` and 1 for the table entries, meet them. -/
theorem rationalNum_lawful : (rationalNum (fun _ => 0) (fun _ => 1) (fun _ => (1, 0))).Lawful := by
  refine ⟨T.toReal, ?_⟩
  constructor
  case nl1 => intro z _; simp [rationalNum, T.ofInt, T.toReal]
  case nl2_max_cases =>
    intro x y
    simp only [rationalNum]
    split <;> simp
  case nl2_max =>
    intro x y hx hy
    cases x <;> cases y <;> simp_all [rationalNum, T.cmp, T.toReal]
    rename_i p q
    by_cases h : p < q
    · have : (p : ℝ) < q := by exact_mod_cast h
      simp [h, max_eq_right this.le]
    · have : (q : ℝ) ≤ p := by exact_mod_cast not_lt.mp h
      simp [h, max_eq_left this]
  case nl2_lt => intro x y hx hy; cases x <;> cases y <;> simp_all [rationalNum, T.cmp, T.toReal]
  case nl2_le => intro x y hx hy; cases x <;> cases y <;> simp_all [rationalNum, T.cmp, T.toReal]
  case nl5 =>
    intro v hv
    cases v with
    | rat q => simp only [rationalNum, T.toReal, truncReal_ratCast]
    | code n => simp [rationalNum] at hv
  case nl6_magFloor =>
    refine ⟨rfl, fun t _ => ?_⟩
    have h : T.toReal (rationalNum (fun _ => 0) (fun _ => 1) (fun _ => (1, 0))).magFloor = 1 / 10 ^ 10 := by
      simp [rationalNum, T.toReal]
      norm_num
    rw [h, sub_self, abs_zero]
    exact abs_nonneg _
  case nl6_logScale =>
    refine ⟨rfl, fun t _ => ?_⟩
    simp [rationalNum, T.toReal]
  case nl3_mul_left => intro x hx; cases x <;> simp_all [rationalNum, T.op2, T.ofInt]
  case nl3_mul_right => intro x hx; cases x <;> simp_all [rationalNum, T.op2, T.ofInt]
  case nl3_div => intro x hx _; cases x <;> simp_all [rationalNum, T.op2, T.ofInt]
  case nl4_ln => intro x y hx hy; cases x <;> cases y <;> simp_all [rationalNum, T.toReal]
  case nl4_mul_right =>
    intro c x y hc hx hy
    cases c <;> cases x <;> cases y <;> simp_all [rationalNum, T.op2, T.toReal]
  case nl4_mul_left =>
    intro c x y hc hx hy
    cases c <;> cases x <;> cases y <;> simp_all [rationalNum, T.op2, T.toReal]
  case nl4_add => intro c x y hc hx hy; cases c <;> cases x <;> cases y <;> simp_all [rationalNum, T.op2, T.toReal]
  case nl4_div =>
    intro c x y hc hx hy
    cases c <;> cases x <;> cases y <;> simp_all [rationalNum, T.op2, T.toReal]
    intro h0 h1
    exact div_le_div_of_nonneg_right (by exact_mod_cast h1) (by exact_mod_cast h0.le)
  all_goals first
    | exact ⟨rfl, by simp [rationalNum, T.toReal] <;> norm_num⟩
    | (simp [rationalNum, T.op2, T.ofInt, T.toReal])

/-- A NUM over the machine's carrier that satisfies the laws and names `ofInt z` by `T.ofInt z` (log 2). -/
structure LawfulNum where
  pair : {N : NumSys T // N.Lawful ∧ N.ofInt = T.ofInt} :=
    ⟨rationalNum (fun _ => 0) (fun _ => 1) (fun _ => (1, 0)), rationalNum_lawful, rfl⟩
deriving Inhabited

/-- A capacity of the band lists within its bounds, `1 <= PEAK_CAP <= 2^22` (R7, D15). -/
structure PeakCap where
  value : Nat := 4194304
  pos : 1 ≤ value := by decide
  le : value ≤ 4194304 := by decide
deriving Inhabited

/-- The layout of the 48-byte signature header, which the source withholds (45_signature_format.md R164, D23). The
offsets are those of little-endian 32-bit fields; magic constant 1 is at offset 0, the CRC32 field at offset 4. That every
field but the CRC32's is a whole 32-bit word of its own, the rate code and the sample count included, is the model's choice:
91_not_in_source.md N14 leaves open how they are packed, log 17. -/
structure HeaderLayout where
  magic1 : Word
  magic2 : Word
  fixed : Word
  offSize : Nat
  offMagic2 : Nat
  offRate : Nat
  offNsamp : Nat
  offFixed : Nat
deriving DecidableEq, Repr

/-- The offsets of all fields of a header. -/
def HeaderLayout.offsets (L : HeaderLayout) : List Nat :=
  [0, 4, L.offSize, L.offMagic2, L.offRate, L.offNsamp, L.offFixed]

/-- The fields lie in the 48 bytes and do not overlap (92_eei_decisions.md section 3). -/
def HeaderLayout.valid (L : HeaderLayout) : Bool :=
  L.offsets.all (fun o => decide (o + 4 ≤ 48)) &&
    decide (L.offsets.Pairwise (fun a b => a + 4 ≤ b ∨ b + 4 ≤ a))

/-- The layout known from outside the source (R169, GK5). The machine's layout is the opaque `Config.header`. -/
def knownHeader : HeaderLayout where
  magic1 := 0xCAFE2580#32
  magic2 := 0x94119C00#32
  fixed := 0x007C0000#32
  offSize := 8
  offMagic2 := 12
  offRate := 28
  offNsamp := 40
  offFixed := 44

/-- A header layout that meets the constraints. -/
structure LawfulHeader where
  pair : {L : HeaderLayout // L.valid = true} := ⟨knownHeader, by decide⟩
deriving Inhabited

/-! ### What the spec leaves open: constants nothing in Lean can evaluate -/

/-- NUM, an OPEN parameter (R9, D7, U1), log 1. -/
opaque Config.lawfulNum : LawfulNum

/-- PEAK_CAP, an OPEN parameter (R7, D15, U3), log 5. -/
opaque Config.peakCapOpen : PeakCap

/-- BASE divided by 512: BASE is OPEN and a multiple of 512 (R47, U11), log 12. -/
opaque Config.baseBlock : Nat

/-- Entry `j` of SAMPLE after the `n`-th hardware reset, power-on being number 0: the spec leaves it open (R19, R89,
U8). A free value, log 6. -/
opaque Config.sampleAfterReset : Nat → Nat → Half

/-- The HDR parameters, OPEN (R164, D23, U13), log 17. -/
opaque Config.headerOpen : LawfulHeader

/-- The machine's NUM (R9). -/
def Config.num : NumSys T := Config.lawfulNum.pair.1

/-- The machine's PEAK_CAP (R7). -/
def Config.peakCap : Nat := Config.peakCapOpen.value

/-- BASE, the byte address of the register block in the host's address space (R47). -/
def Config.base : Nat := 512 * Config.baseBlock

/-- The machine's header layout (R164). -/
def Config.header : HeaderLayout := Config.headerOpen.pair.1

/-! ### Decided constants (R7; each names a literal of the source or a decision, log 19) -/

/-- `N_FFT`: FFT size, ring capacity, window length. -/
abbrev Config.nFft : Nat := 2048

/-- `STAGES`: butterfly stages, `2^11 = 2048`. -/
def Config.stages : Nat := 11

/-- `HOP_LEN`: samples consumed per hop. -/
def Config.hopLen : Nat := 128

/-- `N_BINS`: magnitude bins per frame. -/
abbrev Config.nBins : Nat := 1025

/-- `HIST`: entries in each circular frame history. -/
abbrev Config.hist : Nat := 256

/-- `FS`: the sample rate in Hz the block assumes. -/
def Config.fs : Nat := 16000

/-- `W_DEN`: denominator of the window formula. -/
def Config.wDen : Nat := 2049

/-- `FSPREAD_END`: the frequency spread runs over `pos` in `[0, 1023)`. -/
def Config.fspreadEnd : Nat := 1023

/-- `TSPREAD_OFFS`: the time spread writes the entries at the write position minus each, in this order. -/
def Config.tspreadOffs : List Nat := [1, 3, 6]

/-- `DET_MIN_FRAMES`: spread frames written before detection first runs. -/
def Config.detMinFrames : Nat := 47

/-- `FFT_OFF`: the spectrum frame examined, write pointer minus 46. -/
def Config.fftOff : Int := -46

/-- `SPREAD_OFF`: the spread frame examined, write pointer minus 49. -/
def Config.spreadOff : Int := -49

/-- The label of a peak is `hops - 46` (R137). -/
def Config.labelLag : Nat := 46

/-- `POS_LO`: first position the detector scans. -/
def Config.posLo : Nat := 10

/-- `POS_HI`: one past the last position the detector scans, `1025 - 8`. -/
def Config.posHi : Nat := 1017

/-- `NEI_OFFS`: frequency neighbours in the examined spread frame. -/
def Config.neiOffs : List Int := [-10, -7, -4, -3, 1, 2, 5, 8]

/-- `OTHER_OFFS`: other spread frames, relative to the write pointer, modulo 256. -/
def Config.otherOffs : List Int := [-53, -45, 165, 172, 179, 186, 193, 200, 214, 221, 228, 235, 242, 249]

/-- `STOP_SECONDS`: first half of the stop predicate. -/
def Config.stopSeconds : Nat := 12

/-- `STOP_HOPS`: hops at which elapsed time reaches `STOP_SECONDS`, `12 * 16000 / 128`. -/
def Config.stopHops : Nat := Config.stopSeconds * Config.fs / Config.hopLen

/-- `STOP_PEAKS`: second half of the stop predicate. -/
def Config.stopPeaks : Nat := 255

/-- `CRC_POLY_REFLECTED` (R153, D17), log 18. -/
def Config.crcPoly : Word := 0xEDB88320#32

/-- `CRC_INIT` (R153, D17), log 18. -/
def Config.crcInit : Word := 0xFFFFFFFF#32

/-- `CRC_XOROUT` (R153, D17), log 18. -/
def Config.crcXorOut : Word := 0xFFFFFFFF#32

end Sys2Proof
end

