-- ==== Sys2Proof/Machine/Arrays.lean ====
section
/-! DEFINITION. Arrays of a fixed length and their circular reading (00_scope.md R8: `a[i]`, `x mod m`). -/

namespace Sys2Proof.Machine

/-- The array whose element `i` is `f i`. -/
@[irreducible] def tabulate {α : Type} (n : Nat) (f : Nat → α) : Vector α n :=
  ⟨((List.range n).map f).toArray, by simp⟩

/-- Element `i mod n` of an array of `n` elements: the element itself for `i < n`, the circular one beyond. -/
def cell {α : Type} {n : Nat} [NeZero n] (v : Vector α n) (i : Nat) : α :=
  v[i % n]'(Nat.mod_lt i (NeZero.pos n))

/-- The array with element `i mod n` replaced. -/
def putCell {α : Type} {n : Nat} [NeZero n] (v : Vector α n) (i : Nat) (x : α) : Vector α n :=
  v.set (i % n) x (Nat.mod_lt i (NeZero.pos n))

/-- The slot of a 256-entry circular history at relative offset `o` from the write pointer: `(wr + o) mod 256`, for
negative and positive `o` alike (10_state.md R12, R13). -/
def slot (wr : BitVec 8) (o : Int) : Nat := (((wr.toNat : Int) + o) % 256).toNat

end Sys2Proof.Machine
end

