-- ==== Sys2Proof/Machine/State.lean ====
section
/-! DEFINITION. The state of one FPE instance (10_state.md R10 to R26) as plain data, with the host's accesses still to
come, and its value after reset (70_reset_and_hazards.md R201). -/

namespace Sys2Proof.Machine

/-- The sample ring: 2048 signed 16-bit samples (R11). -/
abbrev Ring := Vector Half 2048

/-- One spectrum or spread frame: 1025 values of the carrier (R12, R13). -/
abbrev Frame (α : Type) := Vector α 1025

/-- A circular history of 256 frames (R12, R13). -/
abbrev Hist (α : Type) := Vector (Frame α) 256

/-- A FrequencyPeak record (30_encoding.md R68). -/
structure FrequencyPeak where
  frame : Word
  mag : Half
  bin : Half
deriving DecidableEq, Repr

/-- The four ordered lists `band[0..3]` (R16). -/
abbrev Bands := Vector (List FrequencyPeak) 4

/-- The five sticky fault bits (R18, R23). -/
structure Err where
  cmd : Bool
  acc : Bool
  div : Bool
  rng : Bool
  ovf : Bool
deriving DecidableEq, Repr

/-- The five faults FPE raises (60_exceptions.md R181). Raising one sets its sticky bit; none stops the machine. -/
inductive FaultCode where
  | errCmd
  | errAcc
  | errDiv
  | errRng
  | errOvf
deriving DecidableEq, Repr

/-- The width of a host access (20_memory.md R44; 60_exceptions.md R181, "width other than 32"): only 32 bits is legal.
`other` stands for every width but the three named, wider ones among them: all are illegal alike, log 24. -/
inductive AccessWidth where
  | bits8
  | bits16
  | bits32
  | other
deriving DecidableEq, Repr

/-- What the host can do to the block: a register read or write at a byte offset from BASE (R40, R42, R43), or the
hardware reset applied between accesses (R200). A write of another width has its data dropped, so the event
keeps 32 bits of it, log 24. -/
inductive HostEvent where
  | read (width : AccessWidth) (off : Offset)
  | write (width : AccessWidth) (off : Offset) (data : Word)
  | reset
deriving DecidableEq, Repr

/-- The complete state of one instance (R10), and three fields of the model's own at the end (logs 8, 9, 10). -/
structure State where
  /-- SampleRing (R11). -/
  ring : Ring
  /-- Index of the oldest sample, where the next hop's first sample goes (R11). -/
  ringWr : BitVec 11
  /-- SpectrumFrame history (R12). -/
  specHist : Hist T
  /-- Slot the next SpectrumFrame is stored in (R12). -/
  specWr : BitVec 8
  /-- SpreadFrame history (R13). -/
  spreadHist : Hist T
  /-- Slot the next SpreadFrame is stored in (R13). -/
  spreadWr : BitVec 8
  /-- Hops performed since INIT (R14). -/
  hops : Word
  /-- Peaks recorded since INIT (R15). -/
  npeaks : Word
  /-- The four peak lists (R16). -/
  band : Bands
  /-- Working register of the CRC32 generator (R17). -/
  crc : Word
  /-- Sticky fault bits (R18). -/
  err : Err
  /-- The staging buffer SAMPLE[0..127], 16-bit patterns (R19). -/
  sample : Vector Half 128
  /-- PKFRAME (R20). -/
  pkFrame : Word
  /-- PKDATA (R20). -/
  pkData : Word
  /-- MODEL'S OWN: what the host has yet to do, in its order (R49, R66), log 8. -/
  pending : List HostEvent
  /-- MODEL'S OWN: the value the last register read returned (R42), log 9. -/
  readData : Word
  /-- MODEL'S OWN: how often the hardware reset was applied, for the free value of SAMPLE, log 10. -/
  resetCount : Nat
deriving DecidableEq, Repr

/-- Why the machine stops with a fault: NEVER. The five faults of R181 are sticky bits of a next state, they do not gate
commands and there is no halted, stuck or error state of the engine (R183), so this type has no constructor, log 21. -/
inductive Fault : Type
deriving DecidableEq, Repr

/-- Why an instruction has no meaning. -/
inductive Refusal where
  /-- Raised by an arm of `exec` whose instruction is not modelled. No arm raises it: every command has its meaning.
  Safe: a refused instruction has no next state. -/
  | notModelled (mnemonic : String)
deriving DecidableEq, Repr

/-- A frame whose every element is `ofInt 0` (R12, R13). -/
def zeroFrame : Frame T := Vector.replicate 1025 (T.ofInt 0)

/-- A history whose every element is `ofInt 0` (R201). -/
def zeroHist : Hist T := Vector.replicate 256 zeroFrame

/-- No fault bit set (R18, R201). -/
def Err.none : Err := ⟨false, false, false, false, false⟩

/-- SAMPLE after the `n`-th hardware reset: a free value in every entry (R19, U8), log 6. -/
def sampleAfterReset (n : Nat) : Vector Half 128 := tabulate 128 (Config.sampleAfterReset n)

/-- The state right after hardware reset (R201): every item at the value the table gives; SAMPLE, which the table leaves
unspecified, at a free value (log 6); the host has nothing pending. -/
def State.reset : State where
  ring := Vector.replicate 2048 0#16
  ringWr := 0#11
  specHist := zeroHist
  specWr := 0#8
  spreadHist := zeroHist
  spreadWr := 0#8
  hops := 0#32
  npeaks := 0#32
  band := Vector.replicate 4 []
  crc := Config.crcInit
  err := Err.none
  sample := sampleAfterReset 0
  pkFrame := 0#32
  pkData := 0#32
  pending := []
  readData := 0#32
  resetCount := 0

end Sys2Proof.Machine
end

