-- ==== Sys2Proof/Machine/Ops.lean ====
section
/-! DEFINITION. The named operations over the state that the meanings share: raising a fault, the peak lists, the circular
histories, and making the per-call state fresh. -/

namespace Sys2Proof.Machine

/-- Set one sticky fault bit; it stays 1 if already 1 (60_exceptions.md R181). -/
def Err.raise (e : Err) : FaultCode → Err
  | .errCmd => { e with cmd := true }
  | .errAcc => { e with acc := true }
  | .errDiv => { e with div := true }
  | .errRng => { e with rng := true }
  | .errOvf => { e with ovf := true }

/-- `raise X` (R8, R181): the one operation by which a fault is taken. It sets the named sticky bit and nothing else: no
state is saved, no mode changes and control goes nowhere, so there is no return from it either (R186). What the raising
rule says next is the raising rule's. -/
def raise (f : FaultCode) (s : State) : State := { s with err := s.err.raise f }

/-- The list of band `b` (R16). -/
def bandList (bands : Bands) (b : Fin 4) : List FrequencyPeak := bands.get b

/-- The lists with one record appended at the end of band `b` (R16, R137). -/
def appendPeak (bands : Bands) (b : Fin 4) (p : FrequencyPeak) : Bands :=
  bands.set b.val (bandList bands b ++ [p]) b.isLt

/-- The frame of a history at a relative offset from its write pointer (R12, R13). -/
def frameAt {α : Type} (h : Hist α) (wr : BitVec 8) (o : Int) : Frame α := cell h (slot wr o)

/-- A history with the frame at a relative offset from its write pointer replaced (R12, R13). -/
def putFrameAt {α : Type} (h : Hist α) (wr : BitVec 8) (o : Int) (F : Frame α) : Hist α := putCell h (slot wr o) F

/-- Bin `pos + d` of a frame, for a signed offset `d` (R132, R133, R134). -/
def binAt {α : Type} (F : Frame α) (pos : Nat) (d : Int) : α := cell F ((pos : Int) + d).toNat

/-- The per-call state created fresh (40_control.md R82): every item of R82's pseudocode, and no other. -/
def freshCall (s : State) : State :=
  { s with
    ring := Vector.replicate 2048 0#16
    ringWr := 0#11
    specHist := zeroHist
    specWr := 0#8
    spreadHist := zeroHist
    spreadWr := 0#8
    hops := 0#32
    npeaks := 0#32
    band := Vector.replicate 4 []
    crc := Config.crcInit
    err := Err.none
    pkFrame := 0#32
    pkData := 0#32 }

/-- The hardware reset, applied between two accesses (70_reset_and_hazards.md R200, R201): the per-call state fresh and
SAMPLE unspecified again, a new free value (logs 6, 10). What the host still has to do is the host's. -/
def hardwareReset (s : State) : State :=
  { freshCall s with
    sample := sampleAfterReset (s.resetCount + 1)
    resetCount := s.resetCount + 1 }

end Sys2Proof.Machine
end

