-- ==== Sys2Proof/Machine/Operands.lean ====
section
/-! DEFINITION. The operand forms: SAMPLE entries as signed numbers, and their packing into 32-bit words. The immediate
operands of command words are assembled in Sys2Proof/Decode.lean (30_encoding.md R61). -/

namespace Sys2Proof.Machine

/-- `sext_16(v)`: a 16-bit pattern as a two's-complement signed integer (R8, R19). -/
def sext16 (v : Half) : Int := v.toInt

/-- The SAMPLE word `i`, 0..63: `SAMPLE[2i]` in bits 15:0 and `SAMPLE[2i+1]` in bits 31:16 (R19). -/
def sampleWord (sample : Vector Half 128) (i : Nat) : Word := cell sample (2 * i + 1) ++ cell sample (2 * i)

/-- `SAMPLE[2i] <- v[15:0]; SAMPLE[2i+1] <- v[31:16]` (20_memory.md R43). -/
def writeSampleWord (sample : Vector Half 128) (i : Nat) (v : Word) : Vector Half 128 :=
  putCell (putCell sample (2 * i) (v.extractLsb' 0 16)) (2 * i + 1) (v.extractLsb' 16 16)

end Sys2Proof.Machine
end

