-- ==== Sys2Proof/Machine/Flags.lean ====
section
/-! DEFINITION. STOP, FAULT and the STATUS register (10_state.md R23, 40_control.md R84). -/

namespace Sys2Proof.Machine

/-- The stop predicate (R84): both halves, exact integer comparison. -/
def stop (s : State) : Bool :=
  decide (Config.stopHops ≤ s.hops.toNat) && decide (Config.stopPeaks ≤ s.npeaks.toNat)

/-- FAULT, the OR of the five fault bits (R23). -/
def Err.fault (e : Err) : Bool := e.cmd || e.acc || e.div || e.rng || e.ovf

/-- The STATUS register (R23): STOP in bit 0, the fault bits in 8 to 12, FAULT in 31, reserved bits 0. -/
def statusWord (s : State) : Word :=
  (BitVec.ofBool s.err.fault ++ 0#18 ++ BitVec.ofBool s.err.ovf ++ BitVec.ofBool s.err.rng ++ BitVec.ofBool s.err.div ++
    BitVec.ofBool s.err.acc ++ BitVec.ofBool s.err.cmd ++ 0#7 ++ BitVec.ofBool (stop s) : BitVec 32)

/-- ERR_DIV or ERR_OVF is set: the state is treated as faulted, it is not a final state of a call, and nothing is claimed
about the peak lists, `npeaks` or STOP of that call (60_exceptions.md R182), log 11. R182 leaves a model free to treat ERR_CMD,
ERR_ACC and ERR_RNG as faults or as defined behaviour: defined behaviour is the model's choice, so a state with only these set
is a final state, log 27. -/
def State.faulted (s : State) : Bool := s.err.div || s.err.ovf

/-- FAULT reads 0: the premise every claim about a call carries at its end (R182). -/
def State.clean (s : State) : Bool := !s.err.fault

/-- The state as a final state of a call: a faulted state is none (R182). -/
def State.asFinal (s : State) : Option State := if s.faulted then none else some s

end Sys2Proof.Machine
end

