-- ==== Sys2Proof/Machine/Spectral.lean ====
section
/-! DEFINITION. The spectral analyzer: ring push, window, FFT, magnitude, spectrum history (41_spectral.md). The rules are
over any NUM, `N`. Loops whose rounds touch different elements are written as one array; log 15. -/

namespace Sys2Proof.Machine

/-- RingPush (R101): `ring[(ring_wr + j) mod 2048] <- SAMPLE[j]` for `j` in 0..127. The element at index `i` is the one
with `j = (i - ring_wr) mod 2048`. -/
def pushRing (ring : Ring) (wr : BitVec 11) (sample : Vector Half 128) : Ring :=
  tabulate 2048 fun i =>
    let j := (i + 2048 - wr.toNat) % 2048
    if j < Config.hopLen then cell sample j else cell ring i

/-- RingPush (R101) with its pointer: `ring_wr <- (ring_wr + 128) mod 2048`. -/
def ringPush (s : State) : State :=
  { s with ring := pushRing s.ring s.ringWr s.sample, ringWr := s.ringWr + 128#11 }

/-- Window (R103): `frame[i] <- mul(ofInt(ring[(ring_wr + i) mod 2048]), w[i])`, oldest sample first. -/
def windowFrame {α : Type} (N : NumSys α) (ring : Ring) (wr : BitVec 11) : Vector α 2048 :=
  tabulate 2048 fun i => N.mul (N.ofInt (sext16 (cell ring (wr.toNat + i)))) (N.w i)

/-- The number whose `k`-bit binary representation is that of `i` read backwards (R105). -/
def bitRev : Nat → Nat → Nat
  | 0, _ => 0
  | k + 1, i => (i % 2) * 2 ^ k + bitRev k (i / 2)

/-- `rev11` (R105). -/
def rev11 (i : Nat) : Nat := bitRev Config.stages i

/-- BitReverse (R105) on `n = 2^k` elements. Since `bitRev k` is an involution, the element written by
`A[rev(i)] <- (frame[i], ofInt 0)` at index `i` is that of `frame[rev(i)]`. -/
def bitReverse {α : Type} {n : Nat} [NeZero n] (N : NumSys α) (k : Nat) (frame : Vector α n) : Vector (α × α) n :=
  tabulate n fun i => (cell frame (bitRev k i), N.ofInt 0)

/-- `(tr, ti)` of a butterfly (R106): the complex product of the twiddle and the lower element, as R106 writes it. -/
def twiddled {α : Type} (N : NumSys α) (t b : α × α) : α × α :=
  (N.sub (N.mul t.1 b.1) (N.mul t.2 b.2), N.add (N.mul t.1 b.2) (N.mul t.2 b.1))

/-- The upper output of a butterfly, `( add(ur, tr), add(ui, ti) )` (R106). -/
def butterflyUpper {α : Type} (N : NumSys α) (t u b : α × α) : α × α :=
  (N.add u.1 (twiddled N t b).1, N.add u.2 (twiddled N t b).2)

/-- The lower output of a butterfly, `( sub(ur, tr), sub(ui, ti) )` (R106). -/
def butterflyLower {α : Type} (N : NumSys α) (t u b : α × α) : α × α :=
  (N.sub u.1 (twiddled N t b).1, N.sub u.2 (twiddled N t b).2)

/-- Stage `s` of the butterflies (R106) on `n` elements: `m = 2^s`, `half = m / 2`, `stride = n / m`. Index `i = k + r` of
the group starting at `k`, `r = i mod m`, is the upper element of butterfly `j = r` when `r < half`, else the lower
element of butterfly `j = r - half`. -/
def butterflyStage {α : Type} {n : Nat} [NeZero n] (N : NumSys α) (s : Nat) (A : Vector (α × α) n) :
    Vector (α × α) n :=
  let m := 2 ^ s
  let half := m / 2
  let stride := n / m
  tabulate n fun i =>
    let r := i % m
    if r < half then butterflyUpper N (N.tw (r * stride)) (cell A i) (cell A (i + half))
    else butterflyLower N (N.tw ((r - half) * stride)) (cell A (i - half)) (cell A i)

/-- The first `k` stages, `s` in `[1, k]` ascending (R106). -/
def butterflies {α : Type} {n : Nat} [NeZero n] (N : NumSys α) (k : Nat) (A : Vector (α × α) n) : Vector (α × α) n :=
  (List.range' 1 k).foldl (fun A s => butterflyStage N s A) A

/-- FFT (R106): bit reversal, then the eleven butterfly stages. -/
def fft {α : Type} (N : NumSys α) (frame : Vector α 2048) : Vector (α × α) 2048 :=
  butterflies N Config.stages (bitReverse N Config.stages frame)

/-- One magnitude (R107): `max(MAG_FLOOR, div(add(mul(re, re), mul(im, im)), MAG_DIV))`. -/
def binMagnitude {α : Type} (N : NumSys α) (a : α × α) : α :=
  N.max N.magFloor (N.div (N.add (N.mul a.1 a.1) (N.mul a.2 a.2)) N.magDiv)

/-- Magnitude (R107): the 1025 bins. -/
def magnitude {α : Type} (N : NumSys α) (A : Vector (α × α) 2048) : Frame α :=
  tabulate 1025 fun k => binMagnitude N (cell A k)

/-- SpecPush (R108): the frame is stored at `spec_wr`, which advances modulo 256. -/
def specPush (mag : Frame T) (s : State) : State :=
  { s with specHist := putFrameAt s.specHist s.specWr 0 mag, specWr := s.specWr + 1#8 }

/-- The magnitude frame of one hop, from the ring after its push (R103, R106, R107). -/
@[irreducible] def hopMagnitude {α : Type} (N : NumSys α) (ring : Ring) (wr : BitVec 11) : Frame α :=
  magnitude N (fft N (windowFrame N ring wr))

end Sys2Proof.Machine
end

