-- ==== Sys2Proof/Machine/Spreader.lean ====
section
/-! DEFINITION. The peak spreader: copy, frequency spread, time spread, store (42_spreader.md). -/

namespace Sys2Proof.Machine

/-- CopyLatest (R120): the spectrum frame at offset -1. -/
def copyLatest (s : State) : Frame T := frameAt s.specHist s.specWr (-1)

/-- One round of the frequency spread (R121): `spread[pos] <- max( max(spread[pos], spread[pos+1]), spread[pos+2] )`. -/
def spreadAt {α : Type} {n : Nat} [NeZero n] (N : NumSys α) (v : Vector α n) (pos : Nat) : Vector α n :=
  putCell v pos (N.max (N.max (cell v pos) (cell v (pos + 1))) (cell v (pos + 2)))

/-- The frequency spread over `pos` in `[0, last)`, ascending, in place (R121). -/
def freqSpreadUpTo {α : Type} {n : Nat} [NeZero n] (N : NumSys α) (last : Nat) (v : Vector α n) : Vector α n :=
  (List.range last).foldl (spreadAt N) v

/-- FreqSpread (R121). -/
@[irreducible] def freqSpread {α : Type} (N : NumSys α) (v : Frame α) : Frame α := freqSpreadUpTo N Config.fspreadEnd v

/-- The element-wise maximum of two frames, `max(a, b)` in this order of operands. -/
def maxFrame {α : Type} (N : NumSys α) (a b : Frame α) : Frame α :=
  tabulate 1025 fun pos => N.max (cell a pos) (cell b pos)

/-- One offset of the time spread at every bin (R122): `m <- max(spread_hist[q][pos], m)`, stored at `q`. The pair is the
history and the running maximum of every bin. -/
def timeSpreadOffset {α : Type} (N : NumSys α) (wr : BitVec 8) (p : Hist α × Frame α) (off : Nat) : Hist α × Frame α :=
  let m := maxFrame N (frameAt p.1 wr (-(off : Int))) p.2
  (putFrameAt p.1 wr (-(off : Int)) m, m)

/-- The history after the time spread (R122): offsets 1, 3, 6 in this order, one running maximum per bin carried across
them. The bins are independent, so the offsets are the outer loop here (log 15). -/
def timeSpreadHist {α : Type} (N : NumSys α) (h : Hist α) (wr : BitVec 8) (spread : Frame α) : Hist α :=
  (Config.tspreadOffs.foldl (timeSpreadOffset N wr) (h, spread)).1

/-- TimeSpread (R122). The transient `spread` is not modified. -/
def timeSpread (N : NumSys T) (spread : Frame T) (s : State) : State :=
  { s with spreadHist := timeSpreadHist N s.spreadHist s.spreadWr spread }

/-- SpreadStore (R123): the frame is stored at `spread_wr`, which advances; `hops` counts it. -/
def spreadStore (spread : Frame T) (s : State) : State :=
  { s with
    spreadHist := putFrameAt s.spreadHist s.spreadWr 0 spread
    spreadWr := s.spreadWr + 1#8
    hops := s.hops + 1#32 }

end Sys2Proof.Machine
end

