-- ==== Sys2Proof/Machine/Detector.lean ====
section
/-! DEFINITION. The peak detector, the quantizer and the band classifier (43_detector.md). -/

namespace Sys2Proof.Machine

/-- What `Detect` writes: the peak lists, the peak counter and the fault bits (R130, R137). -/
structure Results where
  band : Bands
  npeaks : Word
  err : Err
deriving DecidableEq, Repr

/-- A fault raised by the detector (R181). -/
def Results.raise (r : Results) (f : FaultCode) : Results := { r with err := r.err.raise f }

/-- Test1 (R131): reject if `F[pos] < MIN_MAG` or `F[pos] < S[pos]`. -/
def test1 {α : Type} (N : NumSys α) (F S : Frame α) (pos : Nat) : Bool :=
  !N.lt (cell F pos) N.minMag && !N.lt (cell F pos) (cell S pos)

/-- NeighbourMax (R132): the maximum of `S[pos + d]` over the eight offsets, the first of which starts it. -/
def neighbourMax {α : Type} (N : NumSys α) (S : Frame α) (pos : Nat) : α :=
  Config.neiOffs.tail.foldl (fun m d => N.max m (binAt S pos d)) (binAt S pos (Config.neiOffs.headD 0))

/-- OtherFramesMax (R133): bin `pos - 1` of the 14 other spread frames, on top of `m1`. -/
def otherFramesMax {α : Type} (N : NumSys α) (h : Hist α) (wr : BitVec 8) (m1 : α) (pos : Nat) : α :=
  Config.otherOffs.foldl (fun m o => N.max m (binAt (frameAt h wr o) pos (-1))) m1

/-- The three tests of a position (R130), in order. -/
def survives {α : Type} (N : NumSys α) (F S : Frame α) (h : Hist α) (wr : BitVec 8) (pos : Nat) : Bool :=
  test1 N F S pos && N.lt (neighbourMax N S pos) (cell F pos) &&
    N.lt (otherFramesMax N h wr (neighbourMax N S pos) pos) (cell F pos)

/-- Log-magnitude (R134): `L(v) = add( mul( ln( max(MIN_MAG, v) ), LOG_SCALE ), LOG_BIAS )`. -/
def logMag {α : Type} (N : NumSys α) (v : α) : α :=
  N.add (N.mul (N.ln (N.max N.minMag v)) N.logScale) N.logBias

/-- `variation1` (R135): `sub( sub( mul(ofInt 2, pm), pb ), pa )`. -/
def variation1 {α : Type} (N : NumSys α) (pb pm pa : α) : α := N.sub (N.sub (N.mul (N.ofInt 2) pm) pb) pa

/-- `variation2` (R135): `div( mul( sub(pa, pb), INTERP ), v1 )`. -/
def variation2 {α : Type} (N : NumSys α) (pb pa v1 : α) : α := N.div (N.mul (N.sub pa pb) N.interp) v1

/-- `cb` (R136): `add( mul(ofInt pos, BIN_SCALE), v2 )`, not truncated. -/
def correctedBin {α : Type} (N : NumSys α) (pos : Nat) (v2 : α) : α := N.add (N.mul (N.ofInt pos) N.binScale) v2

/-- The band of a frequency (R136); `none` is the silent discard outside `[250, 5500]`. -/
def classify {α : Type} (N : NumSys α) (f : α) : Option (Fin 4) :=
  if N.lt f N.edge250 then none
  else if N.lt f N.edge520 then some 0
  else if N.lt f N.edge1450 then some 1
  else if N.lt f N.edge3500 then some 2
  else if N.le f N.edge5500 then some 3
  else none

/-- `v` is a finite number whose integer part is an unsigned 16-bit value (R137; U5 for a value that is not finite). -/
def fits16 {α : Type} (N : NumSys α) (v : α) : Bool :=
  N.finite v && decide (0 ≤ N.trunc v) && decide (N.trunc v ≤ 65535)

/-- Record (R137): the width check before the capacity check (R185); a dropped candidate leaves its list untouched
(R183). `hops` is the count after the hop's increment. -/
def record {α : Type} (N : NumSys α) (cap : Nat) (hops : Word) (b : Fin 4) (pm cb : α) (r : Results) : Results :=
  if !(fits16 N pm && fits16 N cb) then r.raise .errOvf
  else if cap ≤ (bandList r.band b).length then r.raise .errOvf
  else
    { r with
      band := appendPeak r.band b
        { frame := hops - BitVec.ofNat 32 Config.labelLag
          mag := BitVec.ofInt 16 (N.trunc pm)
          bin := BitVec.ofInt 16 (N.trunc cb) }
      npeaks := r.npeaks + 1#32 }

/-- QuantizeClassifyRecord (R134 to R137) for a surviving position. ERR_DIV comes before classification (R185). -/
def quantizeClassifyRecord {α : Type} [DecidableEq α] (N : NumSys α) (cap : Nat) (hops : Word) (F : Frame α) (pos : Nat)
    (r : Results) : Results :=
  let pm := logMag N (cell F pos)
  let pb := logMag N (binAt F pos (-1))
  let pa := logMag N (binAt F pos 1)
  let v1 := variation1 N pb pm pa
  if v1 = N.ofInt 0 then r.raise .errDiv
  else
    let cb := correctedBin N pos (variation2 N pb pa v1)
    match classify N (N.mul cb N.hzPerCb) with
    | none => r
    | some b => record N cap hops b pm cb r

/-- One position of the scan (R130): a rejected position has no effect of any kind. -/
def detectAt {α : Type} [DecidableEq α] (N : NumSys α) (cap : Nat) (hops : Word) (F S : Frame α) (h : Hist α)
    (wr : BitVec 8) (r : Results) (pos : Nat) : Results :=
  if survives N F S h wr pos then quantizeClassifyRecord N cap hops F pos r else r

/-- The positions scanned, `[10, 1017)` upward (R130). -/
def scanPositions : List Nat := List.range' Config.posLo (Config.posHi - Config.posLo)

/-- The scan (R130) over given histories. -/
@[irreducible] def scan {α : Type} [DecidableEq α] (N : NumSys α) (cap : Nat) (hops : Word) (F S : Frame α) (h : Hist α)
    (wr : BitVec 8) (r : Results) : Results :=
  scanPositions.foldl (detectAt N cap hops F S h wr) r

/-- The part of the state `Detect` writes. -/
def State.results (s : State) : Results := { band := s.band, npeaks := s.npeaks, err := s.err }

/-- The state with the part `Detect` writes replaced. -/
def State.withResults (s : State) (r : Results) : State := { s with band := r.band, npeaks := r.npeaks, err := r.err }

/-- Detect (R130): the spectrum frame at offset -46 against the spread history, frame -49 first. It writes no history. -/
def detect (N : NumSys T) (cap : Nat) (s : State) : State :=
  s.withResults
    (scan N cap s.hops (frameAt s.specHist s.specWr Config.fftOff) (frameAt s.spreadHist s.spreadWr Config.spreadOff)
      s.spreadHist s.spreadWr s.results)

end Sys2Proof.Machine
end

