-- ==== Sys2Proof/Machine/Control.lean ====
section
/-! DEFINITION. The control commands NOP, INIT, HOP and PKRD (40_control.md). -/

namespace Sys2Proof.Machine

/-- NOP (R81): nothing is written. -/
def execNop (s : State) : Host.Outcome State Fault Refusal := .next s

/-- INIT (R82): the per-call state is created fresh; SAMPLE is not written. -/
def execInit (s : State) : Host.Outcome State Fault Refusal := .next (freshCall s)

/-- The analyzer's part of a hop (R83): RingPush, Window, FFT, Magnitude, SpecPush, in this order. -/
def analyze (N : NumSys T) (s : State) : State :=
  let s := ringPush s
  specPush (hopMagnitude N s.ring s.ringWr) s

/-- The spreader's part of a hop (R83): CopyLatest, FreqSpread, TimeSpread, SpreadStore, in this order. -/
def spreadPeaks (N : NumSys T) (s : State) : State :=
  let spread := freqSpread N (copyLatest s)
  spreadStore spread (timeSpread N spread s)

/-- The detector gate (R85): `Detect` runs iff the count, this hop's frame included, is at least 47. -/
def detectWhenDue (N : NumSys T) (cap : Nat) (s : State) : State :=
  if Config.detMinFrames ≤ s.hops.toNat then detect N cap s else s

/-- One performed hop (R83) under a given NUM and PEAK_CAP. -/
def performHop (N : NumSys T) (cap : Nat) (s : State) : State :=
  detectWhenDue N cap (spreadPeaks N (analyze N s))

/-- HOP (R83): refused without any effect when STOP holds (R84); ERR_OVF and nothing else when the counter cannot be
incremented; otherwise one hop. -/
def execHop (s : State) : Host.Outcome State Fault Refusal :=
  if stop s then .next s
  else if s.hops = 0xFFFFFFFF#32 then .next (raise .errOvf s)
  else .next (performHop Config.num Config.peakCap s)

/-- PKRD band, index (R86): ERR_RNG with PKFRAME and PKDATA unchanged when the index is not below the count; else the
record is loaded, `PKDATA = {bin, mag}`. -/
def execPkrd (b : Fin 4) (index : Nat) (s : State) : Host.Outcome State Fault Refusal :=
  match (bandList s.band b)[index]? with
  | none => .next (raise .errRng s)
  | some p => .next { s with pkFrame := p.frame, pkData := p.bin ++ p.mag }

end Sys2Proof.Machine
end

