-- ==== Sys2Proof/Machine/Crc.lean ====
section
/-! DEFINITION. The CRC32 generator: CRCINIT, CRCB and the function they compute (44_crc32.md). -/

namespace Sys2Proof.Machine

/-- One bit of the CRC (R151, R153): a logical right shift, and the polynomial when bit 0 was 1. -/
def crcBit (c : Word) : Word := if c.getLsbD 0 then (c >>> 1) ^^^ Config.crcPoly else c >>> 1

/-- One byte into the CRC register (R151): the byte enters at the low end, then eight bits. -/
def crcByte (c : Word) (b : Byte) : Word :=
  crcBit (crcBit (crcBit (crcBit (crcBit (crcBit (crcBit (crcBit (c ^^^ b.setWidth 32))))))))

/-- CRC32 of a byte sequence (R153). -/
def crc32 (bytes : List Byte) : Word := bytes.foldl crcByte Config.crcInit ^^^ Config.crcXorOut

/-- CRCINIT (R150): `crc <- 0xFFFFFFFF`. -/
def execCrcinit (s : State) : Host.Outcome State Fault Refusal := .next { s with crc := Config.crcInit }

/-- CRCB imm8 (R151): one byte of the message. -/
def execCrcb (imm8 : Byte) (s : State) : Host.Outcome State Fault Refusal := .next { s with crc := crcByte s.crc imm8 }

end Sys2Proof.Machine
end

