-- ==== Sys2Proof/Machine/Dispatch.lean ====
section
/-! DEFINITION. exec: one arm per command (30_encoding.md R62). -/

namespace Sys2Proof.Machine

def exec (i : Instr) (s : State) : Host.Outcome State Fault Refusal :=
  match i with
  -- 40_control.md
  | .nop => Sys2Proof.Machine.execNop s
  | .init => Sys2Proof.Machine.execInit s
  | .hop => Sys2Proof.Machine.execHop s
  -- 44_crc32.md
  | .crcinit => Sys2Proof.Machine.execCrcinit s
  | .crcb imm8 => Sys2Proof.Machine.execCrcb imm8 s
  -- 40_control.md
  | .pkrd band index => Sys2Proof.Machine.execPkrd band index s

end Sys2Proof.Machine
end

