-- ==== Sys2Proof/Machine/Bus.lean ====
section
/-! DEFINITION. The register space: the register map, RegRead and RegWrite, illegal accesses, and the address window
(20_memory.md, 10_state.md R22). -/

namespace Sys2Proof.Machine

/-- The registers of the map (R22). -/
inductive Reg where
  | cmd
  | status
  | hops
  | npeaks
  | bandcnt (b : Fin 4)
  | crc
  | pkframe
  | pkdata
  | sample (i : Fin 64)
deriving DecidableEq, Repr

/-- The register at a byte offset (R22): `none` for a misaligned offset and for a reserved one, 0x02C..0x0FC (R45). -/
def regAt (off : Offset) : Option Reg :=
  if off.toNat % 4 ≠ 0 then none
  else if h : 0x100 ≤ off.toNat then some (.sample ⟨(off.toNat - 0x100) / 4, by omega⟩)
  else match off.toNat with
    | 0x000 => some .cmd
    | 0x004 => some .status
    | 0x008 => some .hops
    | 0x00C => some .npeaks
    | 0x010 => some (.bandcnt 0)
    | 0x014 => some (.bandcnt 1)
    | 0x018 => some (.bandcnt 2)
    | 0x01C => some (.bandcnt 3)
    | 0x020 => some .crc
    | 0x024 => some .pkframe
    | 0x028 => some .pkdata
    | _ => none

/-- The registers the host may read (R22): all but CMD. -/
def Reg.readable : Reg → Bool
  | .cmd => false
  | _ => true

/-- The registers the host may write (R22): CMD and the SAMPLE words. -/
def Reg.writable : Reg → Bool
  | .cmd => true
  | .sample _ => true
  | _ => false

/-- The value a register holds (R22). CMD stores nothing (R52); it is not readable. -/
def regValue (s : State) : Reg → Word
  | .cmd => 0#32
  | .status => statusWord s
  | .hops => s.hops
  | .npeaks => s.npeaks
  | .bandcnt b => BitVec.ofNat 32 (bandList s.band b).length
  | .crc => s.crc ^^^ Config.crcXorOut
  | .pkframe => s.pkFrame
  | .pkdata => s.pkData
  | .sample i => sampleWord s.sample i.val

/-- The register an access reaches when it is 32 bits wide at the aligned offset of a listed register (R44). -/
def accessed (width : AccessWidth) (off : Offset) : Option Reg :=
  match width with
  | .bits32 => regAt off
  | .bits8 => none
  | .bits16 => none
  | .other => none

/-- RegRead (R42, R44): a legal read returns the register's value and changes nothing else; an illegal one raises
ERR_ACC and returns 0. The value returned is the model's field `readData` (log 9). -/
def regRead (width : AccessWidth) (off : Offset) (s : State) : State :=
  match accessed width off with
  | some r =>
    if r.readable then { s with readData := regValue s r } else raise .errAcc { s with readData := 0#32 }
  | none => raise .errAcc { s with readData := 0#32 }

/-- A write to CMD (R43): the word is decoded and the command executed to completion; an illegal word raises ERR_CMD and
changes nothing else (R64). -/
def writeCommand (c : Word) (s : State) : Host.Outcome State Fault Refusal :=
  match decode c with
  | .ok i => exec i s
  | .error _ => .next (raise .errCmd s)

/-- RegWrite (R43, R44): a SAMPLE word, or a command; every other write is illegal, raises ERR_ACC and is dropped. -/
def regWrite (width : AccessWidth) (off : Offset) (v : Word) (s : State) : Host.Outcome State Fault Refusal :=
  match accessed width off with
  | some .cmd => writeCommand v s
  | some (.sample i) => .next { s with sample := writeSampleWord s.sample i.val v }
  | _ => .next (raise .errAcc s)

/-- What one host event does (R42, R43, R200). -/
def performEvent (e : HostEvent) (s : State) : Host.Outcome State Fault Refusal :=
  match e with
  | .read width off => .next (regRead width off s)
  | .write width off v => regWrite width off v s
  | .reset => .next (hardwareReset s)

/-- The byte at byte offset `k` of the space: bits `8*(k mod 4)+7 : 8*(k mod 4)` of the word at `k - (k mod 4)` (R41).
A view of what word reads return, not an access: only 32-bit accesses are legal. `none` where no word is readable. -/
def byteView (s : State) (k : Offset) : Option Byte :=
  match regAt (k - BitVec.ofNat 9 (k.toNat % 4)) with
  | some r => if r.readable then some (byteOfWord (regValue s r) (k.toNat % 4)) else none
  | none => none

/-- The offset of a byte address of the host's address space within FPE's 512 bytes at BASE; `none` for an address outside,
which is not an access to FPE at all (R40, R44, R47), log 12. -/
def offsetOfAddress (addr : Nat) : Option Offset :=
  if Config.base ≤ addr ∧ addr < Config.base + 512 then some (BitVec.ofNat 9 (addr - Config.base)) else none

end Sys2Proof.Machine
end

