-- ==== Sys2Proof/Machine/Step.lean ====
section
/-! DEFINITION. One step: the host's next access, performed to completion (40_control.md R80, 20_memory.md R49). -/

namespace Sys2Proof.Machine

/-- One step. The host's first pending event is taken off and performed (R49); with none pending the block is idle between
commands and holds all its state (60_exceptions.md R189), log 8. -/
def step (s : State) : Host.Outcome State Fault Refusal :=
  match s.pending with
  | [] => .next s
  | e :: rest => performEvent e { s with pending := rest }

/-- `s` with the command word `w` of `nbits` bits as the host's very next access: a 32-bit write to CMD ahead of
everything else pending (R43, R52), log 8. -/
def State.withFetchWord (s : State) (nbits w : Nat) : State :=
  { s with pending := .write .bits32 0#9 (BitVec.ofNat 32 (w % 2 ^ nbits)) :: s.pending }

end Sys2Proof.Machine
end

