-- ==== Sys2Proof/Machine/HostProgram.lean ====
section
/-! DEFINITION. The host's side of the interface: the line notation of host programs (30_encoding.md R66) and the call
sequence (70_reset_and_hazards.md R202, R206). None of it is hardware. -/

namespace Sys2Proof.Machine

/-- A command line: `WR 0x000, <word>` (R66). -/
def commandLine (i : Instr) : HostEvent := .write .bits32 0#9 (encode i)

/-- `RD off` (R66). -/
def readLine (off : Offset) : HostEvent := .read .bits32 off

/-- `SAMPLES s0, ..., s127` (R66): word `i` is `((s(2i+1) AND 0xFFFF) << 16) OR (s(2i) AND 0xFFFF)`. -/
def samplesLines (v : Vector Half 128) : List HostEvent :=
  (List.range 64).map fun i => .write .bits32 (BitVec.ofNat 9 (0x100 + 4 * i)) (sampleWord v i)

/-- `FEED s0, ..., s127` (R66). -/
def feedLines (v : Vector Half 128) : List HostEvent := samplesLines v ++ [commandLine .hop]

/-- `CRCBYTES b0, ..., b(k-1)` (R66). -/
def crcBytesLines (bytes : List Byte) : List HostEvent := bytes.map fun b => commandLine (.crcb b)

/-- `CRC32 b0, ..., b(k-1)` (R66). -/
def crc32Lines (bytes : List Byte) : List HostEvent :=
  commandLine .crcinit :: (crcBytesLines bytes ++ [readLine 0x020#9])

/-- Reading one record out (R202): `PKRD`, `RD PKFRAME`, `RD PKDATA`. -/
def recordLines (b : Fin 4) (index : Nat) : List HostEvent :=
  [commandLine (.pkrd b index), readLine 0x024#9, readLine 0x028#9]

/-- A list of events performed top to bottom, each complete before the next (R49, R66). -/
def performAll : List HostEvent → State → Host.Outcome State Fault Refusal
  | [], s => .next s
  | e :: rest, s =>
    match performEvent e s with
    | .next t => performAll rest t
    | .fault f => .fault f
    | .refused r => .refused r

/-- The whole hops of a recording: hop `h` is samples `128h .. 128h+127`; a trailing group of fewer than 128 samples is
not fed and not padded (R88, R206). -/
def wholeHops (samples : List Half) : List (Vector Half 128) :=
  (List.range (samples.length / Config.hopLen)).map fun h =>
    tabulate 128 fun j => samples.getD (Config.hopLen * h + j) 0#16

/-- The loop of R202: `RD STATUS`, leave when bit 0 is 1, else feed the hop. -/
def hopLoop : List (Vector Half 128) → State → Host.Outcome State Fault Refusal
  | [], s => .next s
  | v :: rest, s =>
    match performEvent (readLine 0x004#9) s with
    | .next t =>
      if t.readData.getLsbD 0 then .next t
      else
        match performAll (feedLines v) t with
        | .next u => hopLoop rest u
        | .fault f => .fault f
        | .refused r => .refused r
    | .fault f => .fault f
    | .refused r => .refused r

/-- One call (R202): `INIT`, then the loop over the whole hops of the recording. The state it answers is the block's, faulted
or not; as the end of a call it is `callResult`. -/
def fingerprintCall (samples : List Half) (s : State) : Host.Outcome State Fault Refusal :=
  match performEvent (commandLine .init) s with
  | .next t => hopLoop (wholeHops samples) t
  | .fault f => .fault f
  | .refused r => .refused r

/-- The final state of a call (R88), none when the call ended faulted (60_exceptions.md R182): what the host may read the
lists from and build a signature of. -/
def callResult (samples : List Half) (s : State) : Option State :=
  match fingerprintCall samples s with
  | .next t => t.asFinal
  | .fault _ => none
  | .refused _ => none

end Sys2Proof.Machine
end

