-- ==== Sys2Proof/Machine/Reference.lean ====
section
/-! DEFINITION. The reference instance of NUM, the real numbers with exact operations (00_scope.md R9), and the DFT
(41_spectral.md R104), in which claims about values are stated. No step computes with it (log 25). -/

namespace Sys2Proof.Machine

/-- The window formula (R102): `0.5 * (1 - cos(2 pi (i+1) / 2049))`. -/
noncomputable def referenceWindow (i : Nat) : ℝ :=
  1 / 2 * (1 - Real.cos (2 * Real.pi * ((i : ℝ) + 1) / (Config.wDen : ℝ)))

/-- The twiddle formula (R105): `(cos(2 pi j / 2048), -sin(2 pi j / 2048))`. -/
noncomputable def referenceTwiddle (j : Nat) : ℝ × ℝ :=
  (Real.cos (2 * Real.pi * (j : ℝ) / 2048), -Real.sin (2 * Real.pi * (j : ℝ) / 2048))

/-- The reference instance (R9): exact real arithmetic, every value finite, the literals of R7. -/
noncomputable def referenceNum : NumSys ℝ where
  ofInt z := (z : ℝ)
  add x y := x + y
  sub x y := x - y
  mul x y := x * y
  div x y := x / y
  max x y := Max.max x y
  lt x y := decide (x < y)
  le x y := decide (x ≤ y)
  ln x := Real.log x
  trunc x := truncReal x
  finite _ := true
  w := referenceWindow
  tw := referenceTwiddle
  magFloor := 1 / 10 ^ 10
  magDiv := 2 ^ 17
  minMag := 1 / 64
  logScale := 14773 / 10
  logBias := 6144
  interp := 32
  binScale := 64
  hzPerCb := 125 / 1024
  edge250 := 250
  edge520 := 520
  edge1450 := 1450
  edge3500 := 3500
  edge5500 := 5500

/-- The unnormalised DFT of a real frame (R104): `A[k] = sum over n of frame[n] * exp(-2 pi i n k / 2048)`, as its real
and imaginary parts. -/
noncomputable def dft (frame : Vector ℝ 2048) (k : Nat) : ℝ × ℝ :=
  (∑ n ∈ Finset.range 2048, cell frame n * Real.cos (2 * Real.pi * ((n : ℝ) * (k : ℝ)) / 2048),
    -∑ n ∈ Finset.range 2048, cell frame n * Real.sin (2 * Real.pi * ((n : ℝ) * (k : ℝ)) / 2048))

end Sys2Proof.Machine
end

