-- ==== Sys2Proof/Machine/Signature.lean ====
section
/-! DEFINITION. The signature container (45_signature_format.md): what the host builds from the peak lists, with the CRC32
of the block. It is not hardware (00_scope.md R6); no step calls it. -/

namespace Sys2Proof.Machine

/-- `LE16(v)`: the two bytes `v[7:0], v[15:8]` (R161). -/
def le16 (v : Half) : List Byte := [v.extractLsb' 0 8, v.extractLsb' 8 8]

/-- `LE32(v)`: the four bytes, low first (R161). -/
def le32 (v : Word) : List Byte := [byteOfWord v 0, byteOfWord v 1, byteOfWord v 2, byteOfWord v 3]

/-- The payload of a band from a delta baseline on (R161): a marker with the absolute frame when the gap is 255 or more,
then the delta byte, the magnitude and the bin; the baseline moves to every peak's frame. -/
def payloadFrom (base : Nat) : List FrequencyPeak → List Byte
  | [] => []
  | p :: rest =>
    (if 255 ≤ p.frame.toNat - base then 0xFF#8 :: le32 p.frame ++ [0x00#8]
      else [BitVec.ofNat 8 (p.frame.toNat - base)]) ++
      le16 p.mag ++ le16 p.bin ++ payloadFrom p.frame.toNat rest

/-- EncodeBandPayload (R161): the initial baseline is 0. -/
def bandPayload (peaks : List FrequencyPeak) : List Byte := payloadFrom 0 peaks

/-- How a reader takes a payload apart (R161: a delta byte is never 0xFF, so a marker can be told from a delta). A marker
and its frame are five bytes, and so is a delta with its record. -/
def readPayload (base : Nat) : List Byte → Option (List FrequencyPeak)
  | [] => some []
  | d :: b0 :: b1 :: b2 :: b3 :: rest =>
    if d = 0xFF#8 then readPayload (wordOfBytes b0 b1 b2 b3).toNat rest
    else
      (readPayload (base + d.toNat) rest).map fun ps =>
        { frame := BitVec.ofNat 32 (base + d.toNat), mag := b1 ++ b0, bin := b3 ++ b2 } :: ps
  | _ => none

/-- EncodeBandChunk (R162): tag `0x60030040 + bandId`, unpadded payload length, payload, zeros to a multiple of 4. -/
def bandChunk (b : Fin 4) (peaks : List FrequencyPeak) : List Byte :=
  let pl := bandPayload peaks
  le32 (0x60030040#32 + BitVec.ofNat 32 b.val) ++ le32 (BitVec.ofNat 32 pl.length) ++ pl ++
    List.replicate ((4 - pl.length % 4) % 4) 0x00#8

/-- Content (R163): the chunks of the bands that are not empty, in the order 0, 1, 2, 3. -/
def content (bands : Bands) : List Byte :=
  ([0, 1, 2, 3] : List (Fin 4)).flatMap fun b =>
    if (bandList bands b).isEmpty then [] else bandChunk b (bandList bands b)

/-- `round(0.24 * sampleRate)` at 16000 Hz (R165). -/
def paddingSamples : Nat := 3840

/-- The sample-rate code `3 << 27`, for 16 kHz mono captures only (R165, U14). -/
def rateCode : Word := 3#32 <<< 27

/-- The fields of the header with their offsets (R164, R165), given the value of the CRC32 field. -/
def headerFields (L : HeaderLayout) (crc size nsamp : Word) : List (Nat × Word) :=
  [(0, L.magic1), (4, crc), (L.offSize, size), (L.offMagic2, L.magic2), (L.offRate, rateCode), (L.offNsamp, nsamp),
    (L.offFixed, L.fixed)]

/-- Byte `k` of the header: the byte of the field that covers it, 0 where none does (R164). -/
def headerByte (fields : List (Nat × Word)) (k : Nat) : Byte :=
  match fields.find? (fun f => decide (f.1 ≤ k) && decide (k < f.1 + 4)) with
  | some f => byteOfWord f.2 (k - f.1)
  | none => 0x00#8

/-- The buffer with a given CRC32 field (R164): 48 header bytes, the marker, the content-length, the content. -/
def signatureBuffer (L : HeaderLayout) (crc : Word) (numSamples : Nat) (bands : Bands) : List Byte :=
  let c := content bands
  let size := BitVec.ofNat 32 (c.length + 8)
  let fields := headerFields L crc size (BitVec.ofNat 32 (numSamples + paddingSamples))
  (List.range 48).map (headerByte fields) ++ le32 0x40000000#32 ++ le32 size ++ c

/-- The checksum (R168): CRC32 over the bytes from offset 8 on, the CRC32 field being zero while it is computed. -/
def signatureCrc (L : HeaderLayout) (numSamples : Nat) (bands : Bands) : Word :=
  crc32 ((signatureBuffer L 0#32 numSamples bands).drop 8)

/-- The complete signature bytes (R164, R168). -/
def signature (L : HeaderLayout) (numSamples : Nat) (bands : Bands) : List Byte :=
  signatureBuffer L (signatureCrc L numSamples bands) numSamples bands

/-- The standard base64 alphabet (R166). -/
def base64Alphabet : List Char := "ABCDEFGHIJKLMNOPQRSTUVWXYZabcdefghijklmnopqrstuvwxyz0123456789+/".toList

/-- The character of a 6-bit value. -/
def base64Char (n : Nat) : Char := base64Alphabet.getD n 'A'

/-- Standard base64 with `=` padding, no line wrapping (R166). -/
def base64 : List Byte → List Char
  | [] => []
  | [a] => [base64Char (a.toNat / 4), base64Char (a.toNat % 4 * 16), '=', '=']
  | [a, b] =>
    [base64Char (a.toNat / 4), base64Char (a.toNat % 4 * 16 + b.toNat / 16), base64Char (b.toNat % 16 * 4), '=']
  | a :: b :: c :: rest =>
    [base64Char (a.toNat / 4), base64Char (a.toNat % 4 * 16 + b.toNat / 16),
      base64Char (b.toNat % 16 * 4 + c.toNat / 64), base64Char (c.toNat % 64)] ++ base64 rest

/-- The text form (R166). -/
def dataUri (bytes : List Byte) : String := "data:audio/vnd.shazam.sig;base64," ++ String.ofList (base64 bytes)

/-- What the host returns for a call (R160, R166): the peak lists as FPE holds them, and the host's own `numSamples`,
under the machine's header layout. `numSamples` counts all samples of the recording (R88). A call that ended faulted has no
signature (60_exceptions.md R182). -/
def hostSignature (samples : List Half) (s : State) : Option String :=
  (callResult samples s).map fun t => dataUri (signature Config.header samples.length t.band)

end Sys2Proof.Machine
end

