-- ==== Sys2Proof/Safety.lean ====
section
/-! DEFINITION. What counts as a safe state of a call and the invariants of the machine, in the terms claims use. -/

namespace Sys2Proof.Machine

/-- The pointers are functions of `hops` (10_state.md R21): `spec_wr = spread_wr = hops mod 256` and
`ring_wr = (128 * hops) mod 2048`. -/
def State.PointersFollowHops (s : State) : Prop :=
  s.specWr.toNat = s.hops.toNat % 256 ∧ s.spreadWr.toNat = s.hops.toNat % 256 ∧
    s.ringWr.toNat = 128 * s.hops.toNat % 2048

/-- `npeaks` is the total length of the lists (10_state.md R15). -/
def State.CountsMatch (s : State) : Prop :=
  s.npeaks.toNat = (bandList s.band 0).length + (bandList s.band 1).length + (bandList s.band 2).length +
    (bandList s.band 3).length

/-- No list is longer than PEAK_CAP (10_state.md R16, D15). -/
def State.WithinCapacity (s : State) : Prop := ∀ b : Fin 4, (bandList s.band b).length ≤ Config.peakCap

/-- Every list is ordered by frame index, non-decreasing, and its frames are those a hop so far has examined:
`1 <= frame <= hops - 46` (10_state.md R16, 30_encoding.md R68). -/
def State.FramesOrdered (s : State) : Prop :=
  ∀ b : Fin 4, (bandList s.band b).Pairwise (fun p q => p.frame.toNat ≤ q.frame.toNat) ∧
    ∀ p ∈ bandList s.band b, 1 ≤ p.frame.toNat ∧ p.frame.toNat + 46 ≤ s.hops.toNat

/-- The machine's invariant. What it says of the peak lists it says of states that are not faulted (R182). -/
structure State.Inv (s : State) : Prop where
  pointers : s.PointersFollowHops
  results : s.faulted = false → s.CountsMatch ∧ s.WithinCapacity ∧ s.FramesOrdered

/-- A frame every bin of which holds `x`. -/
def frameConst {α : Type} (F : Frame α) (x : α) : Prop := ∀ k, k < 1025 → cell F k = x

/-- A frame that is silent: every bin holds the reset value `ofInt 0`, or every bin holds MAG_FLOOR. -/
def silentFrame (F : Frame T) : Prop := frameConst F (T.ofInt 0) ∨ frameConst F Config.num.magFloor

/-- The state of a block that has been fed zeros only (41_spectral.md R109): zero ring, zero SAMPLE, and spectrum frames
that are silent. -/
structure State.Silent (s : State) : Prop where
  ring : ∀ i, i < 2048 → cell s.ring i = 0#16
  sample : ∀ j, j < 128 → cell s.sample j = 0#16
  spec : ∀ q, q < 256 → silentFrame (cell s.specHist q)

/-- The peak a scanned position of a hop yields (43_detector.md R130 to R137), with its band, when nothing faults: it
survives the three tests, its variation is not 0, and its frequency lies in a band. -/
def candidate {α : Type} [DecidableEq α] (N : NumSys α) (hops : Word) (F S : Frame α) (h : Hist α) (wr : BitVec 8)
    (pos : Nat) : Option (Fin 4 × FrequencyPeak) :=
  let pm := logMag N (cell F pos)
  let pb := logMag N (binAt F pos (-1))
  let pa := logMag N (binAt F pos 1)
  let cb := correctedBin N pos (variation2 N pb pa (variation1 N pb pm pa))
  if survives N F S h wr pos = true ∧ variation1 N pb pm pa ≠ N.ofInt 0 then
    (classify N (N.mul cb N.hzPerCb)).map fun b =>
      (b, { frame := hops - 46#32, mag := BitVec.ofInt 16 (N.trunc pm), bin := BitVec.ofInt 16 (N.trunc cb) })
  else none

end Sys2Proof.Machine
end

