-- ==== Sys2Proof/Certificates/Slice0/Obligations.lean ====
section
/-! DEFINITION. The statements for the provers. Each docstring names the rule of spec/ it formalises. A statement about a
hop is about the machine's own NUM, `Config.num`, and PEAK_CAP, `Config.peakCap`, of which nothing is known but the laws of
R9, as the model reads them (logs 3, 4 and 26), and the bounds of R7. -/

open Sys2Proof Sys2Proof.Machine

/-! ### Encoding -/

/-- Every operand value of every command survives encoding and decoding (R60 to R63, R66). -/
def Obligations.DecodeOfEncodeIsIdentity : Prop :=
  ∀ i : Instr, i.wellFormed = true → decode (encode i) = .ok i

/-- Every word that decodes is the word of the command it decodes to, and that command is well-formed: no two words are
one command (R60 to R63). -/
def Obligations.EncodeOfDecodeIsIdentity : Prop :=
  ∀ (c : Word) (i : Instr), decode c = .ok i → i.wellFormed = true ∧ encode i = c

/-- R62, R63: a word is a command iff it matches that command's (match, mask) pair, with its operands per R61, and is
illegal iff it matches none. -/
def Obligations.DecodingFollowsMatchAndMask : Prop :=
  ∀ c : Word,
    (decode c = .ok .nop ↔ c &&& 0xFFFFFFFF#32 = 0x00000000#32) ∧
    (decode c = .ok .init ↔ c &&& 0xFFFFFFFF#32 = 0x01000000#32) ∧
    (decode c = .ok .hop ↔ c &&& 0xFFFFFFFF#32 = 0x02000000#32) ∧
    (decode c = .ok .crcinit ↔ c &&& 0xFFFFFFFF#32 = 0x10000000#32) ∧
    (∀ b : Byte, decode c = .ok (.crcb b) ↔ c &&& 0xFFFFFF00#32 = 0x11000000#32 ∧ b.toNat = c.toNat % 256) ∧
    (∀ (b : Fin 4) (x : Nat), decode c = .ok (.pkrd b x) ↔
      c &&& 0xFF000000#32 = 0x20000000#32 ∧ b.val = c.toNat / 4194304 % 4 ∧ x = c.toNat % 4194304) ∧
    ((∃ e, decode c = .error e) ↔
      c &&& 0xFFFFFFFF#32 ≠ 0x00000000#32 ∧ c &&& 0xFFFFFFFF#32 ≠ 0x01000000#32 ∧
      c &&& 0xFFFFFFFF#32 ≠ 0x02000000#32 ∧ c &&& 0xFFFFFFFF#32 ≠ 0x10000000#32 ∧
      c &&& 0xFFFFFF00#32 ≠ 0x11000000#32 ∧ c &&& 0xFF000000#32 ≠ 0x20000000#32)

/-- R64: a word with a reserved opcode, or with a must-be-zero bit set, is illegal; writing it to CMD raises ERR_CMD and
changes no other state. -/
def Obligations.IllegalWordRaisesErrCmdOnly : Prop :=
  ∀ (s : State) (c : Word),
    (c.toNat / 16777216 ∉ [0x00, 0x01, 0x02, 0x10, 0x11, 0x20] ∨
      (c.toNat / 16777216 ∈ [0x00, 0x01, 0x02, 0x10] ∧ c.toNat % 16777216 ≠ 0) ∨
      (c.toNat / 16777216 = 0x11 ∧ c.toNat % 16777216 / 256 ≠ 0)) →
    performEvent (.write .bits32 0#9 c) s = .next { s with err := { s.err with cmd := true } }

/-- Words written out from R62's encodings decode to the commands they stand for. -/
def Obligations.CommandWordsDecode : Prop :=
  decode 0x00000000#32 = .ok .nop ∧ decode 0x01000000#32 = .ok .init ∧ decode 0x02000000#32 = .ok .hop ∧
    decode 0x10000000#32 = .ok .crcinit ∧ decode 0x11000031#32 = .ok (.crcb 0x31#8) ∧
    decode 0x20C00004#32 = .ok (.pkrd 3 4)

/-! ### Steps and the register space -/

/-- A step performs the host's first pending access, and a command word written to CMD is decoded and executed by that
very step (R43, R49, R52). That the host's accesses stand in `pending` is the model's choice, log 8. -/
def Obligations.StepRunsTheDecodedCommand : Prop :=
  (∀ (s : State) (e : HostEvent) (rest : List HostEvent),
    s.pending = e :: rest → step s = performEvent e { s with pending := rest }) ∧
  ∀ (s : State) (c : Word) (i : Instr) (rest : List HostEvent),
    s.pending = .write .bits32 0#9 c :: rest → decode c = .ok i → step s = exec i { s with pending := rest }

/-- With no access pending the block is idle and holds all its state (R189; that such a step stutters is the model's
choice, log 8). -/
def Obligations.IdleStepHoldsAllState : Prop :=
  ∀ s : State, s.pending = [] → step s = .next s

/-- Every step answers a next state. The spec's part: every command terminates (R80), a fault stops nothing and there is no
halted, stuck or error state (R183). The model's choice: the step with nothing pending is an idle one (log 8), a HOP that reads
a SAMPLE entry never written runs on a free value, where R19 and U8 would have a model fault or refuse (log 6), and the type of
stopping faults is empty, which is deduced from R183 (log 21). -/
def Obligations.EveryStepAnswersANextState : Prop :=
  ∀ s : State, ∃ t, step s = .next t

/-- R42 over the map of R22: a legal read returns the value the register holds and changes no state (`readData` and
`pending` are the host's side of the access). -/
def Obligations.LegalReadReturnsTheRegister : Prop :=
  ∀ (s : State) (off : Offset) (rest : List HostEvent), s.pending = .read .bits32 off :: rest →
    (off = 0x004#9 → step s = .next { s with pending := rest, readData := statusWord s }) ∧
    (off = 0x008#9 → step s = .next { s with pending := rest, readData := s.hops }) ∧
    (off = 0x00C#9 → step s = .next { s with pending := rest, readData := s.npeaks }) ∧
    (∀ b : Fin 4, off.toNat = 0x010 + 4 * b.val →
      step s = .next { s with pending := rest, readData := BitVec.ofNat 32 (bandList s.band b).length }) ∧
    (off = 0x020#9 → step s = .next { s with pending := rest, readData := s.crc ^^^ 0xFFFFFFFF#32 }) ∧
    (off = 0x024#9 → step s = .next { s with pending := rest, readData := s.pkFrame }) ∧
    (off = 0x028#9 → step s = .next { s with pending := rest, readData := s.pkData }) ∧
    (∀ i, i < 64 → off.toNat = 0x100 + 4 * i →
      ∃ v : Word, step s = .next { s with pending := rest, readData := v } ∧
        v.toNat = (cell s.sample (2 * i)).toNat + 65536 * (cell s.sample (2 * i + 1)).toNat)

/-- R44, R45: an access that is not 32 bits wide, not aligned, at a reserved offset or in a direction the register does
not allow raises ERR_ACC; an illegal write changes no other state, an illegal read returns 0. -/
def Obligations.IllegalAccessRaisesErrAcc : Prop :=
  ∀ (s : State) (width : AccessWidth) (off : Offset) (rest : List HostEvent),
    (s.pending = .read width off :: rest →
      ¬ (width = .bits32 ∧ off.toNat % 4 = 0 ∧ ((4 ≤ off.toNat ∧ off.toNat ≤ 0x028) ∨ 0x100 ≤ off.toNat)) →
      step s = .next { s with pending := rest, readData := 0#32, err := { s.err with acc := true } }) ∧
    (∀ v : Word, s.pending = .write width off v :: rest →
      ¬ (width = .bits32 ∧ off.toNat % 4 = 0 ∧ (off.toNat = 0 ∨ 0x100 ≤ off.toNat)) →
      step s = .next { s with pending := rest, err := { s.err with acc := true } })

/-- R43: a legal write to a SAMPLE word writes its two entries and nothing else, and doing it twice is doing it once; a
write to CMD decodes the word and executes the command. -/
def Obligations.LegalWriteActsOnItsRegister : Prop :=
  ∀ (s : State) (off : Offset) (v : Word),
    (∀ i, i < 64 → off.toNat = 0x100 + 4 * i →
      ∃ smp : Vector Half 128,
        performEvent (.write .bits32 off v) s = .next { s with sample := smp } ∧
        (cell smp (2 * i)).toNat = v.toNat % 65536 ∧ (cell smp (2 * i + 1)).toNat = v.toNat / 65536 ∧
        (∀ j, j < 128 → j ≠ 2 * i → j ≠ 2 * i + 1 → cell smp j = cell s.sample j) ∧
        performEvent (.write .bits32 off v) { s with sample := smp } = .next { s with sample := smp }) ∧
    (off = 0#9 →
      (∀ i, decode v = .ok i → performEvent (.write .bits32 off v) s = exec i s) ∧
      (∀ e, decode v = .error e → performEvent (.write .bits32 off v) s = .next (raise .errCmd s)))

/-- A SAMPLE word reads back what was written to it (R42, R43, R46). -/
def Obligations.SampleWordReadsBack : Prop :=
  ∀ (s : State) (i : Nat) (v : Word) (rest : List HostEvent), i < 64 →
    s.pending = .write .bits32 (BitVec.ofNat 9 (0x100 + 4 * i)) v ::
      .read .bits32 (BitVec.ofNat 9 (0x100 + 4 * i)) :: rest →
    ∃ t u, step s = .next t ∧ step t = .next u ∧ u.readData = v ∧ u.pending = rest

/-- R41 for the samples: byte `2j` of the SAMPLE space is the low byte of `SAMPLE[j]`, byte `2j + 1` its high byte. -/
def Obligations.SampleBytesAreLittleEndian : Prop :=
  ∀ (s : State) (j : Nat), j < 128 →
    (∃ b, byteView s (BitVec.ofNat 9 (0x100 + 2 * j)) = some b ∧ b.toNat = (cell s.sample j).toNat % 256) ∧
    (∃ b, byteView s (BitVec.ofNat 9 (0x100 + 2 * j + 1)) = some b ∧ b.toNat = (cell s.sample j).toNat / 256)

/-- R23: every bit of STATUS, with STOP as R84 defines it. -/
def Obligations.StatusBitsAreAsDefined : Prop :=
  ∀ s : State,
    (statusWord s).getLsbD 0 = decide (1500 ≤ s.hops.toNat ∧ 255 ≤ s.npeaks.toNat) ∧
    (∀ k, 1 ≤ k → k ≤ 7 → (statusWord s).getLsbD k = false) ∧
    (statusWord s).getLsbD 8 = s.err.cmd ∧ (statusWord s).getLsbD 9 = s.err.acc ∧
    (statusWord s).getLsbD 10 = s.err.div ∧ (statusWord s).getLsbD 11 = s.err.rng ∧
    (statusWord s).getLsbD 12 = s.err.ovf ∧
    (∀ k, 13 ≤ k → k ≤ 30 → (statusWord s).getLsbD k = false) ∧
    (statusWord s).getLsbD 31 = (s.err.cmd || s.err.acc || s.err.div || s.err.rng || s.err.ovf)

/-- The register space is the 512 bytes from BASE, a multiple of 512; no other address is an access to FPE (R40, R44,
R47). -/
def Obligations.AddressWindowIsTheSpaceAtBase : Prop :=
  Config.base % 512 = 0 ∧
    ∀ (addr : Nat) (off : Offset), offsetOfAddress addr = some off ↔ addr = Config.base + off.toNat

/-! ### NOP, INIT and the stop rule -/

/-- R81: the word 0x00000000 is NOP, which completes and leaves every register as it was. -/
def Obligations.NopLeavesEverything : Prop :=
  decode 0x00000000#32 = .ok .nop ∧ ∀ s : State, exec .nop s = .next s

/-- R82: the word 0x01000000 is INIT, which completes in the state after hardware reset except for SAMPLE, with the fault bits cleared and STOP 0;
issuing it twice is issuing it once. -/
def Obligations.InitMakesTheCallFresh : Prop :=
  decode 0x01000000#32 = .ok .init ∧ ∀ s : State, ∃ t,
    exec .init s = .next t ∧
    t = { State.reset with
      sample := s.sample, pending := s.pending, readData := s.readData, resetCount := s.resetCount } ∧
    t.err = Err.none ∧ stop t = false ∧ statusWord t = 0#32 ∧ exec .init t = .next t

/-- R84: STOP is the predicate, the source's in elapsed seconds and the exact one in hops; a HOP under STOP completes with
no effect at all; and STOP, once 1, is 1 after every step but an INIT or a hardware reset that leaves the state not faulted
(R182). -/
def Obligations.StopRule : Prop :=
  ∀ s : State,
    (stop s = true ↔ 1500 ≤ s.hops.toNat ∧ 255 ≤ s.npeaks.toNat) ∧
    (stop s = true ↔ (12 : ℚ) ≤ 128 * (s.hops.toNat : ℚ) / 16000 ∧ 255 ≤ s.npeaks.toNat) ∧
    (stop s = true → exec .hop s = .next s) ∧
    (∀ t, stop s = true → step s = .next t → t.faulted = false → s.pending.head? ≠ some .reset →
      s.pending.head? ≠ some (.write .bits32 0#9 0x01000000#32) → stop t = true)

/-! ### HOP -/

/-- HOP where the counter cannot be incremented raises ERR_OVF and does nothing else (R83, D16). -/
def Obligations.HopAtCounterLimitOnlyRaisesErrOvf : Prop :=
  ∀ s : State, stop s = false → s.hops = 0xFFFFFFFF#32 →
    exec .hop s = .next { s with err := { s.err with ovf := true } }

/-- R101, for every HOP that is performed: the 128 samples replace the 128 oldest, the pointer advances, and the
oldest-first view drops its first 128 and ends in the new ones. -/
def Obligations.HopPushesTheSamples : Prop :=
  ∀ s : State, stop s = false → s.hops ≠ 0xFFFFFFFF#32 →
    ∃ t, exec .hop s = .next t ∧
      (∀ j, j < 128 → cell t.ring (s.ringWr.toNat + j) = cell s.sample j) ∧
      (∀ j, 128 ≤ j → j < 2048 → cell t.ring (s.ringWr.toNat + j) = cell s.ring (s.ringWr.toNat + j)) ∧
      t.ringWr.toNat = (s.ringWr.toNat + 128) % 2048 ∧
      (∀ i, i < 1920 → cell t.ring (t.ringWr.toNat + i) = cell s.ring (s.ringWr.toNat + 128 + i)) ∧
      (∀ j, j < 128 → cell t.ring (t.ringWr.toNat + 1920 + j) = cell s.sample j)

/-- R103, R107, R108, for every HOP that is performed: the magnitudes of the transform of the windowed ring are stored at
the spectrum write pointer, which advances, and no other spectrum frame changes. -/
def Obligations.HopStoresTheMagnitudes : Prop :=
  ∀ s : State, stop s = false → s.hops ≠ 0xFFFFFFFF#32 →
    ∃ t, exec .hop s = .next t ∧
      (∃ frame : Vector T 2048,
        (∀ i, i < 2048 → cell frame i =
          Config.num.mul (Config.num.ofInt (cell t.ring (t.ringWr.toNat + i)).toInt) (Config.num.w i)) ∧
        (∀ k, k < 1025 → cell (cell t.specHist s.specWr.toNat) k =
          Config.num.max Config.num.magFloor
            (Config.num.div
              (Config.num.add
                (Config.num.mul (cell (fft Config.num frame) k).1 (cell (fft Config.num frame) k).1)
                (Config.num.mul (cell (fft Config.num frame) k).2 (cell (fft Config.num frame) k).2))
              Config.num.magDiv))) ∧
      (∀ q, q < 256 → q ≠ s.specWr.toNat → cell t.specHist q = cell s.specHist q) ∧
      t.specWr.toNat = (s.specWr.toNat + 1) % 256

/-- R120, R121, R123, for every HOP that is performed: the frame stored at the spread write pointer is the 3-point forward
maximum of this hop's magnitudes, bins 1023 and 1024 copied; the pointer advances and `hops` counts the frame. -/
def Obligations.HopStoresTheSpreadFrame : Prop :=
  ∀ s : State, stop s = false → s.hops ≠ 0xFFFFFFFF#32 →
    ∃ t, exec .hop s = .next t ∧
      (∀ pos, pos < 1023 → cell (cell t.spreadHist s.spreadWr.toNat) pos =
        Config.num.max
          (Config.num.max (cell (cell t.specHist s.specWr.toNat) pos) (cell (cell t.specHist s.specWr.toNat) (pos + 1)))
          (cell (cell t.specHist s.specWr.toNat) (pos + 2))) ∧
      cell (cell t.spreadHist s.spreadWr.toNat) 1023 = cell (cell t.specHist s.specWr.toNat) 1023 ∧
      cell (cell t.spreadHist s.spreadWr.toNat) 1024 = cell (cell t.specHist s.specWr.toNat) 1024 ∧
      t.spreadWr.toNat = (s.spreadWr.toNat + 1) % 256 ∧
      t.hops.toNat = s.hops.toNat + 1

/-- R122, for every HOP that is performed: the three older spread frames are raised to the running maximum, carried from
-1 to -3 to -6, and apart from them and the new frame no spread frame changes. -/
def Obligations.HopSpreadsInTime : Prop :=
  ∀ s : State, stop s = false → s.hops ≠ 0xFFFFFFFF#32 →
    ∃ t, exec .hop s = .next t ∧
      (∀ pos, pos < 1025 →
        let q1 := (s.spreadWr.toNat + 255) % 256
        let q3 := (s.spreadWr.toNat + 253) % 256
        let q6 := (s.spreadWr.toNat + 250) % 256
        let m1 := Config.num.max (cell (cell s.spreadHist q1) pos) (cell (cell t.spreadHist s.spreadWr.toNat) pos)
        let m3 := Config.num.max (cell (cell s.spreadHist q3) pos) m1
        let m6 := Config.num.max (cell (cell s.spreadHist q6) pos) m3
        cell (cell t.spreadHist q1) pos = m1 ∧ cell (cell t.spreadHist q3) pos = m3 ∧
          cell (cell t.spreadHist q6) pos = m6) ∧
      (∀ q, q < 256 → q ≠ s.spreadWr.toNat → q ≠ (s.spreadWr.toNat + 255) % 256 →
        q ≠ (s.spreadWr.toNat + 253) % 256 → q ≠ (s.spreadWr.toNat + 250) % 256 →
        cell t.spreadHist q = cell s.spreadHist q)

/-- The frame of HOP (R83, R18, R16): every register a hop does not name is unchanged, SAMPLE and the CRC register among
them; ERR_CMD, ERR_ACC and ERR_RNG are unchanged, ERR_DIV and ERR_OVF are never cleared; where the state
after is not faulted (R182), the lists have only grown at their ends. -/
def Obligations.HopLeavesTheRestAlone : Prop :=
  ∀ s t : State, exec .hop s = .next t →
    t.sample = s.sample ∧ t.crc = s.crc ∧ t.pkFrame = s.pkFrame ∧ t.pkData = s.pkData ∧ t.pending = s.pending ∧
    t.readData = s.readData ∧ t.resetCount = s.resetCount ∧
    t.err.cmd = s.err.cmd ∧ t.err.acc = s.err.acc ∧ t.err.rng = s.err.rng ∧
    (s.err.div = true → t.err.div = true) ∧ (s.err.ovf = true → t.err.ovf = true) ∧
    (t.faulted = false → ∀ b, bandList s.band b <+: bandList t.band b) ∧
    (∀ k : Offset, 0x100 ≤ k.toNat → byteView t k = byteView s k)

/-- The detector gate (R85), for every HOP that is performed: with the count of frames, this hop's included, below 47
no fault is raised and nothing is recorded; from 47 on the scan runs on the frames at -46 and -49 of the advanced
pointers. The fault bits are those of the scan in every case, so a hop sets none that no candidate raises (R181). What it
says of the lists and `npeaks` it says where neither ERR_DIV nor ERR_OVF is set after (R182). -/
def Obligations.DetectorRunsFrom47Frames : Prop :=
  ∀ s : State, stop s = false → s.hops ≠ 0xFFFFFFFF#32 →
    ∃ t, exec .hop s = .next t ∧
      (t.hops.toNat < 47 → t.err = s.err ∧ (t.faulted = false → t.band = s.band ∧ t.npeaks = s.npeaks)) ∧
      (47 ≤ t.hops.toNat →
        let found :=
          (List.range' 10 1007).foldl
            (detectAt Config.num Config.peakCap t.hops
              (cell t.specHist ((t.specWr.toNat + 210) % 256)) (cell t.spreadHist ((t.spreadWr.toNat + 207) % 256))
              t.spreadHist t.spreadWr)
            s.results
        t.err = found.err ∧ (t.faulted = false → t.band = found.band ∧ t.npeaks = found.npeaks))

/-- What a hop records (R130 to R137), in a hop after which neither ERR_DIV nor ERR_OVF is set (R182): exactly the peaks
of the positions 10 to 1016 that survive the tests and lie in a band, each at the end of its band's list, in ascending
order of position, labelled `hops - 46`; and `npeaks` counts them. -/
def Obligations.HopRecordsExactlyItsPeaks : Prop :=
  ∀ s : State, stop s = false → s.hops ≠ 0xFFFFFFFF#32 →
    ∃ t, exec .hop s = .next t ∧
      (47 ≤ t.hops.toNat → t.faulted = false →
        let found := (List.range' 10 1007).filterMap
          (candidate Config.num t.hops (frameAt t.specHist t.specWr (-46)) (frameAt t.spreadHist t.spreadWr (-49))
            t.spreadHist t.spreadWr)
        (∀ b, bandList t.band b =
          bandList s.band b ++ found.filterMap (fun x => if x.1 = b then some x.2 else none)) ∧
        t.npeaks = s.npeaks + BitVec.ofNat 32 found.length)

/-! ### The detector's tests and the quantizer -/

/-- The three tests (R131 to R133) in a NUM that satisfies the laws, on finite frames: a position survives iff its
magnitude is at least 1/64 and at least the spread value, and strictly greater than the eight neighbours of the spread
frame and than bin `pos - 1` of the fourteen other spread frames. -/
def Obligations.SurvivorIsStrictlyGreater : Prop :=
  ∀ (α : Type) (N : NumSys α) (val : α → ℝ) (F S : Frame α) (h : Hist α) (wr : BitVec 8) (pos : Nat),
    N.Laws val → (∀ k, k < 1025 → N.finite (cell F k) = true) → (∀ k, k < 1025 → N.finite (cell S k) = true) →
    (∀ q k, q < 256 → k < 1025 → N.finite (cell (cell h q) k) = true) → 10 ≤ pos → pos < 1017 →
    (survives N F S h wr pos = true ↔
      1 / 64 ≤ val (cell F pos) ∧ val (cell S pos) ≤ val (cell F pos) ∧
      (∀ d ∈ ([-10, -7, -4, -3, 1, 2, 5, 8] : List Int), val (cell S ((pos : Int) + d).toNat) < val (cell F pos)) ∧
      (∀ o ∈ ([-53, -45, 165, 172, 179, 186, 193, 200, 214, 221, 228, 235, 242, 249] : List Int),
        val (cell (cell h (((wr.toNat : Int) + o) % 256).toNat) (pos - 1)) < val (cell F pos)))

/-- The quantizer in the reference instance, written out (R134, R135, R136). The log-magnitude of `v` is
`ln(max(1/64, v)) * 1477.3 + 6144`, and `cb = 64 * pos + v2`. For a bin of at least 1/64 that exceeds both neighbours, with
`a = pm - pb` and `c = pm - pa`: `v1 = a + c >= 0`, which is 0 iff the bin is exactly 1/64, and otherwise
`v2 = 32 * (a - c) / (a + c)`, from -32 to 32, positive iff the bin above is the larger after clamping. The quantizer takes
these of the bins `pos`, `pos - 1` and `pos + 1`, classifies `cb * 125/1024` and records `pm` and `cb`. -/
def Obligations.VariationsInTheReference : Prop :=
  let L := fun v : ℝ => Real.log (Max.max (1 / 64) v) * (14773 / 10) + 6144
  (∀ v : ℝ, logMag referenceNum v = L v) ∧
  (∀ (pos : Nat) (v2 : ℝ), correctedBin referenceNum pos v2 = 64 * (pos : ℝ) + v2) ∧
  (∀ before peak after : ℝ, 1 / 64 ≤ peak → before < peak → after < peak →
    let a := L peak - L before
    let c := L peak - L after
    let v1 := variation1 referenceNum (L before) (L peak) (L after)
    let v2 := variation2 referenceNum (L before) (L after) v1
    v1 = a + c ∧ 0 ≤ v1 ∧ (v1 = 0 ↔ peak = 1 / 64) ∧
      (v1 ≠ 0 → v2 = 32 * (a - c) / (a + c) ∧ -32 ≤ v2 ∧ v2 ≤ 32 ∧ (0 < v2 ↔ L before < L after) ∧
        (v2 < 0 ↔ L after < L before))) ∧
  (∀ (cap : Nat) (hops : Word) (F : Frame ℝ) (pos : Nat) (r : Results), 10 ≤ pos → pos < 1017 →
    1 / 64 ≤ cell F pos → cell F (pos - 1) < cell F pos → cell F (pos + 1) < cell F pos →
    let a := L (cell F pos) - L (cell F (pos - 1))
    let c := L (cell F pos) - L (cell F (pos + 1))
    let cb := 64 * (pos : ℝ) + 32 * (a - c) / (a + c)
    (cell F pos = 1 / 64 →
      quantizeClassifyRecord referenceNum cap hops F pos r = { r with err := { r.err with div := true } }) ∧
    (cell F pos ≠ 1 / 64 → classify referenceNum (cb * (125 / 1024)) = none →
      quantizeClassifyRecord referenceNum cap hops F pos r = r) ∧
    (∀ b, cell F pos ≠ 1 / 64 → classify referenceNum (cb * (125 / 1024)) = some b →
      quantizeClassifyRecord referenceNum cap hops F pos r =
        record referenceNum cap hops b (L (cell F pos)) cb r))

/-- In any NUM a candidate whose first variation is `ofInt 0` raises ERR_DIV and is neither recorded nor counted, before any
classification (R135, R185). It says what the quantizer does at one position (R183: a dropped candidate leaves its list
untouched) and nothing of the lists of the call, which is faulted from here on (R182). -/
def Obligations.ZeroVariationRaisesErrDivOnly : Prop :=
  ∀ (α : Type) (_ : DecidableEq α) (N : NumSys α) (cap : Nat) (hops : Word) (F : Frame α) (pos : Nat) (r : Results),
    variation1 N (logMag N (binAt F pos (-1))) (logMag N (cell F pos)) (logMag N (binAt F pos 1)) = N.ofInt 0 →
    quantizeClassifyRecord N cap hops F pos r = { r with err := { r.err with div := true } }

/-- The record step (R137) in any NUM, all three ways: a value that is not finite (U5, the model's reading, log 3) or whose
integer part lies outside 0 to 65535, and then a list at its capacity, set ERR_OVF and nothing else; otherwise one record with
`frame = hops - 46` and the two integer parts goes to the end of the band's list, and `npeaks` counts it. It says what one
candidate does (R183) and nothing of the lists of a faulted call (R182). -/
def Obligations.RecordChecksWidthThenCapacity : Prop :=
  ∀ (α : Type) (N : NumSys α) (cap : Nat) (hops : Word) (b : Fin 4) (pm cb : α) (r : Results),
    let fits := fun v : α => N.finite v = true ∧ 0 ≤ N.trunc v ∧ N.trunc v ≤ 65535
    (¬ (fits pm ∧ fits cb) → record N cap hops b pm cb r = { r with err := { r.err with ovf := true } }) ∧
    (fits pm ∧ fits cb → cap ≤ (bandList r.band b).length →
      record N cap hops b pm cb r = { r with err := { r.err with ovf := true } }) ∧
    (fits pm ∧ fits cb → (bandList r.band b).length < cap →
      ∃ (p : FrequencyPeak) (t : Results), record N cap hops b pm cb r = t ∧
        p.frame = hops - 46#32 ∧ (p.mag.toNat : Int) = N.trunc pm ∧ (p.bin.toNat : Int) = N.trunc cb ∧
        (∀ c, bandList t.band c = if c = b then bandList r.band b ++ [p] else bandList r.band c) ∧
        t.npeaks = r.npeaks + 1#32 ∧ t.err = r.err)

/-- The bands (R136) in a NUM that satisfies the laws, for a finite frequency: lower edges inclusive, upper edges
exclusive but for the last, which is inclusive; outside `[250, 5500]` none. -/
def Obligations.BandsOfFrequencies : Prop :=
  ∀ (α : Type) (N : NumSys α) (val : α → ℝ) (f : α), N.Laws val → N.finite f = true →
    (classify N f = none ↔ val f < 250 ∨ 5500 < val f) ∧
    (classify N f = some 0 ↔ 250 ≤ val f ∧ val f < 520) ∧
    (classify N f = some 1 ↔ 520 ≤ val f ∧ val f < 1450) ∧
    (classify N f = some 2 ↔ 1450 ≤ val f ∧ val f < 3500) ∧
    (classify N f = some 3 ↔ 3500 ≤ val f ∧ val f ≤ 5500)

/-- The ranges of a recorded bin in the reference instance (R136, R139): only positions 32 to 704 lie in a band, and the
truncated bin lies in its band's range. -/
def Obligations.RecordedBinRanges : Prop :=
  ∀ (pos : Nat) (v2 : ℝ) (b : Fin 4), -32 ≤ v2 → v2 ≤ 32 →
    classify referenceNum (referenceNum.mul (correctedBin referenceNum pos v2) referenceNum.hzPerCb) = some b →
    let bin := referenceNum.trunc (correctedBin referenceNum pos v2)
    32 ≤ pos ∧ pos ≤ 704 ∧ 2048 ≤ bin ∧ bin ≤ 45056 ∧
      (b = 0 → bin ≤ 4259) ∧ (b = 1 → 4259 ≤ bin ∧ bin ≤ 11878) ∧ (b = 2 → 11878 ≤ bin ∧ bin ≤ 28671) ∧
      (b = 3 → 28672 ≤ bin)

/-- The range of magnitudes in the reference instance (R107, R139): from any ring every bin of a hop's magnitude frame lies
from the floor to 8598325248, and for a bin from 1/64 to that bound the recorded magnitude is 0 to 39936, so it fits its
16-bit field. -/
def Obligations.RecordedMagnitudeRange : Prop :=
  (∀ (ring : Ring) (wr : BitVec 11) (k : Nat), k < 1025 →
    1 / 10 ^ 10 ≤ cell (hopMagnitude referenceNum ring wr) k ∧ cell (hopMagnitude referenceNum ring wr) k ≤ 8598325248) ∧
  ∀ v : ℝ, 1 / 64 ≤ v → v ≤ 8598325248 →
    0 ≤ referenceNum.trunc (logMag referenceNum v) ∧ referenceNum.trunc (logMag referenceNum v) ≤ 39936

/-- The reference instance, the exact reals, satisfies the laws NL1 to NL6 (R9), as the model reads them (logs 3, 4 and
26). -/
def Obligations.ReferenceInstanceIsLawful : Prop := referenceNum.Lawful

/-! ### Window and FFT -/

/-- The window table of the reference instance (R102): never 0, never 1, symmetric, of sum exactly 1024.5. -/
def Obligations.WindowTableShape : Prop :=
  (∀ i, i < 2048 → 0 < referenceNum.w i ∧ referenceNum.w i < 1 ∧ referenceNum.w i = referenceNum.w (2047 - i)) ∧
    ∑ i ∈ Finset.range 2048, referenceNum.w i = 2049 / 2

/-- R105: `rev11` moves bit `b` to bit `10 - b`, is an involution on the indices, and the permutation stores
`(frame[i], ofInt 0)` at index `rev11(i)`. -/
def Obligations.BitReversalPermutes : Prop :=
  ∀ (α : Type) (N : NumSys α) (frame : Vector α 2048) (i : Nat), i < 2048 →
    rev11 i < 2048 ∧ rev11 (rev11 i) = i ∧ (∀ b, b < 11 → (rev11 i).testBit (10 - b) = i.testBit b) ∧
      cell (bitReverse N 11 frame) (rev11 i) = (cell frame i, N.ofInt 0)

/-- One stage (R106): for every group start `k` and every `j` below `half`, both outputs of the butterfly, with the
operations in the order R106 writes them. -/
def Obligations.StagePerformsItsButterflies : Prop :=
  ∀ (α : Type) (N : NumSys α) (A : Vector (α × α) 2048) (s g j : Nat), 1 ≤ s → s ≤ 11 → g < 2048 / 2 ^ s →
    j < 2 ^ s / 2 →
    let half := 2 ^ s / 2
    let k := g * 2 ^ s
    let w := N.tw (j * (2048 / 2 ^ s))
    let b := cell A (k + j + half)
    let u := cell A (k + j)
    let tr := N.sub (N.mul w.1 b.1) (N.mul w.2 b.2)
    let ti := N.add (N.mul w.1 b.2) (N.mul w.2 b.1)
    cell (butterflyStage N s A) (k + j) = (N.add u.1 tr, N.add u.2 ti) ∧
      cell (butterflyStage N s A) (k + j + half) = (N.sub u.1 tr, N.sub u.2 ti)

/-- R104: in the reference instance the FFT unit computes the unnormalised discrete Fourier transform. -/
def Obligations.FftComputesTheDft : Prop :=
  ∀ (frame : Vector ℝ 2048) (k : Nat), k < 2048 → cell (fft referenceNum frame) k = dft frame k

/-- Silence (R109): from a ring of zeros every magnitude is exactly MAG_FLOOR, in every NUM that satisfies the laws, as the
model reads them (logs 3, 4 and 26). -/
def Obligations.SilentRingGivesTheFloor : Prop :=
  ∀ (α : Type) (N : NumSys α) (ring : Ring) (wr : BitVec 11), N.Lawful → (∀ i, i < 2048 → cell ring i = 0#16) →
    ∀ k, k < 1025 → cell (hopMagnitude N ring wr) k = N.magFloor

/-- Silence (R109). A block that has been fed zeros only stays so in every step but a hardware reset and a legal write of a
nonzero word to SAMPLE, raises neither ERR_DIV nor, below the counter's limit, ERR_OVF, and records no peak; and every HOP on
it completes, counted unless refused. What it says of the lists and `npeaks` it says where the state after is not faulted
(R182). It rests on the laws as the model reads them (logs 3, 4 and 26). -/
def Obligations.SilenceIsKeptAndRecordsNothing : Prop :=
  (∀ s t : State, s.Silent → step s = .next t → s.pending.head? ≠ some .reset →
    (∀ off v, s.pending.head? = some (.write .bits32 off v) → off.toNat % 4 = 0 → 0x100 ≤ off.toNat → v = 0#32) →
    t.Silent ∧ (t.err.div = true → s.err.div = true) ∧
      (s.hops ≠ 0xFFFFFFFF#32 → t.err.ovf = true → s.err.ovf = true) ∧
      (t.faulted = false → s.pending.head? ≠ some (.write .bits32 0#9 0x01000000#32) →
        t.band = s.band ∧ t.npeaks = s.npeaks)) ∧
  ∀ s : State, s.Silent → ∃ t, exec .hop s = .next t ∧ t.Silent ∧
    (t.faulted = false → t.band = s.band ∧ t.npeaks = s.npeaks) ∧
    (s.hops ≠ 0xFFFFFFFF#32 → t.err = s.err) ∧ (s.hops ≠ 0xFFFFFFFF#32 → stop s = false → t.hops = s.hops + 1#32)

/-- The first hop on silence, R83's example: MAG_FLOOR in every bin of slot 0 of both histories and of slots 255, 253 and
250 of the spread history, every other slot still `ofInt 0`. It rests on the laws as the model reads them (logs 3, 4 and
26). -/
def Obligations.FirstHopOnSilence : Prop :=
  ∀ s : State, (∀ j, j < 128 → cell s.sample j = 0#16) → ∃ t, exec .hop (freshCall s) = .next t ∧
    t.hops = 1#32 ∧ t.npeaks = 0#32 ∧ t.err = Err.none ∧ t.ringWr = 128#11 ∧ t.specWr = 1#8 ∧ t.spreadWr = 1#8 ∧
    (∀ q k, q < 256 → k < 1025 →
      cell (cell t.specHist q) k = (if q = 0 then Config.num.magFloor else Config.num.ofInt 0) ∧
      cell (cell t.spreadHist q) k =
        (if q = 0 ∨ q = 255 ∨ q = 253 ∨ q = 250 then Config.num.magFloor else Config.num.ofInt 0))

/-! ### CRC32 -/

/-- R150: the word 0x10000000 is CRCINIT, which completes, presets the register and writes nothing else; CRC then reads 0. -/
def Obligations.CrcinitPresetsTheRegister : Prop :=
  decode 0x10000000#32 = .ok .crcinit ∧ ∀ s : State, exec .crcinit s = .next { s with crc := 0xFFFFFFFF#32 } ∧
    regRead .bits32 0x020#9 { s with crc := 0xFFFFFFFF#32 } = { s with crc := 0xFFFFFFFF#32, readData := 0#32 }

/-- R151: `0x11000000 OR imm8` is CRCB, which completes: the byte is XORed into the low end, then eight times the register is shifted right and, when
bit 0 was 1, XORed with the polynomial; nothing else is written. -/
def Obligations.CrcbFeedsOneByte : Prop :=
  ∀ (s : State) (b : Byte),
    decode (0x11000000#32 ||| BitVec.ofNat 32 b.toNat) = .ok (.crcb b) ∧
    exec (.crcb b) s =
      .next { s with
        crc := (fun c : Word => if c.toNat % 2 = 1 then (c >>> 1) ^^^ 0xEDB88320#32 else c >>> 1)^[8]
          (s.crc ^^^ BitVec.ofNat 32 b.toNat) }

/-- R151 to R153: the host's lines `CRC32 b0, ..., b(k-1)` return the CRC32 of the bytes as R153's procedure computes it, and
nothing but `crc` and the value read changed. -/
def Obligations.CrcReadsTheMessageChecksum : Prop :=
  ∀ (s : State) (bytes : List Byte),
    let bit := fun c : Word => if c.toNat % 2 = 1 then (c >>> 1) ^^^ 0xEDB88320#32 else c >>> 1
    let c := bytes.foldl (fun (c : Word) (b : Byte) => bit^[8] (c ^^^ BitVec.ofNat 32 b.toNat)) 0xFFFFFFFF#32
    performAll (crc32Lines bytes) s = .next { s with crc := c, readData := c ^^^ 0xFFFFFFFF#32 }

/-- The CRC unit shares no state with the pipeline (R205): NOP, HOP and PKRD leave `crc`, and CRCINIT and CRCB leave
everything else. -/
def Obligations.CrcUnitIsIndependent : Prop :=
  ∀ (i : Instr) (s t : State), exec i s = .next t →
    (i ≠ .init → i ≠ .crcinit → (∀ b, i ≠ .crcb b) → t.crc = s.crc) ∧
    ((i = .crcinit ∨ ∃ b, i = .crcb b) → t = { s with crc := t.crc })

/-! ### PKRD -/

/-- R86: `0x20000000 OR (band << 22) OR index` is PKRD, which completes: below the band's count it loads the record, `PKDATA = bin * 65536 + mag`, and writes nothing
else; otherwise it raises ERR_RNG and PKFRAME and PKDATA keep their values. -/
def Obligations.PkrdLoadsTheRecord : Prop :=
  ∀ (s : State) (b : Fin 4) (index : Nat),
    (index < 4194304 →
      decode (0x20000000#32 ||| (BitVec.ofNat 32 b.val <<< 22) ||| BitVec.ofNat 32 index) = .ok (.pkrd b index)) ∧
    (∀ p, (bandList s.band b)[index]? = some p →
      ∃ data : Word, data.toNat = p.bin.toNat * 65536 + p.mag.toNat ∧
        exec (.pkrd b index) s = .next { s with pkFrame := p.frame, pkData := data }) ∧
    ((bandList s.band b).length ≤ index →
      exec (.pkrd b index) s = .next { s with err := { s.err with rng := true } })

/-! ### Faults -/

/-- The fault bits are sticky (R18): a step that is not an INIT or a hardware reset clears none, and those two clear all
five. -/
def Obligations.FaultBitsAreSticky : Prop :=
  ∀ s t : State, step s = .next t →
    (s.pending.head? ≠ some .reset → s.pending.head? ≠ some (.write .bits32 0#9 0x01000000#32) →
      (s.err.cmd = true → t.err.cmd = true) ∧ (s.err.acc = true → t.err.acc = true) ∧
      (s.err.div = true → t.err.div = true) ∧ (s.err.rng = true → t.err.rng = true) ∧
      (s.err.ovf = true → t.err.ovf = true)) ∧
    (s.pending.head? = some .reset ∨ s.pending.head? = some (.write .bits32 0#9 0x01000000#32) → t.err = Err.none)

/-- Each fault has its cause (R181): a step that sets a fault bit that was 0 performed the access or command that raises
that fault; a step that performs no HOP sets neither ERR_DIV nor ERR_OVF. -/
def Obligations.EachFaultHasItsCause : Prop :=
  ∀ s t : State, step s = .next t →
    (s.err.cmd = false → t.err.cmd = true →
      ∃ c rest e, s.pending = .write .bits32 0#9 c :: rest ∧ decode c = .error e) ∧
    (s.err.acc = false → t.err.acc = true →
      (∃ width off rest, s.pending = .read width off :: rest ∧ (width ≠ .bits32 ∨ off.toNat % 4 ≠ 0 ∨ off = 0#9 ∨
        (0x02C ≤ off.toNat ∧ off.toNat ≤ 0x0FC))) ∨
      (∃ width off v rest, s.pending = .write width off v :: rest ∧ (width ≠ .bits32 ∨ off.toNat % 4 ≠ 0 ∨
        (4 ≤ off.toNat ∧ off.toNat ≤ 0x0FC)))) ∧
    (s.err.rng = false → t.err.rng = true →
      ∃ c b index rest, s.pending = .write .bits32 0#9 c :: rest ∧ decode c = .ok (.pkrd b index) ∧
        (bandList s.band b).length ≤ index) ∧
    (s.pending.head? ≠ some (.write .bits32 0#9 0x02000000#32) →
      (s.err.div = false → t.err.div = false) ∧ (s.err.ovf = false → t.err.ovf = false))

/-- Faults do not gate commands (R183): with any other fault bits a command still answers the same next state but for the
fault bits. -/
def Obligations.FaultsDoNotGateCommands : Prop :=
  ∀ (i : Instr) (s t : State) (e : Err), exec i s = .next t →
    ∃ e', exec i { s with err := e } = .next { t with err := e' }

/-! ### Reset and invariants -/

/-- R201: every item after hardware reset that the table gives a value, and what the registers then read. -/
def Obligations.ResetStateIsAsTabulated : Prop :=
  (∀ i, i < 2048 → cell State.reset.ring i = 0#16) ∧ State.reset.ringWr = 0#11 ∧
    (∀ q k, q < 256 → k < 1025 → cell (cell State.reset.specHist q) k = Config.num.ofInt 0) ∧
    State.reset.specWr = 0#8 ∧
    (∀ q k, q < 256 → k < 1025 → cell (cell State.reset.spreadHist q) k = Config.num.ofInt 0) ∧
    State.reset.spreadWr = 0#8 ∧ State.reset.hops = 0#32 ∧ State.reset.npeaks = 0#32 ∧
    (∀ b, bandList State.reset.band b = []) ∧ State.reset.crc = 0xFFFFFFFF#32 ∧
    State.reset.err = ⟨false, false, false, false, false⟩ ∧ stop State.reset = false ∧
    State.reset.pkFrame = 0#32 ∧ State.reset.pkData = 0#32 ∧
    (∀ r : Reg, (∀ i, r ≠ .sample i) → regValue State.reset r = 0#32)

/-- A hardware reset (R200, R201) gives the reset state, with some contents of SAMPLE; the host's accesses still to come,
and the last value read (the model's choice, log 9), are as before. -/
def Obligations.HardwareResetGivesTheResetState : Prop :=
  ∀ (s : State) (rest : List HostEvent), s.pending = .reset :: rest →
    ∃ smp : Vector Half 128, step s = .next { State.reset with
      sample := smp, pending := rest, readData := s.readData, resetCount := s.resetCount + 1 }

/-- The invariant holds after reset. -/
def Obligations.InvariantHoldsAtReset : Prop := State.reset.Inv

/-- Every step keeps the invariant, from every state that meets it: the pointers follow `hops` (R21), and, in a state that
is not faulted (R182), `npeaks` is the total of the lists (R15), no list exceeds PEAK_CAP (R16), and the frames of a list
never decrease and lie in 1 to `hops - 46` (R16, R68). -/
def Obligations.EveryStepKeepsTheInvariant : Prop :=
  ∀ s t : State, s.Inv → step s = .next t → t.Inv

/-- A record is immutable once created (R16, R209): after every step but an INIT or a hardware reset each list begins with
what it was, where the state after is not faulted (R182). -/
def Obligations.RecordsAreImmutable : Prop :=
  ∀ s t : State, step s = .next t → t.faulted = false → s.pending.head? ≠ some .reset →
    s.pending.head? ≠ some (.write .bits32 0#9 0x01000000#32) → ∀ b, bandList s.band b <+: bandList t.band b

/-- No command writes SAMPLE (R19, R203): it holds what the host wrote. -/
def Obligations.NoCommandWritesSample : Prop :=
  ∀ (i : Instr) (s t : State), exec i s = .next t → t.sample = s.sample ∧
    (∀ k : Offset, 0x100 ≤ k.toNat → byteView t k = byteView s k)

/-! ### The host's side -/

/-- `FEED s0, ..., s127` (R66, R203): writing the 64 words and issuing HOP is HOP on those samples. -/
def Obligations.FeedFeedsItsSamples : Prop :=
  ∀ (v : Vector Half 128) (s : State), performAll (feedLines v) s = exec .hop { s with sample := v }

/-- The call loop leaves at the first STOP it reads and feeds nothing more (R84, R202). -/
def Obligations.CallLoopLeavesAtStop : Prop :=
  ∀ (v : Vector Half 128) (rest : List (Vector Half 128)) (s : State), stop s = true →
    hopLoop (v :: rest) s = .next { s with readData := statusWord s }

/-- A call (R88, R182, R202) completes, and its result is its final state unless that is faulted (that ERR_CMD, ERR_ACC and
ERR_RNG leave it a final state is the model's choice, log 27). Where FAULT reads 0 at its
end, `npeaks` is the total of the lists, no list exceeds PEAK_CAP, the frames never decrease and lie in 1 to `hops - 46`, and
every whole hop of the recording was performed unless STOP ended it. -/
def Obligations.CallEndsAfterItsHops : Prop :=
  ∀ (samples : List Half) (s : State), ∃ t, fingerprintCall samples s = .next t ∧
    callResult samples s = (if t.faulted then none else some t) ∧
    (t.clean = true → t.CountsMatch ∧ t.WithinCapacity ∧ t.FramesOrdered ∧ t.hops.toNat ≤ samples.length / 128 ∧
      (stop t = false → t.hops.toNat = samples.length / 128))

/-- R161: a payload takes its peaks apart again: the delta bytes, the markers and the records are unambiguous, for every
list of peaks whose frames never decrease (as R16 says of a band). -/
def Obligations.PayloadReadsBack : Prop :=
  ∀ peaks : List FrequencyPeak, peaks.Pairwise (fun p q => p.frame.toNat ≤ q.frame.toNat) →
    readPayload 0 (bandPayload peaks) = some peaks

/-- The signature (R162 to R165, R168), for a header layout as the model takes it (`L.valid`, log 17: every header field a
whole 32-bit word of its own and magic constant 1 at offset 0, where N14 leaves open a shared word) and with the 32-bit size
fields modulo 2^32 (log 22), both the model's choice: `56 + contentSize` bytes, chunks padded to multiples of 4, the checksum of bytes
8 to the end at offset 4, and `contentSize + 8` at the size field and after the marker. -/
def Obligations.SignatureFieldsAreConsistent : Prop :=
  ∀ (L : HeaderLayout) (numSamples : Nat) (bands : Bands), L.valid = true →
    let sig := signature L numSamples bands
    let word := fun o : Nat => wordOfBytes (sig.getD o 0) (sig.getD (o + 1) 0) (sig.getD (o + 2) 0) (sig.getD (o + 3) 0)
    sig.length = 56 + (content bands).length ∧ (content bands).length % 4 = 0 ∧
      word 4 = crc32 (sig.drop 8) ∧ word L.offSize = BitVec.ofNat 32 ((content bands).length + 8) ∧
      word 48 = 0x40000000#32 ∧ word 52 = BitVec.ofNat 32 ((content bands).length + 8)
end

