-- ==== Sys2Proof/Laws/Arrays.lean ====
section
/-! SUPPORT. Arrays: reading an element after writing or building one. -/

namespace Sys2Proof.Machine

variable {α : Type} {n : Nat} [NeZero n]

omit [NeZero n] in
theorem tabulate_eq (f : Nat → α) : tabulate n f = ⟨((List.range n).map f).toArray, by simp⟩ := by
  unfold tabulate; rfl

theorem cell_tabulate (f : Nat → α) (i : Nat) : cell (tabulate n f) i = f (i % n) := by
  simp [cell, tabulate_eq]

theorem cell_tabulate_of_lt (f : Nat → α) {i : Nat} (h : i < n) : cell (tabulate n f) i = f i := by
  rw [cell_tabulate, Nat.mod_eq_of_lt h]

@[simp] theorem cell_mod (v : Vector α n) (i : Nat) : cell v (i % n) = cell v i := by
  simp [cell]

theorem cell_putCell (v : Vector α n) (i j : Nat) (x : α) :
    cell (putCell v i x) j = if j % n = i % n then x else cell v j := by
  simp only [cell, putCell, Vector.getElem_set]
  by_cases h : i % n = j % n
  · simp [h]
  · simp [h, Ne.symm h]

@[simp] theorem cell_putCell_same (v : Vector α n) (i : Nat) (x : α) : cell (putCell v i x) i = x := by
  simp [cell_putCell]

theorem cell_putCell_ne (v : Vector α n) {i j : Nat} (x : α) (h : j % n ≠ i % n) :
    cell (putCell v i x) j = cell v j := by
  simp [cell_putCell, h]

@[simp] theorem cell_replicate (x : α) (i : Nat) : cell (Vector.replicate n x) i = x := by
  simp [cell]

/-- Two arrays with the same elements are the same array. -/
theorem ext_cell {v w : Vector α n} (h : ∀ i, i < n → cell v i = cell w i) : v = w := by
  apply Vector.ext
  intro i hi
  have := h i hi
  simpa [cell, Nat.mod_eq_of_lt hi] using this

theorem cell_of_lt (v : Vector α n) {i : Nat} (h : i < n) : cell v i = v[i] := by
  simp [cell, Nat.mod_eq_of_lt h]

theorem slot_lt (wr : BitVec 8) (o : Int) : slot wr o < 256 := by
  unfold slot; omega

/-- The slot at a negative offset, in natural numbers. -/
theorem slot_neg (wr : BitVec 8) (k : Nat) (h : k ≤ 256) : slot wr (-(k : Int)) = (wr.toNat + 256 - k) % 256 := by
  unfold slot; omega

/-- The slot at offset 0 is the write pointer's. -/
@[simp] theorem slot_zero (wr : BitVec 8) : slot wr 0 = wr.toNat := by
  have := wr.isLt
  unfold slot; omega

/-- After the pointer has advanced, offset -1 is the slot it was at. -/
theorem slot_advanced (wr : BitVec 8) : slot (wr + 1#8) (-1) = wr.toNat := by
  have := wr.isLt
  have h : (wr + 1#8).toNat = (wr.toNat + 1) % 256 := by simp [BitVec.toNat_add]
  unfold slot; omega

theorem frameAt_putFrameAt {h : Hist α} (wr wr' : BitVec 8) (o o' : Int) (F : Frame α) :
    frameAt (putFrameAt h wr o F) wr' o' = if slot wr' o' = slot wr o then F else frameAt h wr' o' := by
  simp [frameAt, putFrameAt, cell_putCell, Nat.mod_eq_of_lt (slot_lt _ _)]

theorem cell_putFrameAt {h : Hist α} (wr : BitVec 8) (o : Int) (F : Frame α) {q : Nat} (hq : q < 256) :
    cell (putFrameAt h wr o F) q = if q = slot wr o then F else cell h q := by
  simp [putFrameAt, cell_putCell, Nat.mod_eq_of_lt (slot_lt _ _), Nat.mod_eq_of_lt hq]

end Sys2Proof.Machine
end

