-- ==== Sys2Proof/Laws/Bytes.lean ====
section
/-! SUPPORT. Little-endian bytes: a word and a half are given back by their bytes. -/

namespace Sys2Proof.Machine

/-- The word of a word's four bytes is the word (R41). -/
theorem wordOfBytes_byteOfWord (c : Word) :
    wordOfBytes (byteOfWord c 0) (byteOfWord c 1) (byteOfWord c 2) (byteOfWord c 3) = c := by
  apply BitVec.eq_of_getLsbD_eq
  intro i hi
  simp only [wordOfBytes, byteOfWord, BitVec.getLsbD_append, BitVec.getLsbD_extractLsb']
  by_cases h0 : i < 8
  · simp [h0]
  by_cases h1 : i < 16
  · simp [h0, show i - 8 < 8 by omega, show 8 + (i - 8) = i by omega]
  by_cases h2 : i < 24
  · simp [h0, show ¬ i - 8 < 8 by omega, show i - 8 - 8 < 8 by omega, show 16 + (i - 8 - 8) = i by omega]
  · simp [h0, show ¬ i - 8 < 8 by omega, show ¬ i - 8 - 8 < 8 by omega, show i - 8 - 8 - 8 < 8 by omega,
      show 24 + (i - 8 - 8 - 8) = i by omega]

/-- The half of a half's two bytes is the half. -/
theorem half_of_bytes (h : Half) : (h.extractLsb' 8 8 ++ h.extractLsb' 0 8 : BitVec 16) = h := by
  apply BitVec.eq_of_getLsbD_eq
  intro i hi
  simp only [BitVec.getLsbD_append, BitVec.getLsbD_extractLsb']
  by_cases h0 : i < 8
  · simp [h0]
  · simp [h0, show i - 8 < 8 by omega, show 8 + (i - 8) = i by omega]

/-- A SAMPLE word gives back its two entries (R19). -/
theorem sampleWord_halves (v : Word) : (v.extractLsb' 16 16 ++ v.extractLsb' 0 16 : BitVec 32) = v := by
  apply BitVec.eq_of_getLsbD_eq
  intro i hi
  simp only [BitVec.getLsbD_append, BitVec.getLsbD_extractLsb']
  by_cases h0 : i < 16
  · simp [h0]
  · simp [h0, show i - 16 < 16 by omega, show 16 + (i - 16) = i by omega]

end Sys2Proof.Machine
end

