-- ==== Sys2Proof/Laws/State.lean ====
section
/-! SUPPORT. One lemma per field and per named update of the state, each true by unfolding, so that no later proof unfolds
a record update. -/

namespace Sys2Proof.Machine

variable (s : State)

/-! ### `raise`: only the fault bits -/

@[simp] theorem raise_ring (f : FaultCode) : (raise f s).ring = s.ring := rfl

@[simp] theorem raise_ringWr (f : FaultCode) : (raise f s).ringWr = s.ringWr := rfl

@[simp] theorem raise_specHist (f : FaultCode) : (raise f s).specHist = s.specHist := rfl

@[simp] theorem raise_specWr (f : FaultCode) : (raise f s).specWr = s.specWr := rfl

@[simp] theorem raise_spreadHist (f : FaultCode) : (raise f s).spreadHist = s.spreadHist := rfl

@[simp] theorem raise_spreadWr (f : FaultCode) : (raise f s).spreadWr = s.spreadWr := rfl

@[simp] theorem raise_hops (f : FaultCode) : (raise f s).hops = s.hops := rfl

@[simp] theorem raise_npeaks (f : FaultCode) : (raise f s).npeaks = s.npeaks := rfl

@[simp] theorem raise_band (f : FaultCode) : (raise f s).band = s.band := rfl

@[simp] theorem raise_crc (f : FaultCode) : (raise f s).crc = s.crc := rfl

@[simp] theorem raise_err (f : FaultCode) : (raise f s).err = s.err.raise f := rfl

@[simp] theorem raise_sample (f : FaultCode) : (raise f s).sample = s.sample := rfl

@[simp] theorem raise_pkFrame (f : FaultCode) : (raise f s).pkFrame = s.pkFrame := rfl

@[simp] theorem raise_pkData (f : FaultCode) : (raise f s).pkData = s.pkData := rfl

@[simp] theorem raise_pending (f : FaultCode) : (raise f s).pending = s.pending := rfl

@[simp] theorem raise_readData (f : FaultCode) : (raise f s).readData = s.readData := rfl

@[simp] theorem raise_resetCount (f : FaultCode) : (raise f s).resetCount = s.resetCount := rfl

/-! ### `freshCall`: all of the per-call state -/

@[simp] theorem freshCall_ring : (freshCall s).ring = Vector.replicate 2048 0#16 := rfl

@[simp] theorem freshCall_ringWr : (freshCall s).ringWr = 0#11 := rfl

@[simp] theorem freshCall_specHist : (freshCall s).specHist = zeroHist := rfl

@[simp] theorem freshCall_specWr : (freshCall s).specWr = 0#8 := rfl

@[simp] theorem freshCall_spreadHist : (freshCall s).spreadHist = zeroHist := rfl

@[simp] theorem freshCall_spreadWr : (freshCall s).spreadWr = 0#8 := rfl

@[simp] theorem freshCall_hops : (freshCall s).hops = 0#32 := rfl

@[simp] theorem freshCall_npeaks : (freshCall s).npeaks = 0#32 := rfl

@[simp] theorem freshCall_band : (freshCall s).band = Vector.replicate 4 [] := rfl

@[simp] theorem freshCall_crc : (freshCall s).crc = Config.crcInit := rfl

@[simp] theorem freshCall_err : (freshCall s).err = Err.none := rfl

@[simp] theorem freshCall_sample : (freshCall s).sample = s.sample := rfl

@[simp] theorem freshCall_pkFrame : (freshCall s).pkFrame = 0#32 := rfl

@[simp] theorem freshCall_pkData : (freshCall s).pkData = 0#32 := rfl

@[simp] theorem freshCall_pending : (freshCall s).pending = s.pending := rfl

@[simp] theorem freshCall_readData : (freshCall s).readData = s.readData := rfl

@[simp] theorem freshCall_resetCount : (freshCall s).resetCount = s.resetCount := rfl

/-! ### `hardwareReset`: the per-call state and SAMPLE -/

@[simp] theorem hardwareReset_ring : (hardwareReset s).ring = Vector.replicate 2048 0#16 := rfl

@[simp] theorem hardwareReset_ringWr : (hardwareReset s).ringWr = 0#11 := rfl

@[simp] theorem hardwareReset_specHist : (hardwareReset s).specHist = zeroHist := rfl

@[simp] theorem hardwareReset_specWr : (hardwareReset s).specWr = 0#8 := rfl

@[simp] theorem hardwareReset_spreadHist : (hardwareReset s).spreadHist = zeroHist := rfl

@[simp] theorem hardwareReset_spreadWr : (hardwareReset s).spreadWr = 0#8 := rfl

@[simp] theorem hardwareReset_hops : (hardwareReset s).hops = 0#32 := rfl

@[simp] theorem hardwareReset_npeaks : (hardwareReset s).npeaks = 0#32 := rfl

@[simp] theorem hardwareReset_band : (hardwareReset s).band = Vector.replicate 4 [] := rfl

@[simp] theorem hardwareReset_crc : (hardwareReset s).crc = Config.crcInit := rfl

@[simp] theorem hardwareReset_err : (hardwareReset s).err = Err.none := rfl

@[simp] theorem hardwareReset_sample : (hardwareReset s).sample = sampleAfterReset (s.resetCount + 1) := rfl

@[simp] theorem hardwareReset_pkFrame : (hardwareReset s).pkFrame = 0#32 := rfl

@[simp] theorem hardwareReset_pkData : (hardwareReset s).pkData = 0#32 := rfl

@[simp] theorem hardwareReset_pending : (hardwareReset s).pending = s.pending := rfl

@[simp] theorem hardwareReset_readData : (hardwareReset s).readData = s.readData := rfl

@[simp] theorem hardwareReset_resetCount : (hardwareReset s).resetCount = s.resetCount + 1 := rfl

/-! ### `ringPush`: the ring and its pointer -/

@[simp] theorem ringPush_ring : (ringPush s).ring = pushRing s.ring s.ringWr s.sample := rfl

@[simp] theorem ringPush_ringWr : (ringPush s).ringWr = s.ringWr + 128#11 := rfl

@[simp] theorem ringPush_specHist : (ringPush s).specHist = s.specHist := rfl

@[simp] theorem ringPush_specWr : (ringPush s).specWr = s.specWr := rfl

@[simp] theorem ringPush_spreadHist : (ringPush s).spreadHist = s.spreadHist := rfl

@[simp] theorem ringPush_spreadWr : (ringPush s).spreadWr = s.spreadWr := rfl

@[simp] theorem ringPush_hops : (ringPush s).hops = s.hops := rfl

@[simp] theorem ringPush_npeaks : (ringPush s).npeaks = s.npeaks := rfl

@[simp] theorem ringPush_band : (ringPush s).band = s.band := rfl

@[simp] theorem ringPush_crc : (ringPush s).crc = s.crc := rfl

@[simp] theorem ringPush_err : (ringPush s).err = s.err := rfl

@[simp] theorem ringPush_sample : (ringPush s).sample = s.sample := rfl

@[simp] theorem ringPush_pkFrame : (ringPush s).pkFrame = s.pkFrame := rfl

@[simp] theorem ringPush_pkData : (ringPush s).pkData = s.pkData := rfl

@[simp] theorem ringPush_pending : (ringPush s).pending = s.pending := rfl

@[simp] theorem ringPush_readData : (ringPush s).readData = s.readData := rfl

@[simp] theorem ringPush_resetCount : (ringPush s).resetCount = s.resetCount := rfl

/-! ### `specPush`: the spectrum history and its pointer -/

@[simp] theorem specPush_ring (m : Frame T) : (specPush m s).ring = s.ring := rfl

@[simp] theorem specPush_ringWr (m : Frame T) : (specPush m s).ringWr = s.ringWr := rfl

@[simp] theorem specPush_specHist (m : Frame T) : (specPush m s).specHist = putFrameAt s.specHist s.specWr 0 m := rfl

@[simp] theorem specPush_specWr (m : Frame T) : (specPush m s).specWr = s.specWr + 1#8 := rfl

@[simp] theorem specPush_spreadHist (m : Frame T) : (specPush m s).spreadHist = s.spreadHist := rfl

@[simp] theorem specPush_spreadWr (m : Frame T) : (specPush m s).spreadWr = s.spreadWr := rfl

@[simp] theorem specPush_hops (m : Frame T) : (specPush m s).hops = s.hops := rfl

@[simp] theorem specPush_npeaks (m : Frame T) : (specPush m s).npeaks = s.npeaks := rfl

@[simp] theorem specPush_band (m : Frame T) : (specPush m s).band = s.band := rfl

@[simp] theorem specPush_crc (m : Frame T) : (specPush m s).crc = s.crc := rfl

@[simp] theorem specPush_err (m : Frame T) : (specPush m s).err = s.err := rfl

@[simp] theorem specPush_sample (m : Frame T) : (specPush m s).sample = s.sample := rfl

@[simp] theorem specPush_pkFrame (m : Frame T) : (specPush m s).pkFrame = s.pkFrame := rfl

@[simp] theorem specPush_pkData (m : Frame T) : (specPush m s).pkData = s.pkData := rfl

@[simp] theorem specPush_pending (m : Frame T) : (specPush m s).pending = s.pending := rfl

@[simp] theorem specPush_readData (m : Frame T) : (specPush m s).readData = s.readData := rfl

@[simp] theorem specPush_resetCount (m : Frame T) : (specPush m s).resetCount = s.resetCount := rfl

/-! ### `timeSpread`: the spread history -/

@[simp] theorem timeSpread_ring (N : NumSys T) (m : Frame T) : (timeSpread N m s).ring = s.ring := rfl

@[simp] theorem timeSpread_ringWr (N : NumSys T) (m : Frame T) : (timeSpread N m s).ringWr = s.ringWr := rfl

@[simp] theorem timeSpread_specHist (N : NumSys T) (m : Frame T) : (timeSpread N m s).specHist = s.specHist := rfl

@[simp] theorem timeSpread_specWr (N : NumSys T) (m : Frame T) : (timeSpread N m s).specWr = s.specWr := rfl

@[simp] theorem timeSpread_spreadHist (N : NumSys T) (m : Frame T) : (timeSpread N m s).spreadHist = timeSpreadHist N s.spreadHist s.spreadWr m := rfl

@[simp] theorem timeSpread_spreadWr (N : NumSys T) (m : Frame T) : (timeSpread N m s).spreadWr = s.spreadWr := rfl

@[simp] theorem timeSpread_hops (N : NumSys T) (m : Frame T) : (timeSpread N m s).hops = s.hops := rfl

@[simp] theorem timeSpread_npeaks (N : NumSys T) (m : Frame T) : (timeSpread N m s).npeaks = s.npeaks := rfl

@[simp] theorem timeSpread_band (N : NumSys T) (m : Frame T) : (timeSpread N m s).band = s.band := rfl

@[simp] theorem timeSpread_crc (N : NumSys T) (m : Frame T) : (timeSpread N m s).crc = s.crc := rfl

@[simp] theorem timeSpread_err (N : NumSys T) (m : Frame T) : (timeSpread N m s).err = s.err := rfl

@[simp] theorem timeSpread_sample (N : NumSys T) (m : Frame T) : (timeSpread N m s).sample = s.sample := rfl

@[simp] theorem timeSpread_pkFrame (N : NumSys T) (m : Frame T) : (timeSpread N m s).pkFrame = s.pkFrame := rfl

@[simp] theorem timeSpread_pkData (N : NumSys T) (m : Frame T) : (timeSpread N m s).pkData = s.pkData := rfl

@[simp] theorem timeSpread_pending (N : NumSys T) (m : Frame T) : (timeSpread N m s).pending = s.pending := rfl

@[simp] theorem timeSpread_readData (N : NumSys T) (m : Frame T) : (timeSpread N m s).readData = s.readData := rfl

@[simp] theorem timeSpread_resetCount (N : NumSys T) (m : Frame T) : (timeSpread N m s).resetCount = s.resetCount := rfl

/-! ### `spreadStore`: the spread history, its pointer and the counter -/

@[simp] theorem spreadStore_ring (m : Frame T) : (spreadStore m s).ring = s.ring := rfl

@[simp] theorem spreadStore_ringWr (m : Frame T) : (spreadStore m s).ringWr = s.ringWr := rfl

@[simp] theorem spreadStore_specHist (m : Frame T) : (spreadStore m s).specHist = s.specHist := rfl

@[simp] theorem spreadStore_specWr (m : Frame T) : (spreadStore m s).specWr = s.specWr := rfl

@[simp] theorem spreadStore_spreadHist (m : Frame T) : (spreadStore m s).spreadHist = putFrameAt s.spreadHist s.spreadWr 0 m := rfl

@[simp] theorem spreadStore_spreadWr (m : Frame T) : (spreadStore m s).spreadWr = s.spreadWr + 1#8 := rfl

@[simp] theorem spreadStore_hops (m : Frame T) : (spreadStore m s).hops = s.hops + 1#32 := rfl

@[simp] theorem spreadStore_npeaks (m : Frame T) : (spreadStore m s).npeaks = s.npeaks := rfl

@[simp] theorem spreadStore_band (m : Frame T) : (spreadStore m s).band = s.band := rfl

@[simp] theorem spreadStore_crc (m : Frame T) : (spreadStore m s).crc = s.crc := rfl

@[simp] theorem spreadStore_err (m : Frame T) : (spreadStore m s).err = s.err := rfl

@[simp] theorem spreadStore_sample (m : Frame T) : (spreadStore m s).sample = s.sample := rfl

@[simp] theorem spreadStore_pkFrame (m : Frame T) : (spreadStore m s).pkFrame = s.pkFrame := rfl

@[simp] theorem spreadStore_pkData (m : Frame T) : (spreadStore m s).pkData = s.pkData := rfl

@[simp] theorem spreadStore_pending (m : Frame T) : (spreadStore m s).pending = s.pending := rfl

@[simp] theorem spreadStore_readData (m : Frame T) : (spreadStore m s).readData = s.readData := rfl

@[simp] theorem spreadStore_resetCount (m : Frame T) : (spreadStore m s).resetCount = s.resetCount := rfl

/-! ### `withResults`: what the detector writes -/

@[simp] theorem withResults_ring (r : Results) : (s.withResults r).ring = s.ring := rfl

@[simp] theorem withResults_ringWr (r : Results) : (s.withResults r).ringWr = s.ringWr := rfl

@[simp] theorem withResults_specHist (r : Results) : (s.withResults r).specHist = s.specHist := rfl

@[simp] theorem withResults_specWr (r : Results) : (s.withResults r).specWr = s.specWr := rfl

@[simp] theorem withResults_spreadHist (r : Results) : (s.withResults r).spreadHist = s.spreadHist := rfl

@[simp] theorem withResults_spreadWr (r : Results) : (s.withResults r).spreadWr = s.spreadWr := rfl

@[simp] theorem withResults_hops (r : Results) : (s.withResults r).hops = s.hops := rfl

@[simp] theorem withResults_npeaks (r : Results) : (s.withResults r).npeaks = r.npeaks := rfl

@[simp] theorem withResults_band (r : Results) : (s.withResults r).band = r.band := rfl

@[simp] theorem withResults_crc (r : Results) : (s.withResults r).crc = s.crc := rfl

@[simp] theorem withResults_err (r : Results) : (s.withResults r).err = r.err := rfl

@[simp] theorem withResults_sample (r : Results) : (s.withResults r).sample = s.sample := rfl

@[simp] theorem withResults_pkFrame (r : Results) : (s.withResults r).pkFrame = s.pkFrame := rfl

@[simp] theorem withResults_pkData (r : Results) : (s.withResults r).pkData = s.pkData := rfl

@[simp] theorem withResults_pending (r : Results) : (s.withResults r).pending = s.pending := rfl

@[simp] theorem withResults_readData (r : Results) : (s.withResults r).readData = s.readData := rfl

@[simp] theorem withResults_resetCount (r : Results) : (s.withResults r).resetCount = s.resetCount := rfl

/-! ### `analyze`: what the spectral analyzer writes -/

@[simp] theorem analyze_ring (N : NumSys T) : (analyze N s).ring = pushRing s.ring s.ringWr s.sample := rfl

@[simp] theorem analyze_ringWr (N : NumSys T) : (analyze N s).ringWr = s.ringWr + 128#11 := rfl

@[simp] theorem analyze_specHist (N : NumSys T) : (analyze N s).specHist = putFrameAt s.specHist s.specWr 0 (hopMagnitude N (pushRing s.ring s.ringWr s.sample) (s.ringWr + 128#11)) := rfl

@[simp] theorem analyze_specWr (N : NumSys T) : (analyze N s).specWr = s.specWr + 1#8 := rfl

@[simp] theorem analyze_spreadHist (N : NumSys T) : (analyze N s).spreadHist = s.spreadHist := rfl

@[simp] theorem analyze_spreadWr (N : NumSys T) : (analyze N s).spreadWr = s.spreadWr := rfl

@[simp] theorem analyze_hops (N : NumSys T) : (analyze N s).hops = s.hops := rfl

@[simp] theorem analyze_npeaks (N : NumSys T) : (analyze N s).npeaks = s.npeaks := rfl

@[simp] theorem analyze_band (N : NumSys T) : (analyze N s).band = s.band := rfl

@[simp] theorem analyze_crc (N : NumSys T) : (analyze N s).crc = s.crc := rfl

@[simp] theorem analyze_err (N : NumSys T) : (analyze N s).err = s.err := rfl

@[simp] theorem analyze_sample (N : NumSys T) : (analyze N s).sample = s.sample := rfl

@[simp] theorem analyze_pkFrame (N : NumSys T) : (analyze N s).pkFrame = s.pkFrame := rfl

@[simp] theorem analyze_pkData (N : NumSys T) : (analyze N s).pkData = s.pkData := rfl

@[simp] theorem analyze_pending (N : NumSys T) : (analyze N s).pending = s.pending := rfl

@[simp] theorem analyze_readData (N : NumSys T) : (analyze N s).readData = s.readData := rfl

@[simp] theorem analyze_resetCount (N : NumSys T) : (analyze N s).resetCount = s.resetCount := rfl

/-! ### `spreadPeaks`: what the spreader writes -/

@[simp] theorem spreadPeaks_ring (N : NumSys T) : (spreadPeaks N s).ring = s.ring := rfl

@[simp] theorem spreadPeaks_ringWr (N : NumSys T) : (spreadPeaks N s).ringWr = s.ringWr := rfl

@[simp] theorem spreadPeaks_specHist (N : NumSys T) : (spreadPeaks N s).specHist = s.specHist := rfl

@[simp] theorem spreadPeaks_specWr (N : NumSys T) : (spreadPeaks N s).specWr = s.specWr := rfl

@[simp] theorem spreadPeaks_spreadHist (N : NumSys T) : (spreadPeaks N s).spreadHist = putFrameAt (timeSpreadHist N s.spreadHist s.spreadWr (freqSpread N (copyLatest s))) s.spreadWr 0 (freqSpread N (copyLatest s)) := rfl

@[simp] theorem spreadPeaks_spreadWr (N : NumSys T) : (spreadPeaks N s).spreadWr = s.spreadWr + 1#8 := rfl

@[simp] theorem spreadPeaks_hops (N : NumSys T) : (spreadPeaks N s).hops = s.hops + 1#32 := rfl

@[simp] theorem spreadPeaks_npeaks (N : NumSys T) : (spreadPeaks N s).npeaks = s.npeaks := rfl

@[simp] theorem spreadPeaks_band (N : NumSys T) : (spreadPeaks N s).band = s.band := rfl

@[simp] theorem spreadPeaks_crc (N : NumSys T) : (spreadPeaks N s).crc = s.crc := rfl

@[simp] theorem spreadPeaks_err (N : NumSys T) : (spreadPeaks N s).err = s.err := rfl

@[simp] theorem spreadPeaks_sample (N : NumSys T) : (spreadPeaks N s).sample = s.sample := rfl

@[simp] theorem spreadPeaks_pkFrame (N : NumSys T) : (spreadPeaks N s).pkFrame = s.pkFrame := rfl

@[simp] theorem spreadPeaks_pkData (N : NumSys T) : (spreadPeaks N s).pkData = s.pkData := rfl

@[simp] theorem spreadPeaks_pending (N : NumSys T) : (spreadPeaks N s).pending = s.pending := rfl

@[simp] theorem spreadPeaks_readData (N : NumSys T) : (spreadPeaks N s).readData = s.readData := rfl

@[simp] theorem spreadPeaks_resetCount (N : NumSys T) : (spreadPeaks N s).resetCount = s.resetCount := rfl

/-! ### `detect`: what the detector writes -/

@[simp] theorem detect_ring (N : NumSys T) (cap : Nat) : (detect N cap s).ring = s.ring := rfl

@[simp] theorem detect_ringWr (N : NumSys T) (cap : Nat) : (detect N cap s).ringWr = s.ringWr := rfl

@[simp] theorem detect_specHist (N : NumSys T) (cap : Nat) : (detect N cap s).specHist = s.specHist := rfl

@[simp] theorem detect_specWr (N : NumSys T) (cap : Nat) : (detect N cap s).specWr = s.specWr := rfl

@[simp] theorem detect_spreadHist (N : NumSys T) (cap : Nat) : (detect N cap s).spreadHist = s.spreadHist := rfl

@[simp] theorem detect_spreadWr (N : NumSys T) (cap : Nat) : (detect N cap s).spreadWr = s.spreadWr := rfl

@[simp] theorem detect_hops (N : NumSys T) (cap : Nat) : (detect N cap s).hops = s.hops := rfl

@[simp] theorem detect_npeaks (N : NumSys T) (cap : Nat) : (detect N cap s).npeaks = (scan N cap s.hops (frameAt s.specHist s.specWr Config.fftOff) (frameAt s.spreadHist s.spreadWr Config.spreadOff) s.spreadHist s.spreadWr s.results).npeaks := rfl

@[simp] theorem detect_band (N : NumSys T) (cap : Nat) : (detect N cap s).band = (scan N cap s.hops (frameAt s.specHist s.specWr Config.fftOff) (frameAt s.spreadHist s.spreadWr Config.spreadOff) s.spreadHist s.spreadWr s.results).band := rfl

@[simp] theorem detect_crc (N : NumSys T) (cap : Nat) : (detect N cap s).crc = s.crc := rfl

@[simp] theorem detect_err (N : NumSys T) (cap : Nat) : (detect N cap s).err = (scan N cap s.hops (frameAt s.specHist s.specWr Config.fftOff) (frameAt s.spreadHist s.spreadWr Config.spreadOff) s.spreadHist s.spreadWr s.results).err := rfl

@[simp] theorem detect_sample (N : NumSys T) (cap : Nat) : (detect N cap s).sample = s.sample := rfl

@[simp] theorem detect_pkFrame (N : NumSys T) (cap : Nat) : (detect N cap s).pkFrame = s.pkFrame := rfl

@[simp] theorem detect_pkData (N : NumSys T) (cap : Nat) : (detect N cap s).pkData = s.pkData := rfl

@[simp] theorem detect_pending (N : NumSys T) (cap : Nat) : (detect N cap s).pending = s.pending := rfl

@[simp] theorem detect_readData (N : NumSys T) (cap : Nat) : (detect N cap s).readData = s.readData := rfl

@[simp] theorem detect_resetCount (N : NumSys T) (cap : Nat) : (detect N cap s).resetCount = s.resetCount := rfl

/-- The part `Detect` writes, whole. -/
@[simp] theorem detect_results (N : NumSys T) (cap : Nat) : (detect N cap s).results =
    scan N cap s.hops (frameAt s.specHist s.specWr Config.fftOff) (frameAt s.spreadHist s.spreadWr Config.spreadOff)
      s.spreadHist s.spreadWr s.results := rfl

/-! ### `detectWhenDue`: nothing outside what the detector writes -/

@[simp] theorem detectWhenDue_ring (N : NumSys T) (cap : Nat) : (detectWhenDue N cap s).ring = s.ring := by
  unfold detectWhenDue; split <;> rfl

@[simp] theorem detectWhenDue_ringWr (N : NumSys T) (cap : Nat) : (detectWhenDue N cap s).ringWr = s.ringWr := by
  unfold detectWhenDue; split <;> rfl

@[simp] theorem detectWhenDue_specHist (N : NumSys T) (cap : Nat) : (detectWhenDue N cap s).specHist = s.specHist := by
  unfold detectWhenDue; split <;> rfl

@[simp] theorem detectWhenDue_specWr (N : NumSys T) (cap : Nat) : (detectWhenDue N cap s).specWr = s.specWr := by
  unfold detectWhenDue; split <;> rfl

@[simp] theorem detectWhenDue_spreadHist (N : NumSys T) (cap : Nat) : (detectWhenDue N cap s).spreadHist = s.spreadHist := by
  unfold detectWhenDue; split <;> rfl

@[simp] theorem detectWhenDue_spreadWr (N : NumSys T) (cap : Nat) : (detectWhenDue N cap s).spreadWr = s.spreadWr := by
  unfold detectWhenDue; split <;> rfl

@[simp] theorem detectWhenDue_hops (N : NumSys T) (cap : Nat) : (detectWhenDue N cap s).hops = s.hops := by
  unfold detectWhenDue; split <;> rfl

@[simp] theorem detectWhenDue_crc (N : NumSys T) (cap : Nat) : (detectWhenDue N cap s).crc = s.crc := by
  unfold detectWhenDue; split <;> rfl

@[simp] theorem detectWhenDue_sample (N : NumSys T) (cap : Nat) : (detectWhenDue N cap s).sample = s.sample := by
  unfold detectWhenDue; split <;> rfl

@[simp] theorem detectWhenDue_pkFrame (N : NumSys T) (cap : Nat) : (detectWhenDue N cap s).pkFrame = s.pkFrame := by
  unfold detectWhenDue; split <;> rfl

@[simp] theorem detectWhenDue_pkData (N : NumSys T) (cap : Nat) : (detectWhenDue N cap s).pkData = s.pkData := by
  unfold detectWhenDue; split <;> rfl

@[simp] theorem detectWhenDue_pending (N : NumSys T) (cap : Nat) : (detectWhenDue N cap s).pending = s.pending := by
  unfold detectWhenDue; split <;> rfl

@[simp] theorem detectWhenDue_readData (N : NumSys T) (cap : Nat) : (detectWhenDue N cap s).readData = s.readData := by
  unfold detectWhenDue; split <;> rfl

@[simp] theorem detectWhenDue_resetCount (N : NumSys T) (cap : Nat) : (detectWhenDue N cap s).resetCount = s.resetCount := by
  unfold detectWhenDue; split <;> rfl

@[simp] theorem results_band : s.results.band = s.band := rfl

@[simp] theorem results_npeaks : s.results.npeaks = s.npeaks := rfl

@[simp] theorem results_err : s.results.err = s.err := rfl

/-- Below 47 frames the detector does not run (R85). -/
theorem detectWhenDue_of_lt (N : NumSys T) (cap : Nat) (h : s.hops.toNat < 47) : detectWhenDue N cap s = s := by
  simp [detectWhenDue, Config.detMinFrames, Nat.not_le.mpr h]

/-- From 47 frames on it does (R85). -/
theorem detectWhenDue_of_le (N : NumSys T) (cap : Nat) (h : 47 ≤ s.hops.toNat) :
    detectWhenDue N cap s = detect N cap s := by
  simp [detectWhenDue, Config.detMinFrames, h]

end Sys2Proof.Machine
end

