-- ==== Sys2Proof/Laws/Ops.lean ====
section
/-! SUPPORT. What each shared operation can do, once: the step, an event, a command, the scan of the detector. -/

namespace Sys2Proof.Machine

/-! ### The step -/

/-- With nothing pending a step changes nothing. -/
theorem step_of_nil {s : State} (h : s.pending = []) : step s = .next s := by
  simp [step, h]

/-- A step performs the host's first pending event. -/
theorem step_of_cons {s : State} {e : HostEvent} {rest : List HostEvent} (h : s.pending = e :: rest) :
    step s = performEvent e { s with pending := rest } := by
  simp [step, h]

/-- What a step that answers a next state did. -/
theorem step_next_cases {s t : State} (h : step s = .next t) :
    (s.pending = [] ∧ t = s) ∨
      ∃ e rest, s.pending = e :: rest ∧ performEvent e { s with pending := rest } = .next t := by
  unfold step at h
  split at h
  · rename_i hp
    left
    exact ⟨hp, by simpa using h.symm⟩
  · rename_i e rest hp
    exact .inr ⟨e, rest, hp, h⟩

/-- What an event that answers a next state did. -/
theorem performEvent_next_cases {e : HostEvent} {s t : State} (h : performEvent e s = .next t) :
    (∃ width off, e = .read width off ∧ t = regRead width off s) ∨
      (∃ width off v, e = .write width off v ∧
        ((∃ i, decode v = .ok i ∧ exec i s = .next t) ∨ t = raise .errCmd s ∨ t = raise .errAcc s ∨
          ∃ k : Fin 64, t = { s with sample := writeSampleWord s.sample k.val v })) ∨
      (e = .reset ∧ t = hardwareReset s) := by
  cases e with
  | read width off => exact .inl ⟨width, off, rfl, by simpa [performEvent] using h.symm⟩
  | reset => exact .inr (.inr ⟨rfl, by simpa [performEvent] using h.symm⟩)
  | write width off v =>
    refine .inr (.inl ⟨width, off, v, rfl, ?_⟩)
    simp only [performEvent, regWrite] at h
    split at h
    · simp only [writeCommand] at h
      split at h
      · rename_i i hi
        exact .inl ⟨i, hi, h⟩
      · exact .inr (.inl (by simpa using h.symm))
    · rename_i k _
      exact .inr (.inr (.inr ⟨k, by simpa using h.symm⟩))
    · exact .inr (.inr (.inl (by simpa using h.symm)))

/-- What a register read leaves: only the value returned and ERR_ACC can change. -/
theorem regRead_cases (width : AccessWidth) (off : Offset) (s : State) :
    (∃ v, regRead width off s = { s with readData := v }) ∨
      regRead width off s = raise .errAcc { s with readData := 0#32 } := by
  unfold regRead
  split
  · split
    · exact .inl ⟨_, rfl⟩
    · exact .inr rfl
  · exact .inr rfl

/-! ### Commands -/

/-- What HOP answers (R83, R84). -/
theorem execHop_cases (s : State) :
    (stop s = true ∧ execHop s = .next s) ∨
      (stop s = false ∧ s.hops = 0xFFFFFFFF#32 ∧ execHop s = .next (raise .errOvf s)) ∨
      (stop s = false ∧ s.hops ≠ 0xFFFFFFFF#32 ∧ execHop s = .next (performHop Config.num Config.peakCap s)) := by
  by_cases h1 : stop s = true
  · exact .inl ⟨h1, by simp [execHop, h1]⟩
  · by_cases h2 : s.hops = 0xFFFFFFFF#32
    · exact .inr (.inl ⟨by simpa using h1, h2, by simp [execHop, h1, h2]⟩)
    · exact .inr (.inr ⟨by simpa using h1, h2, by simp [execHop, h1, h2]⟩)

/-- What PKRD answers (R86). -/
theorem execPkrd_cases (b : Fin 4) (index : Nat) (s : State) :
    ((bandList s.band b)[index]? = none ∧ execPkrd b index s = .next (raise .errRng s)) ∨
      ∃ p, (bandList s.band b)[index]? = some p ∧
        execPkrd b index s = .next { s with pkFrame := p.frame, pkData := p.bin ++ p.mag } := by
  unfold execPkrd
  cases h : (bandList s.band b)[index]? with
  | none => exact .inl ⟨rfl, rfl⟩
  | some p => exact .inr ⟨p, rfl, rfl⟩

/-- What a command that answers a next state did: the effect of its own rule. -/
theorem exec_next_cases {i : Instr} {s t : State} (h : exec i s = .next t) :
    (i = .nop ∧ t = s) ∨ (i = .init ∧ t = freshCall s) ∨
      (i = .hop ∧ (t = s ∨ t = raise .errOvf s ∨
        (stop s = false ∧ s.hops ≠ 0xFFFFFFFF#32 ∧ t = performHop Config.num Config.peakCap s))) ∨
      (i = .crcinit ∧ t = { s with crc := Config.crcInit }) ∨
      (∃ b, i = .crcb b ∧ t = { s with crc := crcByte s.crc b }) ∨
      (∃ b index, i = .pkrd b index ∧ (t = raise .errRng s ∨
        ∃ p ∈ bandList s.band b, t = { s with pkFrame := p.frame, pkData := p.bin ++ p.mag })) := by
  cases i with
  | nop => exact .inl ⟨rfl, by simpa [exec, execNop] using h.symm⟩
  | init => exact .inr (.inl ⟨rfl, by simpa [exec, execInit] using h.symm⟩)
  | hop =>
    refine .inr (.inr (.inl ⟨rfl, ?_⟩))
    simp only [exec] at h
    obtain ⟨_, he⟩ | ⟨_, _, he⟩ | ⟨h1, h2, he⟩ := execHop_cases s <;> rw [he] at h
    · exact .inl (by simpa using h.symm)
    · exact .inr (.inl (by simpa using h.symm))
    · exact .inr (.inr ⟨h1, h2, by simpa using h.symm⟩)
  | crcinit => exact .inr (.inr (.inr (.inl ⟨rfl, by simpa [exec, execCrcinit] using h.symm⟩)))
  | crcb b => exact .inr (.inr (.inr (.inr (.inl ⟨b, rfl, by simpa [exec, execCrcb] using h.symm⟩))))
  | pkrd b index =>
    refine .inr (.inr (.inr (.inr (.inr ⟨b, index, rfl, ?_⟩))))
    simp only [exec] at h
    obtain ⟨_, he⟩ | ⟨p, hp, he⟩ := execPkrd_cases b index s <;> rw [he] at h
    · exact .inl (by simpa using h.symm)
    · exact .inr ⟨p, List.mem_of_getElem? hp, by simpa using h.symm⟩

/-! ### Peak lists -/

@[simp] theorem bandList_appendPeak (bands : Bands) (b c : Fin 4) (p : FrequencyPeak) :
    bandList (appendPeak bands b p) c = if c = b then bandList bands b ++ [p] else bandList bands c := by
  unfold bandList appendPeak
  by_cases h : c = b
  · subst h; simp [bandList, Vector.get_eq_getElem]
  · have : b.val ≠ c.val := fun e => h (Fin.ext e.symm)
    simp [h, Vector.get_eq_getElem, this]

@[simp] theorem bandList_replicate (b : Fin 4) : bandList (Vector.replicate 4 []) b = [] := by
  simp [bandList, Vector.get_eq_getElem]

/-! ### The detector -/

/-- What recording a candidate can do (R137). -/
theorem record_cases {α : Type} (N : NumSys α) (cap : Nat) (hops : Word) (b : Fin 4) (pm cb : α) (r : Results) :
    record N cap hops b pm cb r = r.raise .errOvf ∨
      (fits16 N pm = true ∧ fits16 N cb = true ∧ (bandList r.band b).length < cap ∧
        record N cap hops b pm cb r =
          { r with
            band := appendPeak r.band b
              { frame := hops - 46#32, mag := BitVec.ofInt 16 (N.trunc pm), bin := BitVec.ofInt 16 (N.trunc cb) }
            npeaks := r.npeaks + 1#32 }) := by
  unfold record
  split
  · exact .inl rfl
  · rename_i h
    split
    · exact .inl rfl
    · rename_i h2
      have hf : fits16 N pm = true ∧ fits16 N cb = true := by simpa using h
      exact .inr ⟨hf.1, hf.2, by omega, rfl⟩

/-- What one position of the scan can do (R130): nothing, ERR_DIV, ERR_OVF, or one record. -/
theorem detectAt_cases {α : Type} [DecidableEq α] (N : NumSys α) (cap : Nat) (hops : Word) (F S : Frame α) (h : Hist α)
    (wr : BitVec 8) (r : Results) (pos : Nat) :
    detectAt N cap hops F S h wr r pos = r ∨ detectAt N cap hops F S h wr r pos = r.raise .errDiv ∨
      detectAt N cap hops F S h wr r pos = r.raise .errOvf ∨
      ∃ b p, p.frame = hops - 46#32 ∧ (bandList r.band b).length < cap ∧
        detectAt N cap hops F S h wr r pos =
          { r with band := appendPeak r.band b p, npeaks := r.npeaks + 1#32 } := by
  unfold detectAt
  split
  · unfold quantizeClassifyRecord
    simp only
    split
    · exact .inr (.inl rfl)
    · split
      · exact .inl rfl
      · obtain hr | ⟨_, _, hc, hr⟩ := record_cases N cap hops _ _ _ r
        · exact .inr (.inr (.inl hr))
        · exact .inr (.inr (.inr ⟨_, _, rfl, hc, hr⟩))
  · exact .inl rfl

/-- What holds before the scan and is kept by every position holds after it. -/
theorem scan_induction {α : Type} [DecidableEq α] (N : NumSys α) (cap : Nat) (hops : Word) (F S : Frame α) (h : Hist α)
    (wr : BitVec 8) (P : Results → Prop) (hstep : ∀ r pos, P r → P (detectAt N cap hops F S h wr r pos))
    (r : Results) (h0 : P r) : P (scan N cap hops F S h wr r) := by
  unfold scan
  induction scanPositions generalizing r with
  | nil => exact h0
  | cons x xs ih => exact ih _ (hstep r x h0)

/-- The scan clears neither ERR_DIV nor ERR_OVF. -/
theorem scan_keeps_faults {α : Type} [DecidableEq α] (N : NumSys α) (cap : Nat) (hops : Word) (F S : Frame α)
    (h : Hist α) (wr : BitVec 8) (r : Results) :
    (r.err.div = true → (scan N cap hops F S h wr r).err.div = true) ∧
      (r.err.ovf = true → (scan N cap hops F S h wr r).err.ovf = true) := by
  constructor <;> intro h0
  · refine scan_induction N cap hops F S h wr (fun r => r.err.div = true) (fun r pos hr => ?_) r h0
    obtain e | e | e | ⟨_, _, _, _, e⟩ := detectAt_cases N cap hops F S h wr r pos <;> rw [e] <;> first | exact hr | rfl
  · refine scan_induction N cap hops F S h wr (fun r => r.err.ovf = true) (fun r pos hr => ?_) r h0
    obtain e | e | e | ⟨_, _, _, _, e⟩ := detectAt_cases N cap hops F S h wr r pos <;> rw [e] <;> first | exact hr | rfl

end Sys2Proof.Machine
end

