-- ==== Sys2Proof/Laws/Hop.lean ====
section
/-! SUPPORT. What the parts of a hop do, element by element: the ring push, the frequency spread, the time spread, and the
detector on a frame below the least magnitude. -/

namespace Sys2Proof.Machine

/-! ### The ring push (R101) -/

/-- The sample `j` of the hop lands `j` past the pointer. -/
theorem cell_pushRing_new (ring : Ring) (wr : BitVec 11) (smp : Vector Half 128) {j : Nat} (hj : j < 128) :
    cell (pushRing ring wr smp) (wr.toNat + j) = cell smp j := by
  have hwr := wr.isLt
  have hm : ((wr.toNat + j) % 2048 + 2048 - wr.toNat) % 2048 = j := by omega
  simp only [pushRing, cell_tabulate, hm, Config.hopLen, hj, if_true]

/-- Every other element stays. -/
theorem cell_pushRing_old (ring : Ring) (wr : BitVec 11) (smp : Vector Half 128) {j : Nat} (h1 : 128 ≤ j)
    (h2 : j < 2048) : cell (pushRing ring wr smp) (wr.toNat + j) = cell ring (wr.toNat + j) := by
  have hwr := wr.isLt
  have hm : ((wr.toNat + j) % 2048 + 2048 - wr.toNat) % 2048 = j := by omega
  simp only [pushRing, cell_tabulate, hm, Config.hopLen, not_lt.mpr h1, if_false]
  exact cell_mod ring _

/-! ### The frequency spread (R121) -/

/-- The first `m` rounds: the positions below `m` hold the maximum of three original bins, the others are untouched. -/
theorem cell_freqSpreadUpTo {α : Type} {n : Nat} [NeZero n] (N : NumSys α) (v : Vector α n) (m : Nat) (hm : m + 2 ≤ n)
    {i : Nat} (hi : i < n) :
    cell (freqSpreadUpTo N m v) i =
      if i < m then N.max (N.max (cell v i) (cell v (i + 1))) (cell v (i + 2)) else cell v i := by
  induction m generalizing i with
  | zero => simp [freqSpreadUpTo]
  | succ m ih =>
    have hstep : freqSpreadUpTo N (m + 1) v = spreadAt N (freqSpreadUpTo N m v) m := by
      simp [freqSpreadUpTo, List.range_succ]
    have hmn : m % n = m := Nat.mod_eq_of_lt (by omega)
    rw [hstep, spreadAt, cell_putCell, Nat.mod_eq_of_lt hi, hmn, ih (by omega) (by omega), ih (by omega) (by omega),
      ih (by omega) (by omega), ih (by omega) hi]
    rcases lt_trichotomy i m with h | h | h
    · simp [h.ne, h, Nat.lt_succ_of_lt h]
    · subst h; simp
    · simp [h.ne', not_lt.mpr h.le, show ¬ i < m + 1 by omega]

/-- A spread bin below 1023 is the maximum of three bins of the frame. -/
theorem cell_freqSpread {α : Type} (N : NumSys α) (v : Frame α) {pos : Nat} (h : pos < 1023) :
    cell (freqSpread N v) pos = N.max (N.max (cell v pos) (cell v (pos + 1))) (cell v (pos + 2)) := by
  unfold freqSpread
  rw [cell_freqSpreadUpTo N v Config.fspreadEnd (by decide) (by omega), if_pos (by simpa [Config.fspreadEnd] using h)]

/-- The two top bins are copied. -/
theorem cell_freqSpread_top {α : Type} (N : NumSys α) (v : Frame α) {pos : Nat} (h : 1023 ≤ pos) (h' : pos < 1025) :
    cell (freqSpread N v) pos = cell v pos := by
  unfold freqSpread
  rw [cell_freqSpreadUpTo N v Config.fspreadEnd (by decide) h', if_neg (by simpa [Config.fspreadEnd] using h)]

/-! ### The time spread (R122) -/

theorem cell_maxFrame {α : Type} (N : NumSys α) (a b : Frame α) {pos : Nat} (h : pos < 1025) :
    cell (maxFrame N a b) pos = N.max (cell a pos) (cell b pos) := by
  simp [maxFrame, cell_tabulate_of_lt, h]

/-- The three frames the time spread writes, as a history. -/
theorem timeSpreadHist_eq {α : Type} (N : NumSys α) (h : Hist α) (wr : BitVec 8) (spread : Frame α) :
    timeSpreadHist N h wr spread =
      (let m1 := maxFrame N (frameAt h wr (-1)) spread
       let m3 := maxFrame N (frameAt h wr (-3)) m1
       let m6 := maxFrame N (frameAt h wr (-6)) m3
       putFrameAt (putFrameAt (putFrameAt h wr (-1) m1) wr (-3) m3) wr (-6) m6) := by
  have h31 : slot wr (-3) ≠ slot wr (-1) := by unfold slot; omega
  have h61 : slot wr (-6) ≠ slot wr (-1) := by unfold slot; omega
  have h63 : slot wr (-6) ≠ slot wr (-3) := by unfold slot; omega
  simp [timeSpreadHist, Config.tspreadOffs, timeSpreadOffset, frameAt_putFrameAt, h31, h61, h63]

/-! ### The detector on a frame below the least magnitude (R131) -/

/-- In a NUM that satisfies the laws no value up to `ofInt 0` or MAG_FLOOR reaches MIN_MAG. -/
theorem below_minMag {α : Type} {N : NumSys α} (h : N.Lawful) {x : α} (hx : x = N.ofInt 0 ∨ x = N.magFloor) :
    N.lt x N.minMag = true := by
  obtain ⟨val, L⟩ := h
  obtain ⟨hz, hz0⟩ := L.nl1 0 (by norm_num)
  obtain ⟨hf, hc⟩ := L.nl6_magFloor
  obtain ⟨hm, hm0⟩ := L.nl6_minMag
  rcases hx with rfl | rfl
  · rw [L.nl2_lt _ _ hz hm, hz0, hm0]; norm_num
  · rw [L.nl2_lt _ _ hf hm, hm0]
    have h1 := hc _ hz
    rw [hz0] at h1
    have h2 := (abs_le.mp h1).2
    norm_num [abs_of_pos] at h2
    linarith

/-- The first test rejects a bin below MIN_MAG. -/
theorem survives_of_below {α : Type} {N : NumSys α} {F S : Frame α} {h : Hist α} {wr : BitVec 8} {pos : Nat}
    (hb : N.lt (cell F pos) N.minMag = true) : survives N F S h wr pos = false := by
  simp [survives, test1, hb]

/-- A scan in which no position survives changes nothing. -/
theorem scan_of_below {α : Type} [DecidableEq α] {N : NumSys α} {cap : Nat} {hops : Word} {F S : Frame α} {h : Hist α}
    {wr : BitVec 8} (hb : ∀ pos, N.lt (cell F pos) N.minMag = true) (r : Results) : scan N cap hops F S h wr r = r := by
  apply scan_induction N cap hops F S h wr (fun x => x = r) _ r rfl
  intro r' pos hr
  simp [detectAt, survives_of_below (hb pos), hr]

/-! ### The parts together (R83, R85) -/

/-- The frame the spreader copies is the one this hop's analyzer has just stored (R120). -/
@[simp] theorem copyLatest_analyze (N : NumSys T) (s : State) :
    copyLatest (analyze N s) = hopMagnitude N (pushRing s.ring s.ringWr s.sample) (s.ringWr + 128#11) := by
  simp only [copyLatest, analyze_specHist, analyze_specWr, frameAt_putFrameAt, slot_advanced, slot_zero, if_true]

/-- From 47 frames on the detector runs. -/
theorem detectWhenDue_due (N : NumSys T) (cap : Nat) {s : State} (h : 47 ≤ s.hops.toNat) :
    detectWhenDue N cap s = detect N cap s := by
  simp only [detectWhenDue, Config.detMinFrames, h, if_true]

/-- Before that it does not. -/
theorem detectWhenDue_early (N : NumSys T) (cap : Nat) {s : State} (h : s.hops.toNat < 47) :
    detectWhenDue N cap s = s := by
  simp only [detectWhenDue, Config.detMinFrames, not_le.mpr h, if_false]

/-- A hop that is due, but whose frame no position of which reaches MIN_MAG, leaves the results as they were. -/
theorem detect_of_below {N : NumSys T} {cap : Nat} {s : State}
    (hb : ∀ pos, N.lt (cell (frameAt s.specHist s.specWr (-46)) pos) N.minMag = true) : detect N cap s = s := by
  simp only [detect, Config.fftOff, scan_of_below hb]
  rfl

/-- The machine's NUM satisfies the laws. -/
theorem num_lawful : Config.num.Lawful := Config.lawfulNum.pair.2.1

/-- The machine's NUM names `ofInt z` as log 2 says. -/
theorem num_ofInt (z : Int) : Config.num.ofInt z = T.ofInt z := congrFun Config.lawfulNum.pair.2.2 z

end Sys2Proof.Machine
end

