-- ==== Sys2Proof/Laws/Host.lean ====
section
/-! SUPPORT. The host's side: lists of events, the SAMPLE offsets, and final states of a call. -/

namespace Sys2Proof.Machine

/-- Events performed one list after the other. -/
theorem performAll_append {a b : List HostEvent} {s t : State} (h : performAll a s = .next t) :
    performAll (a ++ b) s = performAll b t := by
  induction a generalizing s with
  | nil =>
    simp only [performAll, Host.Outcome.next.injEq] at h
    rw [List.nil_append, h]
  | cons e a ih =>
    simp only [performAll, List.cons_append] at h ⊢
    split at h
    · exact ih h
    · cases h
    · cases h

/-- The register at the offset of SAMPLE word `i` (R22). -/
theorem regAt_sample (i : Nat) (hi : i < 64) : regAt (BitVec.ofNat 9 (0x100 + 4 * i)) = some (.sample ⟨i, hi⟩) := by
  have hoff : (BitVec.ofNat 9 (0x100 + 4 * i)).toNat = 0x100 + 4 * i := by
    rw [BitVec.toNat_ofNat]
    exact Nat.mod_eq_of_lt (by omega)
  unfold regAt
  simp only [hoff]
  rw [if_neg (by omega), dif_pos (by omega)]
  congr 3
  omega

/-- The offset of CMD (R22). -/
@[simp] theorem regAt_cmd : regAt 0#9 = some .cmd := by decide

/-- A state with FAULT 0 is not faulted (R23, R182). -/
theorem State.faulted_of_clean {s : State} (h : s.clean = true) : s.faulted = false := by
  simp only [State.clean, Err.fault, Bool.not_eq_true', Bool.or_eq_false_iff] at h
  simp [State.faulted, h.1.1.2, h.2]

/-- So it is a final state of a call. -/
theorem State.asFinal_of_clean {s : State} (h : s.clean = true) : s.asFinal = some s := by
  simp [State.asFinal, State.faulted_of_clean h]

end Sys2Proof.Machine
end

