-- ==== Sys2Proof/Laws/PerInstr.lean ====
section
/-! SUPPORT. Statements made per instruction: the word of an instruction is selected by its row of the opcode map. -/

namespace Sys2Proof.Laws.RowSelectsWord

/-- The encoder's word of a well-formed instruction is one that R62's `match` and `mask` of its row select. -/
def Statement (i : Instr) : Prop := i.wellFormed = true → i.row.selects (encode i) = true

theorem nop : Statement .nop := fun _ => by decide

theorem init : Statement .init := fun _ => by decide

theorem hop : Statement .hop := fun _ => by decide

theorem crcinit : Statement .crcinit := fun _ => by decide

theorem crcb (imm8 : Byte) : Statement (.crcb imm8) := by
  intro _
  revert imm8
  decide +kernel

theorem pkrd (band : Fin 4) (index : Nat) : Statement (.pkrd band index) := by
  intro h
  simp only [Instr.wellFormed, decide_eq_true_eq] at h
  simp only [OpcodeRow.selects, Instr.row, encode, beq_iff_eq]
  have key : ∀ b : Fin 4, (0x20000000#32 ||| (BitVec.ofNat 32 b.val <<< 22)) &&& 0xFF000000#32 = 0x20000000#32 := by
    decide
  have hi : BitVec.ofNat 32 index &&& 0xFF000000#32 = 0#32 := by
    apply BitVec.eq_of_getLsbD_eq
    intro j hj
    by_cases hlt : j < 24
    · have : (0xFF000000#32).getLsbD j = false := by
        have : ∀ j, j < 24 → (0xFF000000#32).getLsbD j = false := by decide
        exact this j hlt
      simp [this]
    · have hb : index.testBit j = false := Nat.testBit_lt_two_pow (lt_of_lt_of_le h (by
        calc 4194304 = 2 ^ 22 := by norm_num
          _ ≤ 2 ^ j := Nat.pow_le_pow_right (by norm_num) (by omega)))
      simp [BitVec.getLsbD_and, BitVec.getLsbD_ofNat, hb]
  rw [BitVec.and_or_distrib_right, key band, hi, BitVec.or_zero]

end Sys2Proof.Laws.RowSelectsWord
end

