-- ==== Sys2Proof/Tests/Slice0.lean ====
section
/-! SUPPORT. The model's own tests. Expected values are those of 95_test_vectors.md (V and P numbers), of a worked example
of the rule named, or a hand calculation from it. The last part shows, for every statement with hypotheses, a state and
operands that meet them. -/

namespace Sys2Proof.Tests

-- One theorem after another: the kernel evaluations below would otherwise wait for each other on many threads.
set_option Elab.async false

open Sys2Proof.Machine

/-! ### Helpers -/

/-- The reset state with SAMPLE written to zeros. -/
def quiet : State := { State.reset with sample := Vector.replicate 128 0#16 }

/-- A state with one more access at the head of what the host will do. -/
def facing (s : State) (e : HostEvent) : State := { s with pending := e :: s.pending }

/-- What `f` reads in the next state of an outcome. -/
def read {β : Type} (f : State → β) : Host.Outcome State Fault Refusal → Option β
  | .next t => some (f t)
  | .fault _ => none
  | .refused _ => none

/-- The state in which STOP is 1: V26. -/
def stopped : State := { quiet with hops := 1500#32, npeaks := 255#32 }

/-- Band 1 holds the record of V93. -/
def onePeak : State :=
  { quiet with band := appendPeak (Vector.replicate 4 []) 1 ⟨47#32, 31253#16, 8737#16⟩, npeaks := 1#32, hops := 93#32,
               ringWr := 1664#11, specWr := 93#8, spreadWr := 93#8 }

/-- 46 hops have been performed: the next one runs the detector first (V29). -/
def fortySix : State := { quiet with hops := 46#32, ringWr := 1792#11, specWr := 46#8, spreadWr := 46#8 }

/-- Natural logarithms to 14 digits, of the magnitudes V81 to V88 use. -/
def lnTable (q : Rat) : Rat :=
  if q = 1 / 64 then -415888308335967 / 100000000000000
  else if q = 1 / 32 then -346573590279973 / 100000000000000
  else if q = 2 then 69314718055995 / 100000000000000
  else if q = 4 then 138629436111989 / 100000000000000
  else if q = 99 then 459511985013459 / 100000000000000
  else if q = 100 then 460517018598809 / 100000000000000
  else 0

/-- Exact rational arithmetic with that logarithm; the window counts its index, the twiddles are those of 4 points. -/
def num : NumSys T :=
  rationalNum lnTable (fun i => (i : Rat)) (fun j => if j = 0 then (1, 0) else (0, -1))

/-- The least lawful NUM of Sys2Proof/Config.lean. -/
def plain : NumSys T := rationalNum (fun _ => 0) (fun _ => 1) (fun _ => (1, 0))

/-- A frame of one value but for the bins listed. -/
def frameOf (x : Rat) (bins : List (Nat × Rat)) : Frame T :=
  bins.foldl (fun F p => putCell F p.1 (.rat p.2)) (Vector.replicate 1025 (.rat x))

/-- A history of one frame but for the slots listed. -/
def histOf (F : Frame T) (slots : List (Nat × Frame T)) : Hist T :=
  slots.foldl (fun h p => putCell h p.1 p.2) (Vector.replicate 256 F)

/-- No results yet. -/
def noResults : Results := ⟨Vector.replicate 4 [], 0#32, Err.none⟩

/-! ### Well-formedness -/

/-- R60: `index` has 22 bits; position 2^22 is no command's. -/
theorem test_wellFormed_refuses_index : (Instr.pkrd 0 4194304).wellFormed = false := by decide

theorem test_wellFormed_accepts_last_index : (Instr.pkrd 3 4194303).wellFormed = true := by decide

/-! ### Decoding: words written out from R60 to R62, opcode in bits 31 to 24 -/

theorem test_decode_nop : decode 0b00000000_000000000000000000000000#32 = .ok .nop := by decide

theorem test_decode_init : decode 0b00000001_000000000000000000000000#32 = .ok .init := by decide

theorem test_decode_hop : decode 0b00000010_000000000000000000000000#32 = .ok .hop := by decide

theorem test_decode_crcinit : decode 0b00010000_000000000000000000000000#32 = .ok .crcinit := by decide

/-- V5, V6. -/
theorem test_decode_crcb :
    decode 0b00010001_0000000000000000_00110001#32 = .ok (.crcb 0x31#8) ∧
      decode 0b00010001_0000000000000000_11111111#32 = .ok (.crcb 0xFF#8) := by decide

/-- V7, V8, V9. -/
theorem test_decode_pkrd :
    decode 0b00100000_01_0000000000000000000000#32 = .ok (.pkrd 1 0) ∧
      decode 0b00100000_11_0000000000000000000100#32 = .ok (.pkrd 3 4) ∧
      decode 0b00100000_11_1111111111111111111111#32 = .ok (.pkrd 3 4194303) := by decide

/-- V10 to V17, each rejected by its name. -/
theorem test_decode_illegal :
    decode 0x02000001#32 = .error (.mustBeZero 0x02#8) ∧ decode 0x11000100#32 = .error (.mustBeZero 0x11#8) ∧
      decode 0x01800000#32 = .error (.mustBeZero 0x01#8) ∧ decode 0x03000000#32 = .error (.reservedOpcode 0x03#8) ∧
      decode 0x12000000#32 = .error (.reservedOpcode 0x12#8) ∧
      decode 0x21000000#32 = .error (.reservedOpcode 0x21#8) ∧
      decode 0xFFFFFFFF#32 = .error (.reservedOpcode 0xFF#8) ∧ decode 0x00000001#32 = .error (.mustBeZero 0x00#8) := by
  decide

/-- R41: the byte at the lowest offset is the low byte of the word; three bytes are no word. -/
theorem test_decodeBytes :
    decodeBytes [0x31#8, 0x00#8, 0x00#8, 0x11#8, 0xAA#8] = .ok (.crcb 0x31#8, [0xAA#8]) ∧
      decodeBytes [0x00#8, 0x00#8, 0x00#8] = .error .truncated := by decide

/-- The words of V5 and V8 from their instructions. -/
theorem test_encode : encode (.crcb 0x31#8) = 0x11000031#32 ∧ encode (.pkrd 3 4) = 0x20C00004#32 := by decide

theorem test_decodeTableWord :
    decodeTableWord 32 0x20C00004 = some (.pkrd 3 4) ∧ decodeTableWord 32 0x02000001 = none := by decide

/-- The command placed by `withFetchWord` is what the next step runs: CRCB 0x31 after reset, V65. -/
theorem test_withFetchWord : read (·.crc) (step (State.reset.withFetchWord 32 0x11000031)) = some 0x7C231048#32 := by
  decide +kernel

/-! ### Registers -/

/-- V18, V19: STATUS and CRC after reset. -/
theorem test_read_status_crc :
    (regRead .bits32 0x004#9 quiet).readData = 0#32 ∧ (regRead .bits32 0x020#9 quiet).readData = 0#32 := by
  decide +kernel

/-- V20: a SAMPLE word reads back and its halves are the two entries. -/
theorem test_sample_write :
    read (fun t => ((regRead .bits32 0x100#9 t).readData, cell t.sample 0, cell t.sample 1))
      (regWrite .bits32 0x100#9 0x80007FFF#32 quiet) = some (0x80007FFF#32, 0x7FFF#16, 0x8000#16) := by decide +kernel

/-- V21: the last SAMPLE word. -/
theorem test_sample_write_last :
    read (fun t => (sext16 (cell t.sample 126), sext16 (cell t.sample 127)))
      (regWrite .bits32 0x1FC#9 0x0001FFFF#32 quiet) = some (-1, 1) := by decide +kernel

/-- V22, V23a: CMD and a reserved offset read 0 and set ERR_ACC. -/
theorem test_illegal_read :
    (let t := regRead .bits32 0x000#9 quiet; (t.readData, statusWord t)) = (0#32, 0x80000200#32) ∧
      (let t := regRead .bits32 0x0FC#9 quiet; (t.readData, statusWord t)) = (0#32, 0x80000200#32) := by decide +kernel

/-- V23, V23b: a read-only register, a narrow access and a misaligned one; R181: a width other than 32, as a wider one. -/
theorem test_illegal_write :
    read (fun t => (t.hops, statusWord t)) (regWrite .bits32 0x008#9 5#32 quiet) = some (0#32, 0x80000200#32) ∧
      read (fun t => (cell t.sample 0, statusWord t)) (regWrite .bits16 0x100#9 7#32 quiet) =
        some (0#16, 0x80000200#32) ∧
      read (fun t => (cell t.sample 1, statusWord t)) (regWrite .bits32 0x102#9 7#32 quiet) =
        some (0#16, 0x80000200#32) ∧
      read (fun t => (cell t.sample 0, statusWord t)) (regWrite .other 0x100#9 7#32 quiet) =
        some (0#16, 0x80000200#32) := by decide +kernel

/-- V12: an illegal word near INIT raises ERR_CMD and does not initialise. -/
theorem test_illegal_command :
    read (fun t => (t.hops, statusWord t)) (step (stopped.withFetchWord 32 0x01800000)) =
      some (1500#32, 0x80000101#32) := by decide +kernel

/-- R23: bit places of STATUS, each fault bit alone (V27, V93 to V95, P6). -/
theorem test_status_bits :
    statusWord { stopped with err := ⟨true, false, false, false, false⟩ } = 0x80000101#32 ∧
      statusWord { quiet with err := ⟨true, true, false, true, false⟩ } = 0x80000B00#32 ∧
      statusWord { quiet with err := ⟨false, false, true, false, false⟩ } = 0x80000400#32 ∧
      statusWord { quiet with err := ⟨false, false, false, false, true⟩ } = 0x80001000#32 := by decide +kernel

/-! ### Commands -/

/-- NOP leaves the counters (R81). -/
theorem test_nop : read (fun t => (t.hops, t.npeaks)) (exec .nop stopped) = some (1500#32, 255#32) := by decide +kernel

/-- V28: INIT. -/
theorem test_init :
    read (fun t => ((statusWord t, t.hops, t.npeaks), (bandList t.band 1).length, (t.crc, t.pkData, cell t.sample 3)))
      (exec .init { onePeak with err := ⟨true, true, true, true, true⟩, crc := 5#32, pkData := 7#32,
                                 sample := Vector.replicate 128 9#16 }) =
      some ((0#32, 0#32, 0#32), 0, (0xFFFFFFFF#32, 0#32, 9#16)) := by decide +kernel

/-- V24, V25: one half of the stop predicate is not enough. -/
theorem test_hop_one_half :
    read (·.hops) (exec .hop { quiet with hops := 1500#32, npeaks := 254#32 }) = some 1501#32 ∧
      read (·.hops) (exec .hop { quiet with hops := 1499#32, npeaks := 300#32 }) = some 1500#32 := by decide +kernel

/-- V26, V30: refused under STOP with no flag; ERR_OVF at the counter's limit. -/
theorem test_hop_refused :
    read (fun t => (t.hops, t.ringWr, t.err)) (exec .hop stopped) = some (1500#32, 0#11, Err.none) ∧
      read (fun t => (t.hops, t.ringWr, t.err.ovf)) (exec .hop { quiet with hops := 0xFFFFFFFF#32 }) =
        some (0xFFFFFFFF#32, 0#11, true) := by decide +kernel

/-- R150. -/
theorem test_crcinit : read (·.crc) (exec .crcinit { quiet with crc := 3#32 }) = some 0xFFFFFFFF#32 := by decide +kernel

/-- V65, V68: the register after `31`, and after `31 32` its complement. -/
theorem test_crcb :
    read (·.crc) (exec (.crcb 0x31#8) quiet) = some 0x7C231048#32 ∧
      read (·.crc) (exec (.crcb 0x32#8) { quiet with crc := 0x7C231048#32 }) = some (~~~0x4F5344CD#32) := by
  decide +kernel

/-- V93. -/
theorem test_pkrd : read (fun t => (t.pkFrame, t.pkData, t.err)) (exec (.pkrd 1 0) onePeak) =
    some (0x0000002F#32, 0x22217A15#32, Err.none) := by decide +kernel

/-- V94. -/
theorem test_pkrd_out_of_range :
    read (fun t => (t.pkFrame, t.pkData, statusWord t)) (exec (.pkrd 1 1) { onePeak with pkFrame := 1#32, pkData := 2#32 }) =
      some (1#32, 2#32, 0x80000800#32) := by decide +kernel

/-! ### The analyzer -/

/-- R101, V43: the hop's samples land at the pointer and wrap. -/
theorem test_pushRing :
    let smp : Vector Half 128 := tabulate 128 fun j => BitVec.ofNat 16 (j + 1)
    let r := pushRing (Vector.replicate 2048 7#16) 1984#11 smp
    (cell r 1984, cell r 2047, cell r 0, cell r 63, cell r 64) = (1#16, 64#16, 65#16, 128#16, 7#16) := by
  decide +kernel

/-- R103: index 1 of the frame is the second-oldest sample times `w[1]`; here `w[i] = i`. -/
theorem test_windowFrame :
    let ring : Ring := putCell (putCell (Vector.replicate 2048 0#16) 129 0xFFFE#16) 127 5#16
    cell (windowFrame num ring 128#11) 1 = .rat (-2) ∧ cell (windowFrame num ring 128#11) 2047 = .rat 10235 := by
  decide +kernel

/-- V33. -/
theorem test_rev11 : [0, 1, 2, 3, 4, 5, 6, 7, 1024, 1365, 2046, 2047].map rev11 =
    [0, 1024, 512, 1536, 256, 1280, 768, 1792, 1, 1365, 1023, 2047] := by decide

/-- R105, R106 on 4 points, by hand: the DFT of (1, 2, 3, 4) is (10, -2+2i, -2, -2-2i). -/
theorem test_four_points :
    let A : Vector (T × T) 4 := butterflies num 2 (bitReverse num 2 #v[.rat 1, .rat 2, .rat 3, .rat 4])
    A = #v[(.rat 10, .rat 0), (.rat (-2), .rat 2), (.rat (-2), .rat 0), (.rat (-2), .rat (-2))] := by decide +kernel

/-- V35: magnitudes, and the floor. -/
theorem test_binMagnitude :
    binMagnitude num (.rat 512, .rat 0) = .rat 2 ∧ binMagnitude num (.rat 0, .rat (-1024)) = .rat 8 ∧
      binMagnitude num (.rat 3, .rat 4) = .rat (25 / 131072) ∧
      binMagnitude num (.rat (3 / 1000), .rat 0) = .rat (1 / 10000000000) := by decide +kernel

/-! ### The spreader -/

/-- V50: ascending and in place. -/
theorem test_freqSpread :
    freqSpreadUpTo num 3 (#v[.rat 1, .rat 1, .rat 1, .rat 1, .rat 9] : Vector T 5) =
        #v[.rat 1, .rat 1, .rat 9, .rat 1, .rat 9] ∧
      freqSpreadUpTo num 6 (#v[.rat 5, .rat 1, .rat 9, .rat 2, .rat 2, .rat 7, .rat 1, .rat 3] : Vector T 8) =
        #v[.rat 9, .rat 9, .rat 9, .rat 7, .rat 7, .rat 7, .rat 1, .rat 3] := by decide +kernel

/-- V51: the two top bins are not written. -/
theorem test_freqSpread_top :
    let v := freqSpread num (frameOf 0 [(1020, 1), (1021, 2), (1022, 3), (1023, 4), (1024, 5)])
    (cell v 1022, cell v 1023, cell v 1024) = (.rat 5, .rat 4, .rat 5) := by
  simp only [cell_freqSpread _ _ (show 1022 < 1023 by decide), cell_freqSpread_top _ _ (le_refl 1023) (by decide),
    cell_freqSpread_top _ _ (show 1023 ≤ 1024 by decide) (by decide)]
  decide +kernel

/-- V52: the running maximum is carried from -1 to -3 to -6. -/
theorem test_timeSpread :
    let h := histOf (frameOf 0 []) [(9, frameOf 4 []), (7, frameOf 6 []), (4, frameOf 5 [])]
    let a := timeSpreadHist num h 10#8 (frameOf 5 [])
    let b := timeSpreadHist num h 10#8 (frameOf 1 [])
    (cell (cell a 9) 33, cell (cell a 7) 33, cell (cell a 4) 33) = (.rat 5, .rat 6, .rat 6) ∧
      (cell (cell b 9) 33, cell (cell b 7) 33, cell (cell b 4) 33) = (.rat 4, .rat 6, .rat 6) := by decide +kernel

/-! ### The detector -/

/-- V53, V54: the slots of relative offsets. -/
theorem test_slots :
    [-1, -3, -6].map (slot 0#8) = [255, 253, 250] ∧ [-46, -49].map (slot 47#8) = [1, 254] ∧
      Config.otherOffs.map (slot 47#8) = [250, 2, 212, 219, 226, 233, 240, 247, 5, 12, 19, 26, 33, 40] := by decide

/-- V55, V57, V58, V59 rejected, V59a survives; position 100, the neighbour at +8, the other frame at +249. -/
theorem test_survives :
    let verdict := fun (f s nei oth : Rat) =>
      survives num (frameOf 0 [(100, f)]) (frameOf 0 [(100, s), (108, nei)])
        (histOf (frameOf 0 []) [(slot 60#8 249, frameOf 0 [(99, oth)])]) 60#8 100
    verdict (15 / 1000) (15 / 1000) (1 / 1000) (1 / 1000) = false ∧ verdict 5 6 1 1 = false ∧
      verdict 5 5 5 1 = false ∧ verdict 5 5 (4999 / 1000) 5 = false ∧
      verdict 5 5 (4999 / 1000) (4999 / 1000) = true := by decide +kernel

/-- V81 with V91: band 1 gains (14, 8191, 6410). -/
theorem test_quantize_V81 :
    let r := quantizeClassifyRecord num 9 60#32 (frameOf 0 [(99, 1), (100, 4), (101, 2)]) 100 noResults
    (bandList r.band 1, r.npeaks, r.err) = ([⟨14#32, 8191#16, 6410#16⟩], 1#32, Err.none) := by decide +kernel

/-- V83: ERR_DIV, nothing recorded. -/
theorem test_quantize_V83 :
    let r := quantizeClassifyRecord num 9 60#32
      (frameOf 0 [(49, 1 / 1000), (50, 1 / 64), (51, 2 / 1000)]) 50 noResults
    (r.npeaks, r.err) = (0#32, ⟨false, false, true, false, false⟩) := by decide +kernel

/-- V84 discarded, V85 in band 3: the sign of `variation2` decides at position 704. -/
theorem test_quantize_ends :
    let up := quantizeClassifyRecord num 9 60#32 (frameOf 0 [(703, 1), (704, 100), (705, 99)]) 704 noResults
    let down := quantizeClassifyRecord num 9 60#32 (frameOf 0 [(703, 99), (704, 100), (705, 1)]) 704 noResults
    (up.npeaks, up.err) = (0#32, Err.none) ∧ bandList down.band 3 = [⟨14#32, 12947#16, 45024#16⟩] := by decide +kernel

/-- V90: the edges. -/
theorem test_classify :
    let band := fun cb : Rat => classify num (num.mul (.rat cb) num.hzPerCb)
    [2047, 2048, 425983 / 100, 425984 / 100, 118784 / 10, 28671, 28672, 45056, 4505601 / 100].map band =
      [none, some 0, some 0, some 1, some 2, some 2, some 3, some 3, none] := by decide +kernel

/-- V92: the capacity drops the third record of a band and not the first of another. -/
theorem test_capacity :
    let p : FrequencyPeak := ⟨1#32, 1#16, 1#16⟩
    let full : Results := { noResults with band := appendPeak (appendPeak (Vector.replicate 4 []) 1 p) 1 p, npeaks := 2#32 }
    let r1 := record num 2 60#32 1 (.rat 5) (.rat 6) full
    let r2 := record num 2 60#32 2 (.rat 5) (.rat 6) r1
    (r1.npeaks, r1.err.ovf, (bandList r1.band 1).length) = (2#32, true, 2) ∧
      (r2.npeaks, bandList r2.band 2) = (3#32, [⟨14#32, 5#16, 6#16⟩]) := by decide +kernel

/-- U5: a value of 65536 and one that is not finite overflow their fields. -/
theorem test_width :
    (record num 2 60#32 1 (.rat 65536) (.rat 6) noResults).err.ovf = true ∧
      (record num 2 60#32 1 (.rat 65535) (.code 1) noResults).err.ovf = true ∧
      (record num 2 60#32 1 (.rat (131071 / 2)) (.rat 0) noResults).err.ovf = false := by decide +kernel

/-! ### CRC32 and the signature -/

/-- V60 to V64, V69. -/
theorem test_crc32 :
    crc32 [] = 0#32 ∧ crc32 [0x61#8] = 0xE8B7BE43#32 ∧
      crc32 [0x31#8, 0x32#8, 0x33#8, 0x34#8, 0x35#8, 0x36#8, 0x37#8, 0x38#8, 0x39#8] = 0xCBF43926#32 ∧
      crc32 [0#8, 0#8, 0#8, 0#8] = 0x2144DF1C#32 ∧ crc32 [0xFF#8, 0xFF#8, 0xFF#8, 0xFF#8] = 0xFFFFFFFF#32 ∧
      crc32 [0x61#8, 0x62#8, 0x63#8] = 0x352441C2#32 := by decide +kernel

/-- V70: gaps of 254 and 255. -/
theorem test_payload :
    bandPayload [⟨254#32, 1#16, 2#16⟩] = [0xFE#8, 1#8, 0#8, 2#8, 0#8] ∧
      bandPayload [⟨255#32, 1#16, 2#16⟩] = [0xFF#8, 0xFF#8, 0#8, 0#8, 0#8, 0#8, 1#8, 0#8, 2#8, 0#8] ∧
      bandPayload [⟨300#32, 0x1234#16, 0x5678#16⟩] =
        [0xFF#8, 0x2C#8, 1#8, 0#8, 0#8, 0#8, 0x34#8, 0x12#8, 0x78#8, 0x56#8] := by decide +kernel

/-- V71: the chunk of band 1, padded to 16 bytes. -/
theorem test_chunk :
    bandChunk 1 [⟨47#32, 31253#16, 8737#16⟩] =
      [0x41#8, 0x00#8, 0x03#8, 0x60#8, 5#8, 0#8, 0#8, 0#8, 0x2F#8, 0x15#8, 0x7A#8, 0x21#8, 0x22#8, 0#8, 0#8, 0#8] := by
  decide +kernel

/-- V72: the checksum and the last bytes of the empty signature, under the layout known from elsewhere (R169). -/
theorem test_empty_signature :
    signatureCrc knownHeader 0 (Vector.replicate 4 []) = 0xB93F38AA#32 ∧
      (let sig := signatureBuffer knownHeader 0xB93F38AA#32 0 (Vector.replicate 4 [])
       sig.take 8 = [0x80#8, 0x25#8, 0xFE#8, 0xCA#8, 0xAA#8, 0x38#8, 0x3F#8, 0xB9#8] ∧
        sig.drop 40 =
          [0x00#8, 0x0F#8, 0#8, 0#8, 0#8, 0#8, 0x7C#8, 0#8, 0#8, 0#8, 0#8, 0x40#8, 8#8, 0#8, 0#8, 0#8]) := by
  decide +kernel

/-- V73: the length and the checksum of the content of program P3's signature. -/
theorem test_signature_P3 :
    let b1 : Bands := appendPeak (Vector.replicate 4 []) 1 ⟨47#32, 31253#16, 8737#16⟩
    let b2 := appendPeak (appendPeak b1 2 ⟨47#32, 31666#16, 17476#16⟩) 2 ⟨47#32, 31366#16, 26213#16⟩
    let b3 := appendPeak (appendPeak b2 3 ⟨47#32, 31641#16, 34953#16⟩) 3 ⟨47#32, 31461#16, 43689#16⟩
    (content b3).length = 56 ∧ crc32 (content b3) = 0x869DE78B#32 := by decide +kernel

/-- V72: the base64 text begins `gCX+yqo4P7kI` (R166). -/
theorem test_base64 : base64 [0x80#8, 0x25#8, 0xFE#8, 0xCA#8, 0xAA#8, 0x38#8] =
    ['g', 'C', 'X', '+', 'y', 'q', 'o', '4'] := by decide

/-- V72: its end `CAA=` stands for two bytes (R166). -/
theorem test_base64_padding : base64 [0x08#8, 0#8] = ['C', 'A', 'A', '='] := by decide

/-! ### Witnesses: the hypotheses of each statement met by a concrete state and operands -/

theorem test_witness_DecodeOfEncode : (Instr.pkrd 3 4194303).wellFormed = true := by decide

theorem test_witness_EncodeOfDecode : decode 0x20FFFFFF#32 = .ok (.pkrd 3 4194303) := by decide

/-- Each way a word is illegal, at the edges of the reserved opcodes and of the must-be-zero fields. -/
theorem test_witness_IllegalWord :
    (0x03000000#32).toNat / 16777216 ∉ [0x00, 0x01, 0x02, 0x10, 0x11, 0x20] ∧
      (0xFFFFFFFF#32).toNat / 16777216 ∉ [0x00, 0x01, 0x02, 0x10, 0x11, 0x20] ∧
      ((0x01800000#32).toNat / 16777216 ∈ [0x00, 0x01, 0x02, 0x10] ∧ (0x01800000#32).toNat % 16777216 ≠ 0) ∧
      ((0x00000001#32).toNat / 16777216 ∈ [0x00, 0x01, 0x02, 0x10] ∧ (0x00000001#32).toNat % 16777216 ≠ 0) ∧
      (0x11000100#32).toNat / 16777216 = 0x11 ∧ (0x11000100#32).toNat % 16777216 / 256 ≠ 0 := by
  decide

theorem test_witness_StepRuns : (facing quiet (.write .bits32 0#9 0x02000000#32)).pending =
    .write .bits32 0#9 0x02000000#32 :: [] ∧ decode 0x02000000#32 = .ok .hop := ⟨rfl, by decide⟩

theorem test_witness_IdleStep : quiet.pending = [] := rfl

/-- The premise, and the range of the SAMPLE clause at its two ends; the other clauses name one offset each. -/
theorem test_witness_LegalRead :
    (facing quiet (.read .bits32 0x004#9)).pending = .read .bits32 0x004#9 :: [] ∧
      (0x01C#9).toNat = 0x010 + 4 * (3 : Fin 4).val ∧ (0x100#9).toNat = 0x100 + 4 * 0 ∧
      (0x1FC#9).toNat = 0x100 + 4 * 63 := by
  refine ⟨rfl, ?_⟩
  decide

/-- Reads and writes that are illegal, at the edges of the legal offsets. -/
theorem test_witness_IllegalAccess :
    (facing quiet (.read .bits32 0x02C#9)).pending = .read .bits32 0x02C#9 :: [] ∧
      (facing quiet (.write .bits16 0x100#9 7#32)).pending = .write .bits16 0x100#9 7#32 :: [] ∧
      (∀ off ∈ [0x000#9, 0x02C#9, 0x0FC#9, 0x1FD#9], ¬ ((AccessWidth.bits32 = .bits32) ∧ off.toNat % 4 = 0 ∧
        ((4 ≤ off.toNat ∧ off.toNat ≤ 0x028) ∨ 0x100 ≤ off.toNat))) ∧
      (∀ off ∈ [0x004#9, 0x028#9, 0x0FC#9, 0x102#9], ¬ ((AccessWidth.bits32 = .bits32) ∧ off.toNat % 4 = 0 ∧
        (off.toNat = 0 ∨ 0x100 ≤ off.toNat))) := by
  refine ⟨rfl, rfl, ?_⟩
  decide

theorem test_witness_LegalWrite :
    (0x100#9).toNat = 0x100 + 4 * 0 ∧ (0x1FC#9).toNat = 0x100 + 4 * 63 ∧
      decode 0x10000000#32 = .ok .crcinit ∧ decode 0x03000000#32 = .error (.reservedOpcode 0x03#8) := by
  decide

theorem test_witness_SampleWordReadsBack :
    (facing (facing quiet (.read .bits32 (BitVec.ofNat 9 (0x100 + 4 * 63))))
      (.write .bits32 (BitVec.ofNat 9 (0x100 + 4 * 63)) 7#32)).pending =
      .write .bits32 (BitVec.ofNat 9 (0x100 + 4 * 63)) 7#32 :: .read .bits32 (BitVec.ofNat 9 (0x100 + 4 * 63)) :: [] :=
  rfl

theorem test_witness_SampleBytes : (0 : Nat) < 128 ∧ (127 : Nat) < 128 := by decide

theorem test_witness_StatusBits : ((1 : Nat) ≤ 7 ∧ (7 : Nat) ≤ 7) ∧ ((13 : Nat) ≤ 30 ∧ (30 : Nat) ≤ 30) := by decide

/-- STOP holds, and a step that is neither INIT nor a reset follows, to a state that is not faulted. -/
theorem test_witness_StopRule : stop stopped = true ∧ step stopped = .next stopped ∧ stopped.faulted = false ∧
    stopped.pending.head? ≠ some .reset ∧ stopped.pending.head? ≠ some (.write .bits32 0#9 0x01000000#32) :=
  ⟨by decide +kernel, rfl, rfl, by decide, by decide⟩

theorem test_witness_HopAtCounterLimit : stop { quiet with hops := 0xFFFFFFFF#32 } = false ∧
    ({ quiet with hops := 0xFFFFFFFF#32 } : State).hops = 0xFFFFFFFF#32 := ⟨by decide +kernel, rfl⟩

/-- The premise of the statements on a performed HOP, at the two ends of the counter. -/
theorem test_witness_performedHop : stop quiet = false ∧ quiet.hops ≠ 0xFFFFFFFF#32 ∧
    stop { quiet with hops := 0xFFFFFFFE#32 } = false ∧
    ({ quiet with hops := 0xFFFFFFFE#32 } : State).hops ≠ 0xFFFFFFFF#32 := by decide +kernel

/-- A HOP that answers a next state, with fault bits set before, and one to a state that is not faulted. -/
theorem test_witness_HopLeavesTheRest : (exec .hop stopped = .next stopped ∧ stopped.faulted = false) ∧ let s := { stopped with err := ⟨true, true, true, true, true⟩ }
    exec .hop s = .next s ∧ s.err.div = true ∧ s.err.ovf = true ∧ 0x100 ≤ (0x100#9).toNat := by
  refine ⟨⟨?_, rfl⟩, ?_, rfl, rfl, by decide⟩ <;>
    simp [exec, execHop, stop, stopped, Config.stopHops, Config.stopSeconds, Config.fs, Config.hopLen, Config.stopPeaks]

/-- Both clauses of the gate: the 46th and the 47th hop. -/
theorem test_witness_DetectorGate :
    read (fun t => decide (t.hops.toNat < 47) && !t.faulted) (exec .hop { fortySix with hops := 45#32 }) = some true ∧
      read (fun t => decide (47 ≤ t.hops.toNat)) (exec .hop fortySix) = some true := by decide +kernel

/-- The 47th hop examines frame 1, here still of zeros: it runs the detector and sets no fault. -/
theorem test_witness_HopRecords : ∃ t, exec .hop fortySix = .next t ∧ 47 ≤ t.hops.toNat ∧ t.faulted = false := by
  have h1 : stop fortySix = false := by decide +kernel
  have h2 : fortySix.hops ≠ 0xFFFFFFFF#32 := by decide +kernel
  have hq : slot 47#8 (-46) = 1 := by decide
  have hd : detect Config.num Config.peakCap (spreadPeaks Config.num (analyze Config.num fortySix)) =
      spreadPeaks Config.num (analyze Config.num fortySix) := by
    apply detect_of_below
    intro pos
    apply below_minMag num_lawful
    left
    have e1 : fortySix.specWr = 46#8 := rfl
    have e2 : fortySix.specHist = zeroHist := rfl
    have e3 : (46#8 + 1#8 : BitVec 8) = 47#8 := rfl
    simp only [spreadPeaks_specHist, spreadPeaks_specWr, analyze_specHist, analyze_specWr, e1, e2, e3]
    rw [frameAt_putFrameAt, hq, slot_zero, if_neg (by decide), frameAt, hq, num_ofInt]
    simp [zeroHist, zeroFrame]
  have e4 : fortySix.hops = 46#32 := rfl
  refine ⟨performHop Config.num Config.peakCap fortySix, by simp [exec, execHop, h1, h2], by simp [performHop, e4], ?_⟩
  rw [performHop, detectWhenDue_due _ _ (by simp [e4]), hd]
  rfl

/-- Finite frames in a lawful NUM, at both ends of the scan. -/
theorem test_witness_Survivor : ∃ val, plain.Laws val ∧ (∀ k, k < 1025 → plain.finite (cell (frameOf 1 []) k) = true) ∧
    (∀ q k, q < 256 → k < 1025 → plain.finite (cell (cell (histOf (frameOf 1 []) []) q) k) = true) ∧
    10 ≤ 10 ∧ 10 < 1017 ∧ 10 ≤ 1016 ∧ 1016 < 1017 := by
  obtain ⟨val, L⟩ := rationalNum_lawful
  refine ⟨val, L, fun k _ => ?_, fun q k _ _ => ?_, by decide⟩ <;>
    simp only [frameOf, histOf, List.foldl_nil, cell_replicate] <;> rfl

/-- The two cases of the variations: a bin of exactly 1/64 and one above it. -/
theorem test_witness_Variations :
    ((1 : ℝ) / 64 ≤ 1 / 64 ∧ (0 : ℝ) < 1 / 64) ∧ ((1 : ℝ) / 64 ≤ 4 ∧ (1 : ℝ) < 4 ∧ (2 : ℝ) < 4) := by norm_num

/-- A frame of one peak at a position. -/
noncomputable def single (pos : Nat) (x : ℝ) : Frame ℝ := putCell (Vector.replicate 1025 0) pos x

theorem single_at {pos k : Nat} (x : ℝ) (hp : pos < 1025) (hk : k < 1025) :
    cell (single pos x) k = if k = pos then x else 0 := by
  simp [single, cell_putCell, Nat.mod_eq_of_lt hp, Nat.mod_eq_of_lt hk]

/-- The premises of the three outcomes: ERR_DIV, no band at position 10, band 1 at position 100 (the neighbours are equal,
so `cb = 64 * pos`). -/
theorem test_witness_Quantizer :
    (∀ pos ∈ [10, 100, 1016], ∀ x ∈ [(1 : ℝ) / 64, 4], 1 / 64 ≤ cell (single pos x) pos ∧
      cell (single pos x) (pos - 1) < cell (single pos x) pos ∧
      cell (single pos x) (pos + 1) < cell (single pos x) pos) ∧
      (4 : ℝ) ≠ 1 / 64 ∧
      (∀ a : ℝ, classify referenceNum ((64 * ((10 : Nat) : ℝ) + 32 * (a - a) / (a + a)) * (125 / 1024)) = none) ∧
      ∀ a : ℝ, classify referenceNum ((64 * ((100 : Nat) : ℝ) + 32 * (a - a) / (a + a)) * (125 / 1024)) = some 1 := by
  refine ⟨?_, by norm_num, fun a => ?_, fun a => ?_⟩
  · intro pos hp x hx
    have hp' : 10 ≤ pos ∧ pos ≤ 1016 := by simp at hp; omega
    have hx' : 1 / 64 ≤ x := by simp at hx; rcases hx with rfl | rfl <;> norm_num
    rw [single_at x (by omega) (by omega), single_at x (by omega) (by omega), single_at x (by omega) (by omega),
      if_pos rfl, if_neg (by omega), if_neg (by omega)]
    exact ⟨hx', by linarith, by linarith⟩
  · norm_num [classify, referenceNum]
  · norm_num [classify, referenceNum]

/-- Too wide, not finite, at the capacity, and recorded, at the edges of the width. -/
theorem test_witness_Record :
    (¬ num.trunc (.rat 65536) ≤ 65535 ∧ ¬ 0 ≤ num.trunc (.rat (-1)) ∧ num.finite (.code 1) = false) ∧
      num.finite (.rat 65535) = true ∧ num.trunc (.rat 65535) = 65535 ∧ num.trunc (.rat 0) = 0 ∧
      1 ≤ (bandList onePeak.results.band 1).length ∧ (bandList onePeak.results.band 0).length < 1 := by decide +kernel

theorem test_witness_ZeroVariation :
    let F := frameOf 0 [(50, 1 / 64)]
    variation1 num (logMag num (binAt F 50 (-1))) (logMag num (cell F 50)) (logMag num (binAt F 50 1)) = num.ofInt 0 := by
  decide +kernel

/-- Each band and no band, in a lawful NUM, at the edges. -/
theorem test_witness_Bands : plain.Lawful ∧ plain.finite (.rat 250) = true ∧
    [(249 : Rat), 250, 520, 1450, 3500, 5500, 5501].map (fun f => classify plain (.rat f)) =
      [none, some 0, some 1, some 2, some 3, some 3, none] :=
  ⟨rationalNum_lawful, rfl, by decide +kernel⟩

/-- Every band, and the two ends of the recordable positions. -/
theorem test_witness_RecordedBin :
    let band := fun (pos : Nat) (v2 : ℝ) =>
      classify referenceNum (referenceNum.mul (correctedBin referenceNum pos v2) referenceNum.hzPerCb)
    band 32 32 = some 0 ∧ band 100 0 = some 1 ∧ band 300 0 = some 2 ∧ band 704 (-32) = some 3 := by
  refine ⟨?_, ?_, ?_, ?_⟩ <;> norm_num [classify, correctedBin, referenceNum]

theorem test_witness_RecordedMagnitude : 1024 < 1025 ∧ (1 : ℝ) / 64 ≤ 8598325248 ∧ (1 : ℝ) / 64 ≤ 1 / 64 := by norm_num

theorem test_witness_BitReversal : (2047 : Nat) < 2048 ∧ (10 : Nat) < 11 := by decide

/-- The first stage's last group and the last stage's last butterfly. -/
theorem test_witness_Stage : (1023 : Nat) < 2048 / 2 ^ 1 ∧ (0 : Nat) < 2 ^ 1 / 2 ∧ (0 : Nat) < 2048 / 2 ^ 11 ∧
    (1023 : Nat) < 2 ^ 11 / 2 := by decide

theorem test_witness_FftComputes : (2047 : Nat) < 2048 := by decide

theorem test_witness_SilentRing : plain.Lawful ∧ ∀ i, i < 2048 → cell (Vector.replicate 2048 0#16 : Ring) i = 0#16 :=
  ⟨rationalNum_lawful, fun _ _ => cell_replicate _ _⟩

/-- The silent state, with both clauses' premises: a HOP that is performed. -/
theorem test_witness_Silence : quiet.Silent ∧ quiet.hops ≠ 0xFFFFFFFF#32 ∧ stop quiet = false :=
  ⟨⟨fun _ _ => cell_replicate _ _, fun _ _ => cell_replicate _ _,
    fun _ _ => .inl fun _ _ => by simp [quiet, State.reset, zeroHist, zeroFrame]⟩, by decide +kernel, by decide +kernel⟩

/-- A step from a silent state: a zero written to SAMPLE, to a state that is not faulted. -/
theorem test_witness_SilentStep : let s := facing quiet (.write .bits32 0x1FC#9 0#32)
    s.Silent ∧ read (fun t => t.faulted) (step s) = some false ∧ s.pending.head? ≠ some .reset ∧
      s.pending.head? ≠ some (.write .bits32 0#9 0x01000000#32) ∧
      ∀ off v, s.pending.head? = some (.write .bits32 off v) → v = 0#32 := by
  refine ⟨⟨test_witness_Silence.1.1, test_witness_Silence.1.2, test_witness_Silence.1.3⟩, by decide +kernel,
    by decide +kernel, by decide +kernel, ?_⟩
  intro off v h
  simp only [facing, List.head?_cons, Option.some.injEq, HostEvent.write.injEq] at h
  exact h.2.2.symm

theorem test_witness_FirstHop : ∀ j, j < 128 → cell quiet.sample j = 0#16 := fun _ _ => cell_replicate _ _

theorem test_witness_CrcUnit : exec .nop quiet = .next quiet ∧
    exec (.crcb 0x31#8) quiet = .next { quiet with crc := crcByte quiet.crc 0x31#8 } := ⟨rfl, rfl⟩

/-- Below the count and at it. -/
theorem test_witness_Pkrd : (bandList onePeak.band 1)[0]? = some ⟨47#32, 31253#16, 8737#16⟩ ∧
    (bandList onePeak.band 1).length ≤ 1 ∧ 4194303 < 4194304 := by decide +kernel

/-- The premises of both clauses, for a step that answers a next state. -/
theorem test_witness_Sticky :
    (let s := { quiet with err := ⟨true, true, true, true, true⟩ }
     step s = .next s ∧ s.pending.head? ≠ some .reset ∧
      s.pending.head? ≠ some (.write .bits32 0#9 0x01000000#32) ∧ s.err.cmd = true) ∧
      (facing quiet .reset).pending.head? = some .reset ∧
      (facing quiet (.write .bits32 0#9 0x01000000#32)).pending.head? = some (.write .bits32 0#9 0x01000000#32) :=
  ⟨⟨rfl, by decide, by decide, rfl⟩, rfl, rfl⟩

/-- Each fault bit but ERR_DIV and ERR_OVF set by a step from a state without it, and a step that performs no HOP. -/
theorem test_witness_FaultCauses :
    read (·.err) (step (facing quiet (.write .bits32 0#9 0x03000000#32))) = some ⟨true, false, false, false, false⟩ ∧
      read (·.err) (step (facing quiet (.read .bits32 0#9))) = some ⟨false, true, false, false, false⟩ ∧
      read (·.err) (step (facing quiet (.write .bits8 0x0FC#9 0#32))) = some ⟨false, true, false, false, false⟩ ∧
      read (·.err) (step (facing quiet (.write .bits32 0#9 0x20000000#32))) =
        some ⟨false, false, false, true, false⟩ ∧
      quiet.err = ⟨false, false, false, false, false⟩ ∧
      quiet.pending.head? ≠ some (.write .bits32 0#9 0x02000000#32) := by decide +kernel

theorem test_witness_FaultsDoNotGate : exec .init onePeak = .next (freshCall onePeak) := rfl

theorem test_witness_HardwareReset : (facing quiet .reset).pending = .reset :: [] := rfl

/-- A state in the middle of a call meets the invariant, and a step answers from it. -/
theorem test_witness_Invariant : onePeak.Inv ∧ onePeak.faulted = false ∧ step onePeak = .next onePeak := by
  have h : bandList onePeak.band 1 = [⟨47#32, 31253#16, 8737#16⟩] := by decide +kernel
  have h0 : ∀ b : Fin 4, b ≠ 1 → bandList onePeak.band b = [] := by decide +kernel
  have hc : 1 ≤ Config.peakCap := Config.peakCapOpen.pos
  refine ⟨⟨by unfold State.PointersFollowHops; decide +kernel, fun _ => ⟨by unfold State.CountsMatch; decide +kernel, ?_, ?_⟩⟩,
    by decide +kernel, rfl⟩
  · intro b
    by_cases hb : b = 1
    · subst hb; simpa [h] using hc
    · simp [h0 b hb]
  · intro b
    by_cases hb : b = 1
    · subst hb; rw [h]; exact ⟨by simp, by decide +kernel⟩
    · rw [h0 b hb]; simp

theorem test_witness_Records : step onePeak = .next onePeak ∧ onePeak.faulted = false ∧ onePeak.pending.head? ≠ some .reset ∧
    onePeak.pending.head? ≠ some (.write .bits32 0#9 0x01000000#32) := ⟨rfl, rfl, by decide, by decide⟩

theorem test_witness_NoCommandWritesSample : exec .init quiet = .next (freshCall quiet) ∧ 0x100 ≤ (0x1FF#9).toNat :=
  ⟨rfl, by decide⟩

theorem test_witness_CallLoop : stop stopped = true := by decide +kernel

/-- A call on fewer samples than a hop, and one hop of zeros: FAULT reads 0 and STOP is 0 at the end. -/
theorem test_witness_Call :
    read (fun t => (t.clean, stop t, t.hops)) (fingerprintCall (List.replicate 100 1#16) onePeak) =
        some (true, false, 0#32) ∧
      read (fun t => (t.clean, stop t, t.hops)) (fingerprintCall (List.replicate 128 0#16) onePeak) =
        some (true, false, 1#32) := by decide +kernel

/-- A faulted state is no final state of a call (R182). -/
theorem test_asFinal : (({ quiet with err := ⟨false, false, true, false, false⟩ } : State).asFinal.isSome,
    ({ quiet with err := ⟨true, true, false, true, false⟩ } : State).asFinal.isSome) = (false, true) := by decide +kernel

/-- Frames that repeat, and gaps of 254 and 255. -/
theorem test_witness_Payload :
    ([⟨10#32, 1#16, 2#16⟩, ⟨10#32, 3#16, 4#16⟩, ⟨264#32, 5#16, 6#16⟩, ⟨519#32, 7#16, 8#16⟩] : List FrequencyPeak).Pairwise
      (fun p q => p.frame.toNat ≤ q.frame.toNat) := by decide

theorem test_witness_Signature : knownHeader.valid = true := by decide

end Sys2Proof.Tests
end

section
/-! The reference instance of NUM (00_scope.md R9): what each operation, literal and table entry is on the reals, and
the laws NL1 to NL6 for it. -/

namespace Sys2Proof.Machine

/-! ### The operations, as those of the reals -/

@[simp] theorem referenceNum_ofInt (z : Int) : referenceNum.ofInt z = (z : ℝ) := rfl
@[simp] theorem referenceNum_add (x y : ℝ) : referenceNum.add x y = x + y := rfl
@[simp] theorem referenceNum_sub (x y : ℝ) : referenceNum.sub x y = x - y := rfl
@[simp] theorem referenceNum_mul (x y : ℝ) : referenceNum.mul x y = x * y := rfl
@[simp] theorem referenceNum_div (x y : ℝ) : referenceNum.div x y = x / y := rfl
@[simp] theorem referenceNum_max (x y : ℝ) : referenceNum.max x y = Max.max x y := rfl
@[simp] theorem referenceNum_lt (x y : ℝ) : referenceNum.lt x y = decide (x < y) := rfl
@[simp] theorem referenceNum_le (x y : ℝ) : referenceNum.le x y = decide (x ≤ y) := rfl
@[simp] theorem referenceNum_ln (x : ℝ) : referenceNum.ln x = Real.log x := rfl
@[simp] theorem referenceNum_trunc (x : ℝ) : referenceNum.trunc x = truncReal x := rfl
@[simp] theorem referenceNum_finite (x : ℝ) : referenceNum.finite x = true := rfl
@[simp] theorem referenceNum_w (i : Nat) : referenceNum.w i = referenceWindow i := rfl
@[simp] theorem referenceNum_tw (j : Nat) : referenceNum.tw j = referenceTwiddle j := rfl

/-! ### The literals -/

@[simp] theorem referenceNum_magFloor : referenceNum.magFloor = 1 / 10 ^ 10 := rfl
@[simp] theorem referenceNum_magDiv : referenceNum.magDiv = 2 ^ 17 := rfl
@[simp] theorem referenceNum_minMag : referenceNum.minMag = 1 / 64 := rfl
@[simp] theorem referenceNum_logScale : referenceNum.logScale = 14773 / 10 := rfl
@[simp] theorem referenceNum_logBias : referenceNum.logBias = 6144 := rfl
@[simp] theorem referenceNum_interp : referenceNum.interp = 32 := rfl
@[simp] theorem referenceNum_binScale : referenceNum.binScale = 64 := rfl
@[simp] theorem referenceNum_hzPerCb : referenceNum.hzPerCb = 125 / 1024 := rfl
@[simp] theorem referenceNum_edge250 : referenceNum.edge250 = 250 := rfl
@[simp] theorem referenceNum_edge520 : referenceNum.edge520 = 520 := rfl
@[simp] theorem referenceNum_edge1450 : referenceNum.edge1450 = 1450 := rfl
@[simp] theorem referenceNum_edge3500 : referenceNum.edge3500 = 3500 := rfl
@[simp] theorem referenceNum_edge5500 : referenceNum.edge5500 = 5500 := rfl

/-! ### The laws -/

/-- Every element of the reference instance denotes itself, and the laws are then facts of real arithmetic: NL1, NL2 and
NL5 hold by definition, NL4 is monotonicity of `log` and of the operations, and the literals are at distance 0 from the
targets of NL6. -/
theorem referenceNum_laws : referenceNum.Laws id where
  nl1 _ _ := ⟨rfl, rfl⟩
  nl2_max_cases := max_choice
  nl2_max _ _ _ _ := rfl
  nl2_lt _ _ _ _ := decide_eq_true_iff
  nl2_le _ _ _ _ := decide_eq_true_iff
  nl3_mul_left := by simp
  nl3_mul_right := by simp
  nl3_add := by simp
  nl3_sub := by simp
  nl3_div := by simp
  nl4_ln _ _ _ _ _ _ hpos hle := Real.log_le_log hpos hle
  nl4_mul_right _ _ _ _ _ _ _ _ hpos hle := mul_le_mul_of_nonneg_right hle hpos.le
  nl4_mul_left _ _ _ _ _ _ _ _ hpos hle := mul_le_mul_of_nonneg_left hle hpos.le
  nl4_add c _ _ _ _ _ _ _ hle := add_le_add_left hle c
  nl4_div _ _ _ _ _ _ _ _ hpos hle := div_le_div_of_nonneg_right hle hpos.le
  nl5 _ _ := rfl
  nl6_minMag := ⟨rfl, rfl⟩
  nl6_magDiv := ⟨rfl, rfl⟩
  nl6_interp := ⟨rfl, rfl⟩
  nl6_binScale := ⟨rfl, rfl⟩
  nl6_logBias := ⟨rfl, rfl⟩
  nl6_hzPerCb := ⟨rfl, rfl⟩
  nl6_edge250 := ⟨rfl, rfl⟩
  nl6_edge520 := ⟨rfl, rfl⟩
  nl6_edge1450 := ⟨rfl, rfl⟩
  nl6_edge3500 := ⟨rfl, rfl⟩
  nl6_edge5500 := ⟨rfl, rfl⟩
  nl6_magFloor := ⟨rfl, fun _ _ => by simp⟩
  nl6_logScale := ⟨rfl, fun _ _ => by simp⟩
  magFloor_pos := by norm_num
  w_finite _ _ := rfl
  tw_finite _ _ := ⟨rfl, rfl⟩

/-- Settles O33: on the reals every element denotes itself, and under that reading each law of R9 holds. -/
theorem referenceInstanceIsLawful : Obligations.ReferenceInstanceIsLawful :=
  ⟨id, referenceNum_laws⟩

end Sys2Proof.Machine
end

section
/-! What one step does to the running call: the fault bits it keeps, the command that makes the call fresh, and the three
kinds of step (a fresh call, a call left as it was, a performed hop). -/

namespace Sys2Proof.Machine

/-! ### Fault bits that stay set (10_state.md R18) -/

/-- Every fault bit set in `e` is set in `e'`. -/
structure Err.KeptIn (e e' : Err) : Prop where
  cmd : e.cmd = true → e'.cmd = true
  acc : e.acc = true → e'.acc = true
  div : e.div = true → e'.div = true
  rng : e.rng = true → e'.rng = true
  ovf : e.ovf = true → e'.ovf = true

theorem Err.KeptIn.refl (e : Err) : e.KeptIn e := ⟨id, id, id, id, id⟩

theorem Err.KeptIn.trans {e e' e'' : Err} (h : e.KeptIn e') (h' : e'.KeptIn e'') : e.KeptIn e'' :=
  ⟨h'.cmd ∘ h.cmd, h'.acc ∘ h.acc, h'.div ∘ h.div, h'.rng ∘ h.rng, h'.ovf ∘ h.ovf⟩

/-- Raising a fault clears none. -/
theorem Err.keptIn_raise (e : Err) (f : FaultCode) : e.KeptIn (e.raise f) := by
  cases f <;> constructor <;> simp +contextual [Err.raise]

/-- A state whose fault bits are all set in a state that is not faulted is not faulted (R182). -/
theorem State.faulted_eq_false_of_keptIn {s t : State} (h : s.err.KeptIn t.err) (ht : t.faulted = false) :
    s.faulted = false := by
  simp only [State.faulted, Bool.or_eq_false_iff] at ht ⊢
  exact ⟨Bool.eq_false_iff.mpr fun hs => by simp [h.div hs] at ht,
    Bool.eq_false_iff.mpr fun hs => by simp [h.ovf hs] at ht⟩

/-! ### The state of the call -/

/-- `t` has the pointers, counters and peak lists of `s`, and no fault bit of `s` is cleared in it. -/
structure State.SameCall (s t : State) : Prop where
  ringWr : t.ringWr = s.ringWr
  specWr : t.specWr = s.specWr
  spreadWr : t.spreadWr = s.spreadWr
  hops : t.hops = s.hops
  npeaks : t.npeaks = s.npeaks
  band : t.band = s.band
  err : s.err.KeptIn t.err

theorem State.SameCall.refl (s : State) : s.SameCall s := ⟨rfl, rfl, rfl, rfl, rfl, rfl, .refl _⟩

theorem State.SameCall.trans {s t u : State} (h : s.SameCall t) (h' : t.SameCall u) : s.SameCall u :=
  ⟨h'.ringWr.trans h.ringWr, h'.specWr.trans h.specWr, h'.spreadWr.trans h.spreadWr, h'.hops.trans h.hops,
    h'.npeaks.trans h.npeaks, h'.band.trans h.band, h.err.trans h'.err⟩

theorem State.sameCall_raise (s : State) (f : FaultCode) : s.SameCall (raise f s) :=
  ⟨rfl, rfl, rfl, rfl, rfl, rfl, s.err.keptIn_raise f⟩

/-- Taking an event off the pending ones leaves the call. -/
theorem State.sameCall_pending (s : State) (rest : List HostEvent) : s.SameCall { s with pending := rest } :=
  ⟨rfl, rfl, rfl, rfl, rfl, rfl, .refl _⟩

/-- A register read leaves the call (R42, R44). -/
theorem regRead_sameCall (width : AccessWidth) (off : Offset) (s : State) : s.SameCall (regRead width off s) := by
  obtain ⟨v, h⟩ | h := regRead_cases width off s <;> rw [h]
  · exact ⟨rfl, rfl, rfl, rfl, rfl, rfl, .refl _⟩
  · exact ⟨rfl, rfl, rfl, rfl, rfl, rfl, s.err.keptIn_raise .errAcc⟩

/-! ### Which word is INIT -/

/-- Only the word `0x01000000` decodes to INIT (30_encoding.md R62). -/
theorem decode_eq_init_iff {c : Word} : decode c = .ok .init ↔ c = 0x01000000#32 := by
  constructor
  · intro h
    have hrow : Instr.init.row.selects c = true := by
      by_contra hrow
      simp only [decode, if_neg hrow] at h
      split_ifs at h <;> cases h
    have hmask : c &&& 0xFFFFFFFF#32 = c := BitVec.and_allOnes
    simpa [OpcodeRow.selects, Instr.row, hmask] using hrow
  · rintro rfl
    decide

/-- CMD is the register at offset 0 alone (10_state.md R22). -/
theorem regAt_eq_cmd {off : Offset} (h : regAt off = some .cmd) : off = 0#9 := by
  unfold regAt at h
  split at h
  · cases h
  · split at h
    · cases h
    · split at h <;> cases h
      exact BitVec.eq_of_toNat_eq ‹off.toNat = 0›

/-- CMD is reached by the 32-bit access at offset 0 alone (R22, R44). -/
theorem accessed_eq_cmd {width : AccessWidth} {off : Offset} (h : accessed width off = some .cmd) :
    width = .bits32 ∧ off = 0#9 := by
  cases width with
  | bits32 => exact ⟨rfl, regAt_eq_cmd h⟩
  | bits8 | bits16 | other => cases h

/-! ### The three kinds of step -/

/-- A command makes the call fresh (INIT), leaves it as it was, or is a performed hop. -/
theorem exec_next_kinds {i : Instr} {s t : State} (h : exec i s = .next t) :
    (i = .init ∧ t = freshCall s) ∨ s.SameCall t ∨
      (s.hops ≠ 0xFFFFFFFF#32 ∧ t = performHop Config.num Config.peakCap s) := by
  obtain ⟨-, rfl⟩ | hinit | ⟨-, rfl | rfl | ⟨-, hmax, hhop⟩⟩ | ⟨-, rfl⟩ | ⟨b, -, rfl⟩ |
    ⟨b, index, -, rfl | ⟨p, -, rfl⟩⟩ := exec_next_cases h
  · exact .inr (.inl (.refl _))
  · exact .inl hinit
  · exact .inr (.inl (.refl _))
  · exact .inr (.inl (s.sameCall_raise .errOvf))
  · exact .inr (.inr ⟨hmax, hhop⟩)
  · exact .inr (.inl ⟨rfl, rfl, rfl, rfl, rfl, rfl, .refl _⟩)
  · exact .inr (.inl ⟨rfl, rfl, rfl, rfl, rfl, rfl, .refl _⟩)
  · exact .inr (.inl (s.sameCall_raise .errRng))
  · exact .inr (.inl ⟨rfl, rfl, rfl, rfl, rfl, rfl, .refl _⟩)

/-- A register write executes INIT only when it is that of INIT's word to CMD; otherwise it leaves the call as it was or is
a performed hop. -/
theorem regWrite_next_kinds {width : AccessWidth} {off : Offset} {v : Word} {s t : State}
    (h : regWrite width off v s = .next t) :
    ((width = .bits32 ∧ off = 0#9 ∧ v = 0x01000000#32) ∧ t = freshCall s) ∨ s.SameCall t ∨
      (s.hops ≠ 0xFFFFFFFF#32 ∧ t = performHop Config.num Config.peakCap s) := by
  unfold regWrite at h
  split at h
  · rename_i hcmd
    obtain ⟨hw, ho⟩ := accessed_eq_cmd hcmd
    unfold writeCommand at h
    split at h
    · rename_i i hi
      obtain ⟨rfl, ht⟩ | hkept := exec_next_kinds h
      · exact .inl ⟨⟨hw, ho, decode_eq_init_iff.mp hi⟩, ht⟩
      · exact .inr hkept
    · cases h
      exact .inr (.inl (s.sameCall_raise .errCmd))
  · cases h
    exact .inr (.inl ⟨rfl, rfl, rfl, rfl, rfl, rfl, .refl _⟩)
  · cases h
    exact .inr (.inl (s.sameCall_raise .errAcc))

/-- A step makes the call fresh, which takes an INIT or a hardware reset; leaves it as it was; or is a performed hop. -/
theorem step_next_kinds {s t : State} (h : step s = .next t) :
    ((s.pending.head? = some .reset ∨ s.pending.head? = some (.write .bits32 0#9 0x01000000#32)) ∧
        ∃ u, (freshCall u).SameCall t) ∨
      s.SameCall t ∨
      ∃ u, s.SameCall u ∧ u.hops ≠ 0xFFFFFFFF#32 ∧ t = performHop Config.num Config.peakCap u := by
  obtain ⟨-, rfl⟩ | ⟨e, rest, hp, he⟩ := step_next_cases h
  · exact .inr (.inl (.refl _))
  have htake := s.sameCall_pending rest
  cases e with
  | read width off =>
    cases he
    exact .inr (.inl (htake.trans (regRead_sameCall width off _)))
  | reset =>
    cases he
    exact .inl ⟨.inl (by simp [hp]), s, rfl, rfl, rfl, rfl, rfl, rfl, .refl _⟩
  | write width off v =>
    obtain ⟨⟨rfl, rfl, rfl⟩, rfl⟩ | hsame | ⟨hmax, ht⟩ := regWrite_next_kinds he
    · exact .inl ⟨.inr (by simp [hp]), _, .refl _⟩
    · exact .inr (.inl (htake.trans hsame))
    · exact .inr (.inr ⟨_, htake, hmax, ht⟩)

end Sys2Proof.Machine
end

section
/-! What a performed hop does to the peak lists, the peak counter and the fault bits. -/

namespace Sys2Proof.Machine

/-- A performed hop leaves everything but the detector's results as the spreader left it. -/
theorem performHop_eq_withResults (N : NumSys T) (cap : Nat) (s : State) :
    performHop N cap s = (spreadPeaks N (analyze N s)).withResults (performHop N cap s).results := by
  unfold performHop detectWhenDue
  split <;> rfl

/-- What holds of the results before a hop and is kept by every position of a due scan holds after it (R85, R130). -/
theorem performHop_results_induction (N : NumSys T) (cap : Nat) (s : State) (P : Results → Prop)
    (hstep : 47 ≤ (s.hops + 1#32).toNat → ∀ F S h wr r pos, P r → P (detectAt N cap (s.hops + 1#32) F S h wr r pos))
    (h0 : P s.results) : P (performHop N cap s).results := by
  by_cases hdue : 47 ≤ (s.hops + 1#32).toNat
  · rw [performHop, detectWhenDue_due N cap hdue, detect_results]
    exact scan_induction N cap _ _ _ _ _ P (hstep hdue _ _ _ _) _ h0
  · rw [performHop, detectWhenDue_early N cap (Nat.not_le.mp hdue)]
    exact h0

/-- A performed hop clears no fault bit (R18). -/
theorem performHop_err_keptIn (N : NumSys T) (cap : Nat) (s : State) : s.err.KeptIn (performHop N cap s).err := by
  refine performHop_results_induction N cap s (fun r => s.err.KeptIn r.err) (fun _ F S h wr r pos hr => ?_) (.refl _)
  obtain e | e | e | ⟨b, p, -, -, e⟩ := detectAt_cases N cap (s.hops + 1#32) F S h wr r pos <;> rw [e]
  · exact hr
  · exact hr.trans (r.err.keptIn_raise .errDiv)
  · exact hr.trans (r.err.keptIn_raise .errOvf)
  · exact hr

/-- After a record is appended every list begins with what it was. -/
theorem bandList_prefix_appendPeak (bands : Bands) (b c : Fin 4) (p : FrequencyPeak) :
    bandList bands c <+: bandList (appendPeak bands b p) c := by
  rw [bandList_appendPeak]
  split
  · subst c
    exact List.prefix_append _ _
  · exact List.prefix_rfl

/-- A performed hop only appends to the peak lists (R16). -/
theorem performHop_band_prefix (N : NumSys T) (cap : Nat) (s : State) (c : Fin 4) :
    bandList s.band c <+: bandList (performHop N cap s).band c := by
  refine performHop_results_induction N cap s (fun r => bandList s.band c <+: bandList r.band c)
    (fun _ F S h wr r pos hr => ?_) List.prefix_rfl
  obtain e | e | e | ⟨b, p, -, -, e⟩ := detectAt_cases N cap (s.hops + 1#32) F S h wr r pos <;> rw [e]
  · exact hr
  · exact hr
  · exact hr
  · exact hr.trans (bandList_prefix_appendPeak r.band b c p)

end Sys2Proof.Machine
end

section
/-! The invariant of pointers, counts, capacity and frame order over every step. -/

namespace Sys2Proof.Machine

/-! ### Its part on the peak lists -/

/-- What the invariant says of the peak lists of a state that is not faulted (R15, R16, R68). -/
def State.ListsOk (s : State) : Prop := s.CountsMatch ∧ s.WithinCapacity ∧ s.FramesOrdered

/-- The peak lists are judged by `hops`, `npeaks` and themselves. -/
theorem State.ListsOk.congr {s t : State} (h : s.ListsOk) (hhops : t.hops = s.hops) (hnpeaks : t.npeaks = s.npeaks)
    (hband : t.band = s.band) : t.ListsOk := by
  simpa only [State.ListsOk, State.CountsMatch, State.WithinCapacity, State.FramesOrdered, hhops, hnpeaks, hband] using h

/-- They stay in order when `hops` is counted up. -/
theorem State.ListsOk.mono_hops {s t : State} (h : s.ListsOk) (hhops : s.hops.toNat ≤ t.hops.toNat)
    (hnpeaks : t.npeaks = s.npeaks) (hband : t.band = s.band) : t.ListsOk := by
  obtain ⟨hcount, hcap, hord⟩ := h
  unfold State.ListsOk State.CountsMatch State.WithinCapacity State.FramesOrdered
  rw [hnpeaks, hband]
  refine ⟨hcount, hcap, fun b => ⟨(hord b).1, fun p hp => ?_⟩⟩
  obtain ⟨h1, h46⟩ := (hord b).2 p hp
  exact ⟨h1, by omega⟩

/-- With every list within the capacity, `npeaks` is far below its 32 bits (R7, R15). -/
theorem State.ListsOk.npeaks_le {s : State} (h : s.ListsOk) : s.npeaks.toNat ≤ 16777216 := by
  obtain ⟨hcount, hcap, -⟩ := h
  have hmax : Config.peakCap ≤ 4194304 := Config.peakCapOpen.le
  have h0 := hcap 0
  have h1 := hcap 1
  have h2 := hcap 2
  have h3 := hcap 3
  rw [hcount]
  omega

/-- They stay in order when a record labelled `hops - 46` is appended to a list below the capacity (R137): no frame so far
is later than its. -/
theorem State.ListsOk.append {s t : State} (h : s.ListsOk) {b : Fin 4} {p : FrequencyPeak} (hdue : 47 ≤ s.hops.toNat)
    (hframe : p.frame = s.hops - 46#32) (hroom : (bandList s.band b).length < Config.peakCap) (hhops : t.hops = s.hops)
    (hnpeaks : t.npeaks = s.npeaks + 1#32) (hband : t.band = appendPeak s.band b p) : t.ListsOk := by
  have hle := h.npeaks_le
  obtain ⟨hcount, hcap, hord⟩ := h
  have hnat : p.frame.toNat + 46 = s.hops.toNat := by rw [hframe]; bv_omega
  unfold State.ListsOk State.WithinCapacity State.FramesOrdered
  refine ⟨?_, fun c => ?_, fun c => ?_⟩
  · have hsucc : t.npeaks.toNat = s.npeaks.toNat + 1 := by rw [hnpeaks]; bv_omega
    unfold State.CountsMatch at hcount ⊢
    rw [hsucc, hcount, hband]
    fin_cases b <;> simp <;> omega
  · rw [hband, bandList_appendPeak]
    split
    · rw [List.length_append, List.length_singleton]
      exact hroom
    · exact hcap c
  · rw [hhops, hband, bandList_appendPeak]
    split
    · obtain ⟨hpair, hrange⟩ := hord b
      constructor
      · refine List.pairwise_append.mpr ⟨hpair, List.pairwise_singleton _ _, fun q hq p' hp' => ?_⟩
        obtain rfl := List.mem_singleton.mp hp'
        have := (hrange q hq).2
        omega
      · intro q hq
        obtain hold | hnew := List.mem_append.mp hq
        · exact hrange q hold
        · obtain rfl := List.mem_singleton.mp hnew
          omega
    · exact hord c

/-! ### Each kind of step keeps it -/

/-- A fresh call meets the invariant. -/
theorem freshCall_inv (s : State) : (freshCall s).Inv where
  pointers := ⟨rfl, rfl, rfl⟩
  results _ := by simp [State.CountsMatch, State.WithinCapacity, State.FramesOrdered]

/-- A step that leaves the call keeps it. -/
theorem State.Inv.of_sameCall {s t : State} (h : s.Inv) (hst : s.SameCall t) : t.Inv where
  pointers := by
    unfold State.PointersFollowHops
    rw [hst.specWr, hst.spreadWr, hst.ringWr, hst.hops]
    exact h.pointers
  results ht := State.ListsOk.congr (h.results (State.faulted_eq_false_of_keptIn hst.err ht)) hst.hops hst.npeaks hst.band

/-- A performed hop advances the pointers with `hops` (R21). -/
theorem performHop_pointersFollowHops (N : NumSys T) (cap : Nat) {s : State} (h : s.PointersFollowHops)
    (hmax : s.hops ≠ 0xFFFFFFFF#32) : (performHop N cap s).PointersFollowHops := by
  obtain ⟨hspec, hspread, hring⟩ := h
  have hspec' : (performHop N cap s).specWr = s.specWr + 1#8 := by simp [performHop]
  have hspread' : (performHop N cap s).spreadWr = s.spreadWr + 1#8 := by simp [performHop]
  have hring' : (performHop N cap s).ringWr = s.ringWr + 128#11 := by simp [performHop]
  have hhops' : (performHop N cap s).hops.toNat = s.hops.toNat + 1 := by
    simp only [performHop, detectWhenDue_hops, spreadPeaks_hops, analyze_hops]
    bv_omega
  unfold State.PointersFollowHops
  rw [hspec', hspread', hring', hhops']
  simp only [BitVec.toNat_add, BitVec.toNat_ofNat]
  omega

/-- A performed hop keeps the lists in order: it counts `hops` up, and each record it appends is labelled with the frame
examined (R137). -/
theorem performHop_listsOk (N : NumSys T) {s : State} (h : s.ListsOk) (hmax : s.hops ≠ 0xFFFFFFFF#32) :
    (performHop N Config.peakCap s).ListsOk := by
  rw [performHop_eq_withResults]
  refine performHop_results_induction N Config.peakCap s
    (fun r => ((spreadPeaks N (analyze N s)).withResults r).ListsOk) (fun hdue F S hist wr r pos hr => ?_) ?_
  · obtain e | e | e | ⟨b, p, hframe, hroom, e⟩ := detectAt_cases N Config.peakCap (s.hops + 1#32) F S hist wr r pos <;>
      rw [e]
    · exact hr
    · exact hr.congr rfl rfl rfl
    · exact hr.congr rfl rfl rfl
    · exact hr.append hdue hframe hroom rfl rfl rfl
  · refine h.mono_hops ?_ rfl rfl
    simp only [withResults_hops, spreadPeaks_hops, analyze_hops]
    bv_omega

/-- A performed hop keeps the invariant. -/
theorem performHop_inv (N : NumSys T) {s : State} (h : s.Inv) (hmax : s.hops ≠ 0xFFFFFFFF#32) :
    (performHop N Config.peakCap s).Inv where
  pointers := performHop_pointersFollowHops N Config.peakCap h.pointers hmax
  results ht := performHop_listsOk N (h.results (State.faulted_eq_false_of_keptIn (performHop_err_keptIn N _ s) ht)) hmax

/-- Settles O52: a step makes the call fresh, leaves it as it was or is a performed hop, and each keeps the invariant. -/
theorem everyStepKeepsTheInvariant : Obligations.EveryStepKeepsTheInvariant := by
  intro s t hs h
  obtain ⟨-, u, hfresh⟩ | hsame | ⟨u, hsame, hmax, rfl⟩ := step_next_kinds h
  · exact (freshCall_inv u).of_sameCall hfresh
  · exact hs.of_sameCall hsame
  · exact performHop_inv Config.num (hs.of_sameCall hsame) hmax

/-! ### Fault bits and records over a step -/

/-- The two accesses that make the call fresh leave no fault bit set (R82, R201). -/
theorem step_err_of_fresh {s t : State} (h : step s = .next t)
    (hhead : s.pending.head? = some .reset ∨ s.pending.head? = some (.write .bits32 0#9 0x01000000#32)) :
    t.err = Err.none := by
  obtain he | he := hhead <;> obtain ⟨rest, hp⟩ := List.head?_eq_some_iff.mp he <;> rw [step_of_cons hp] at h
  · cases h
    rfl
  · have hinit : performEvent (.write .bits32 0#9 0x01000000#32) { s with pending := rest } =
        exec .init { s with pending := rest } := by
      simp only [performEvent, regWrite, accessed, regAt_cmd, writeCommand, decode_eq_init_iff.mpr]
    rw [hinit] at h
    cases h
    rfl

/-- Settles O46: a step that leaves the call or performs a hop clears no fault bit, and a fresh call has none. -/
theorem faultBitsAreSticky : Obligations.FaultBitsAreSticky := by
  intro s t h
  refine ⟨fun hreset hinit => ?_, step_err_of_fresh h⟩
  have hkept : s.err.KeptIn t.err := by
    obtain ⟨hhead, -⟩ | hsame | ⟨u, hsame, -, rfl⟩ := step_next_kinds h
    · exact absurd hhead (not_or.mpr ⟨hreset, hinit⟩)
    · exact hsame.err
    · exact hsame.err.trans (performHop_err_keptIn _ _ u)
  exact ⟨hkept.cmd, hkept.acc, hkept.div, hkept.rng, hkept.ovf⟩

/-- Settles O53: a step that makes no fresh call leaves the lists or performs a hop, which only appends to them. -/
theorem recordsAreImmutable : Obligations.RecordsAreImmutable := by
  intro s t h _ hreset hinit b
  obtain ⟨hhead, -⟩ | hsame | ⟨u, hsame, -, rfl⟩ := step_next_kinds h
  · exact absurd hhead (not_or.mpr ⟨hreset, hinit⟩)
  · rw [hsame.band]
  · rw [← hsame.band]
    exact performHop_band_prefix _ _ u b

end Sys2Proof.Machine
end

section
/-! The register space: what reads return, the SAMPLE words and their bytes, and the bits of STATUS. -/

namespace Sys2Proof.Machine

/-! ### SAMPLE words -/

/-- A SAMPLE word has its even entry in the low half and its odd entry in the high half (10_state.md R19). -/
theorem toNat_sampleWord (smp : Vector Half 128) (i : Nat) :
    (sampleWord smp i).toNat = (cell smp (2 * i)).toNat + 65536 * (cell smp (2 * i + 1)).toNat := by
  have hlt := (cell smp (2 * i)).isLt
  rw [sampleWord, BitVec.toNat_append, ← Nat.shiftLeft_add_eq_or_of_lt hlt, Nat.shiftLeft_eq]
  omega

/-- The word written is the word read (20_memory.md R43). -/
theorem sampleWord_writeSampleWord (smp : Vector Half 128) (i : Nat) (v : Word) :
    sampleWord (writeSampleWord smp i v) i = v := by
  have hne : 2 * i % 128 ≠ (2 * i + 1) % 128 := by omega
  rw [sampleWord, writeSampleWord, cell_putCell_same, cell_putCell_ne _ _ hne, cell_putCell_same, sampleWord_halves]

/-! ### Accesses -/

/-- The value of a register does not depend on what the host has pending. -/
theorem regValue_pending (s : State) (rest : List HostEvent) (r : Reg) :
    regValue { s with pending := rest } r = regValue s r := by
  cases r <;> rfl

/-- The step of a read of a readable register (R42). -/
theorem step_read {s : State} {off : Offset} {rest : List HostEvent} {r : Reg}
    (hp : s.pending = .read .bits32 off :: rest) (hr : regAt off = some r) (hread : r.readable = true) :
    step s = .next { s with pending := rest, readData := regValue s r } := by
  have ha : accessed .bits32 off = some r := hr
  rw [step_of_cons hp]
  simp only [performEvent, regRead, ha, hread, if_true, regValue_pending]

/-- The step of a write to a SAMPLE word (R43). -/
theorem step_writeSample {s : State} {off : Offset} {v : Word} {rest : List HostEvent} {i : Fin 64}
    (hp : s.pending = .write .bits32 off v :: rest) (hr : regAt off = some (.sample i)) :
    step s = .next { s with pending := rest, sample := writeSampleWord s.sample i v } := by
  have ha : accessed .bits32 off = some (.sample i) := hr
  rw [step_of_cons hp]
  simp only [performEvent, regWrite, ha]

/-- The register at the offset of the count of band `b` (10_state.md R22). -/
theorem regAt_bandcnt {off : Offset} {b : Fin 4} (h : off.toNat = 0x010 + 4 * b.val) :
    regAt off = some (.bandcnt b) := by
  obtain rfl : off = BitVec.ofNat 9 (0x010 + 4 * b.val) := by rw [← h, BitVec.ofNat_toNat, BitVec.setWidth_eq]
  clear h
  revert b
  decide

/-- The register at the offset of SAMPLE word `i`, for an offset given as a number (R22). -/
theorem regAt_of_sample {off : Offset} {i : Nat} (hi : i < 64) (h : off.toNat = 0x100 + 4 * i) :
    regAt off = some (.sample ⟨i, hi⟩) := by
  rw [← regAt_sample i hi, ← h, BitVec.ofNat_toNat, BitVec.setWidth_eq]

/-- Settles O9: each offset of the map reaches its register, which is readable. -/
theorem legalReadReturnsTheRegister : Obligations.LegalReadReturnsTheRegister := by
  intro s off rest hp
  refine ⟨?_, ?_, ?_, fun b hb => ?_, ?_, ?_, ?_, fun i hi hoff => ?_⟩
  case refine_4 => exact step_read hp (regAt_bandcnt hb) rfl
  case refine_8 => exact ⟨_, step_read hp (regAt_of_sample hi hoff) rfl, toNat_sampleWord s.sample i⟩
  all_goals
    rintro rfl
    exact step_read hp rfl rfl

/-- Settles O12: the write puts the word into SAMPLE, and the read returns the word it finds there. -/
theorem sampleWordReadsBack : Obligations.SampleWordReadsBack := by
  intro s i v rest hi hp
  have hreg := regAt_sample i hi
  exact ⟨_, _, step_writeSample hp hreg, step_read rfl hreg rfl, sampleWord_writeSampleWord s.sample i v, rfl⟩

/-! ### Bytes of the SAMPLE space -/

/-- Byte `k` of a word, as a number (20_memory.md R41). -/
theorem toNat_byteOfWord (c : Word) (k : Nat) : (byteOfWord c k).toNat = c.toNat / 2 ^ (8 * k) % 256 := by
  rw [byteOfWord, BitVec.extractLsb'_toNat, Nat.shiftRight_eq_div_pow]

/-- The byte at offset `k` of the SAMPLE space is a byte of the SAMPLE word around it (R41). -/
theorem byteView_sample (s : State) {k : Offset} (h : 0x100 ≤ k.toNat) :
    byteView s k = some (byteOfWord (sampleWord s.sample ((k.toNat - 0x100) / 4)) (k.toNat % 4)) := by
  have hk := k.isLt
  have haligned : (k - BitVec.ofNat 9 (k.toNat % 4)).toNat = 0x100 + 4 * ((k.toNat - 0x100) / 4) := by
    rw [BitVec.toNat_sub, BitVec.toNat_ofNat]
    omega
  rw [byteView, regAt_of_sample (by omega) haligned]
  rfl

/-- Byte `2j + h` of the SAMPLE space is byte `h` of entry `j`, which is the low half of its SAMPLE word when `j` is even
and the high half when it is odd (R19, R41). -/
theorem byteView_sample_entry (s : State) {j h : Nat} (hj : j < 128) (hh : h < 2) :
    ∃ b, byteView s (BitVec.ofNat 9 (0x100 + 2 * j + h)) = some b ∧ b.toNat = (cell s.sample j).toNat / 256 ^ h % 256 := by
  have hoff : (BitVec.ofNat 9 (0x100 + 2 * j + h)).toNat = 0x100 + 2 * j + h := by
    rw [BitVec.toNat_ofNat]
    omega
  refine ⟨_, byteView_sample s (by omega), ?_⟩
  rw [hoff, toNat_byteOfWord, toNat_sampleWord]
  obtain ⟨i, rfl | rfl⟩ : ∃ i, j = 2 * i ∨ j = 2 * i + 1 := ⟨j / 2, by omega⟩
  · have hword : (0x100 + 2 * (2 * i) + h - 0x100) / 4 = i := by omega
    have hbyte : (0x100 + 2 * (2 * i) + h) % 4 = h := by omega
    rw [hword, hbyte]
    interval_cases h <;> omega
  · have hword : (0x100 + 2 * (2 * i + 1) + h - 0x100) / 4 = i := by omega
    have hbyte : (0x100 + 2 * (2 * i + 1) + h) % 4 = 2 + h := by omega
    rw [hword, hbyte]
    interval_cases h <;> omega

/-- Settles O13: bytes 0 and 1 of an entry, which is below `2 ^ 16`, so its byte 1 is all that is left of it. -/
theorem sampleBytesAreLittleEndian : Obligations.SampleBytesAreLittleEndian := by
  intro s j hj
  obtain ⟨b₀, hview₀, hb₀⟩ := byteView_sample_entry s hj (show 0 < 2 by decide)
  obtain ⟨b₁, hview₁, hb₁⟩ := byteView_sample_entry s hj (show 1 < 2 by decide)
  refine ⟨⟨b₀, hview₀, by omega⟩, ⟨b₁, hview₁, ?_⟩⟩
  have hlt := (cell s.sample j).isLt
  omega

/-- A performed hop reads SAMPLE and does not write it (R19). -/
theorem performHop_sample (N : NumSys T) (cap : Nat) (s : State) : (performHop N cap s).sample = s.sample := by
  simp [performHop]

/-- Settles O54: no command's rule writes SAMPLE, and the bytes of its space are read from SAMPLE alone. -/
theorem noCommandWritesSample : Obligations.NoCommandWritesSample := by
  intro i s t h
  have hsample : t.sample = s.sample := by
    obtain ⟨-, rfl⟩ | ⟨-, rfl⟩ | ⟨-, rfl | rfl | ⟨-, -, rfl⟩⟩ | ⟨-, rfl⟩ | ⟨b, -, rfl⟩ |
      ⟨b, index, -, rfl | ⟨p, -, rfl⟩⟩ := exec_next_cases h
    case inr.inr.inl.inr.inr => exact performHop_sample _ _ s
    all_goals rfl
  exact ⟨hsample, fun k hk => by rw [byteView_sample t hk, byteView_sample s hk, hsample]⟩

/-! ### STATUS -/

/-- STOP in numbers (40_control.md R84). -/
theorem stop_eq_decide (s : State) : stop s = decide (1500 ≤ s.hops.toNat ∧ 255 ≤ s.npeaks.toNat) := by
  rw [Bool.decide_and]
  rfl

/-- Bit `k` of STATUS, for every `k` (10_state.md R23). -/
theorem statusWord_getLsbD (s : State) (k : Nat) : (statusWord s).getLsbD k =
    if k = 0 then stop s else if k = 8 then s.err.cmd else if k = 9 then s.err.acc else if k = 10 then s.err.div
    else if k = 11 then s.err.rng else if k = 12 then s.err.ovf else if k = 31 then s.err.fault else false := by
  by_cases hk : k < 32
  · simp only [statusWord, BitVec.getLsbD_append, BitVec.getLsbD_ofBool, BitVec.getLsbD_zero]
    interval_cases k <;> simp
  · rw [BitVec.getLsbD_of_ge _ _ (by omega)]
    repeat rw [if_neg (by omega)]

/-- The reserved bits of STATUS read 0 (R23). -/
theorem statusWord_getLsbD_reserved (s : State) {k : Nat} (hk : (1 ≤ k ∧ k ≤ 7) ∨ (13 ≤ k ∧ k ≤ 30)) :
    (statusWord s).getLsbD k = false := by
  rw [statusWord_getLsbD]
  repeat rw [if_neg (by omega)]

/-- Settles O14: the seven defined bits are read off the word, and the two ranges hold none of them. -/
theorem statusBitsAreAsDefined : Obligations.StatusBitsAreAsDefined := by
  intro s
  rw [← stop_eq_decide]
  have hbit := statusWord_getLsbD s
  exact ⟨hbit 0, fun k hlo hhi => statusWord_getLsbD_reserved s (.inl ⟨hlo, hhi⟩), hbit 8, hbit 9, hbit 10, hbit 11,
    hbit 12, fun k hlo hhi => statusWord_getLsbD_reserved s (.inr ⟨hlo, hhi⟩), hbit 31⟩

end Sys2Proof.Machine
end

section
/-! The rules of the accesses: where each kind of register stands in the map, which accesses are illegal, what a write to
CMD or to a SAMPLE word does, and the address window. -/

namespace Sys2Proof.Machine

/-! ### Writes to CMD -/

/-- A write to CMD is a command word to execute (20_memory.md R43). -/
theorem performEvent_writeCmd (c : Word) (s : State) : performEvent (.write .bits32 0#9 c) s = writeCommand c s := by
  simp only [performEvent, regWrite, accessed, regAt_cmd]

/-- A word that decodes is executed (R43). -/
theorem writeCommand_of_decode_ok {c : Word} {i : Instr} (h : decode c = .ok i) (s : State) :
    writeCommand c s = exec i s := by
  simp only [writeCommand, h]

/-- A word that does not decode raises ERR_CMD (30_encoding.md R64). -/
theorem writeCommand_of_decode_error {c : Word} {e : DecodeError} (h : decode c = .error e) (s : State) :
    writeCommand c s = .next (raise .errCmd s) := by
  simp only [writeCommand, h]

/-- Settles O6: the step performs the first pending event, which for a decodable word written to CMD executes it. -/
theorem stepRunsTheDecodedCommand : Obligations.StepRunsTheDecodedCommand := by
  refine ⟨fun s e rest hp => step_of_cons hp, fun s c i rest hp hc => ?_⟩
  rw [step_of_cons hp, performEvent_writeCmd, writeCommand_of_decode_ok hc]

/-! ### Illegal accesses (R44, R45) -/

/-- An access reaches a register only when it is 32 bits wide. -/
theorem accessed_eq_some_iff {width : AccessWidth} {off : Offset} {r : Reg} :
    accessed width off = some r ↔ width = .bits32 ∧ regAt off = some r := by
  cases width <;> simp [accessed]

/-- Where the registers stand (10_state.md R22): CMD at offset 0, the read-only ones from 0x004 to 0x028, the SAMPLE words
from 0x100, all at aligned offsets. -/
theorem regAt_eq_some_cases {off : Offset} {r : Reg} (h : regAt off = some r) :
    off.toNat % 4 = 0 ∧
      ((off.toNat = 0 ∧ r = .cmd) ∨
        (4 ≤ off.toNat ∧ off.toNat ≤ 0x028 ∧ r.readable = true ∧ r.writable = false) ∨
        (0x100 ≤ off.toNat ∧ ∃ i, r = .sample i)) := by
  unfold regAt at h
  split at h
  · cases h
  next haligned =>
    refine ⟨by omega, ?_⟩
    split at h
    next hsample =>
      cases h
      exact .inr (.inr ⟨hsample, _, rfl⟩)
    next =>
      split at h <;> cases h
      next hoff => exact .inl ⟨hoff, rfl⟩
      all_goals exact .inr (.inl ⟨by omega, by omega, rfl, rfl⟩)

/-- The offsets of the readable registers (R22). -/
theorem offset_of_readable {off : Offset} {r : Reg} (h : regAt off = some r) (hr : r.readable = true) :
    off.toNat % 4 = 0 ∧ ((4 ≤ off.toNat ∧ off.toNat ≤ 0x028) ∨ 0x100 ≤ off.toNat) := by
  obtain ⟨haligned, ⟨-, rfl⟩ | ⟨hlo, hhi, -⟩ | ⟨hsample, -⟩⟩ := regAt_eq_some_cases h
  · cases hr
  · exact ⟨haligned, .inl ⟨hlo, hhi⟩⟩
  · exact ⟨haligned, .inr hsample⟩

/-- The offsets of the writable registers (R22). -/
theorem offset_of_writable {off : Offset} {r : Reg} (h : regAt off = some r) (hw : r.writable = true) :
    off.toNat % 4 = 0 ∧ (off.toNat = 0 ∨ 0x100 ≤ off.toNat) := by
  obtain ⟨haligned, ⟨hzero, -⟩ | ⟨-, -, -, hro⟩ | ⟨hsample, -⟩⟩ := regAt_eq_some_cases h
  · exact ⟨haligned, .inl hzero⟩
  · simp [hw] at hro
  · exact ⟨haligned, .inr hsample⟩

/-- A read that reaches no readable register raises ERR_ACC and returns 0. -/
theorem regRead_of_illegal {width : AccessWidth} {off : Offset}
    (h : ∀ r, accessed width off = some r → r.readable = false) (s : State) :
    regRead width off s = raise .errAcc { s with readData := 0#32 } := by
  unfold regRead
  split
  next r hr => simp only [h r hr, Bool.false_eq_true, if_false]
  next => rfl

/-- A write that reaches no writable register raises ERR_ACC and is dropped. -/
theorem regWrite_of_illegal {width : AccessWidth} {off : Offset}
    (h : ∀ r, accessed width off = some r → r.writable = false) (v : Word) (s : State) :
    regWrite width off v s = .next (raise .errAcc s) := by
  unfold regWrite
  split
  next hr => cases h _ hr
  next hr => cases h _ hr
  next => rfl

/-- Settles O10: the readable and the writable registers stand only where the accesses to them are legal. -/
theorem illegalAccessRaisesErrAcc : Obligations.IllegalAccessRaisesErrAcc := by
  refine fun s width off rest => ⟨fun hp hillegal => ?_, fun v hp hillegal => ?_⟩
  · have hunreached : ∀ r, accessed width off = some r → r.readable = false := fun r ha => by
      obtain ⟨hwidth, hreg⟩ := accessed_eq_some_iff.mp ha
      exact Bool.eq_false_iff.mpr fun hr => hillegal ⟨hwidth, offset_of_readable hreg hr⟩
    rw [step_of_cons hp, performEvent, regRead_of_illegal hunreached]
    rfl
  · have hunreached : ∀ r, accessed width off = some r → r.writable = false := fun r ha => by
      obtain ⟨hwidth, hreg⟩ := accessed_eq_some_iff.mp ha
      exact Bool.eq_false_iff.mpr fun hw => hillegal ⟨hwidth, offset_of_writable hreg hw⟩
    rw [step_of_cons hp, performEvent, regWrite_of_illegal hunreached]
    rfl

/-! ### Writes to SAMPLE words (R43) -/

/-- The entries after a write to a SAMPLE word: its two halves and, elsewhere, what was there. -/
theorem cell_writeSampleWord (smp : Vector Half 128) {i j : Nat} (hi : i < 64) (hj : j < 128) (v : Word) :
    cell (writeSampleWord smp i v) j =
      if j = 2 * i + 1 then v.extractLsb' 16 16 else if j = 2 * i then v.extractLsb' 0 16 else cell smp j := by
  have hlo : 2 * i % 128 = 2 * i := Nat.mod_eq_of_lt (by omega)
  have hhi : (2 * i + 1) % 128 = 2 * i + 1 := Nat.mod_eq_of_lt (by omega)
  rw [writeSampleWord, cell_putCell, cell_putCell, Nat.mod_eq_of_lt hj, hlo, hhi]

/-- The same write again changes nothing. -/
theorem writeSampleWord_idem (smp : Vector Half 128) {i : Nat} (hi : i < 64) (v : Word) :
    writeSampleWord (writeSampleWord smp i v) i v = writeSampleWord smp i v := by
  refine ext_cell fun j hj => ?_
  rw [cell_writeSampleWord _ hi hj, cell_writeSampleWord _ hi hj]
  split_ifs <;> rfl

/-- The event of a write to a SAMPLE word. -/
theorem performEvent_writeSample {off : Offset} {i : Fin 64} (hr : regAt off = some (.sample i)) (v : Word) (s : State) :
    performEvent (.write .bits32 off v) s = .next { s with sample := writeSampleWord s.sample i v } := by
  have ha : accessed .bits32 off = some (.sample i) := hr
  simp only [performEvent, regWrite, ha]

/-- Settles O11: a SAMPLE word is overwritten half by half, idempotently, and a word written to CMD is decoded. -/
theorem legalWriteActsOnItsRegister : Obligations.LegalWriteActsOnItsRegister := by
  refine fun s off v => ⟨fun i hi hoff => ?_, ?_⟩
  · have hwrite := performEvent_writeSample (regAt_of_sample hi hoff) v
    refine ⟨writeSampleWord s.sample i v, hwrite s, ?_, ?_, fun j hj hlo hhi => ?_, ?_⟩
    · rw [cell_writeSampleWord _ hi (by omega), if_neg (by omega), if_pos rfl, BitVec.extractLsb'_toNat]
      rfl
    · have hlt := v.isLt
      rw [cell_writeSampleWord _ hi (by omega), if_pos rfl, BitVec.extractLsb'_toNat, Nat.shiftRight_eq_div_pow]
      omega
    · rw [cell_writeSampleWord _ hi hj, if_neg hhi, if_neg hlo]
    · rw [hwrite, writeSampleWord_idem _ hi]
  · rintro rfl
    rw [performEvent_writeCmd]
    exact ⟨fun i h => writeCommand_of_decode_ok h s, fun e h => writeCommand_of_decode_error h s⟩

/-! ### The address window (R40, R47) -/

/-- An offset is below 512, so it is the distance from BASE of exactly one address of the window. -/
theorem offsetOfAddress_eq_some_iff {addr : Nat} {off : Offset} :
    offsetOfAddress addr = some off ↔ addr = Config.base + off.toNat := by
  have hoff := off.isLt
  unfold offsetOfAddress
  constructor
  · intro h
    split at h
    next hwindow =>
      cases h
      rw [BitVec.toNat_ofNat]
      omega
    next => cases h
  · rintro rfl
    rw [if_pos (by omega), Nat.add_sub_cancel_left, BitVec.ofNat_toNat, BitVec.setWidth_eq]

/-- Settles O15: BASE is a number of blocks of 512 bytes, and the offset of an address is its distance from BASE. -/
theorem addressWindowIsTheSpaceAtBase : Obligations.AddressWindowIsTheSpaceAtBase :=
  ⟨Nat.mul_mod_right 512 Config.baseBlock, fun _ _ => offsetOfAddress_eq_some_iff⟩

end Sys2Proof.Machine
end

section
/-! The command words: decoding by match and mask with at most one match, the arithmetic of the encoder's words, the two
round trips, the illegal words, and the lines of FEED. -/

namespace Sys2Proof.Machine

/-! ### Match and mask (30_encoding.md R62, R63) -/

/-- The six commands in the order of R62, with the operands that R61 reads from the word. -/
def commandsOf (c : Word) : List Instr :=
  [.nop, .init, .hop, .crcinit, .crcb (fieldImm8 c), .pkrd (fieldBand c) (fieldIndex c)]

/-- A row selects the words that match its pattern under its mask (R62). -/
theorem selects_iff {r : OpcodeRow} {c : Word} : r.selects c = true ↔ c &&& r.mask = r.pattern := beq_iff_eq

/-- Two rows that ask for different values of the bits both of them look at. -/
def RowsConflict (r r' : OpcodeRow) : Prop := r.pattern &&& r'.mask ≠ r'.pattern &&& r.mask

theorem RowsConflict.symm {r r' : OpcodeRow} (h : RowsConflict r r') : RowsConflict r' r := Ne.symm h

/-- Both rows of a conflict cannot select one word: the bits that both look at are the word's. -/
theorem RowsConflict.not_both_select {r r' : OpcodeRow} (h : RowsConflict r r') {c : Word} (hr : r.selects c = true) :
    r'.selects c ≠ true := by
  intro hr'
  rw [selects_iff] at hr hr'
  apply h
  rw [← hr, ← hr', BitVec.and_assoc, BitVec.and_assoc, BitVec.and_comm r.mask]

/-- The rows of R62's table conflict with one another. -/
theorem commandsOf_rows_conflict (c : Word) : (commandsOf c).Pairwise fun i j => RowsConflict i.row j.row := by
  rw [← List.pairwise_map]
  change ((commandsOf 0#32).map Instr.row).Pairwise fun r r' => r.pattern &&& r'.mask ≠ r'.pattern &&& r.mask
  decide

/-- At most one command matches a word (R63). -/
theorem eq_of_mem_commandsOf_of_selects {c : Word} {i j : Instr} (hi : i ∈ commandsOf c) (hj : j ∈ commandsOf c)
    (hci : i.row.selects c = true) (hcj : j.row.selects c = true) : i = j := by
  by_contra hne
  have : Std.Symm fun i j : Instr => RowsConflict i.row j.row := ⟨fun _ _ => RowsConflict.symm⟩
  exact ((commandsOf_rows_conflict c).forall hi hj hne).not_both_select hci hcj

/-- What the decoder answers: a command of the table that matches, or an error when none does. -/
theorem decode_cases (c : Word) :
    (∃ i ∈ commandsOf c, i.row.selects c = true ∧ decode c = .ok i) ∨
      ((∀ i ∈ commandsOf c, i.row.selects c ≠ true) ∧ decode c = .error (illegalWord c)) := by
  unfold decode
  split_ifs
  case neg =>
    refine .inr ⟨?_, rfl⟩
    simp only [commandsOf, List.forall_mem_cons]
    exact ⟨‹_›, ‹_›, ‹_›, ‹_›, ‹_›, ‹_›, List.forall_mem_nil _⟩
  all_goals exact .inl ⟨_, by simp [commandsOf], ‹_›, rfl⟩

/-- A word is a command exactly when it matches that command's row, with the operands read from the word (R63). -/
theorem decode_eq_ok_iff {c : Word} {i : Instr} : decode c = .ok i ↔ i.row.selects c = true ∧ i ∈ commandsOf c := by
  obtain ⟨j, hj, hcj, hdec⟩ | ⟨hnone, hdec⟩ := decode_cases c <;> rw [hdec]
  · refine ⟨fun h => ?_, fun ⟨hci, hi⟩ => by rw [eq_of_mem_commandsOf_of_selects hi hj hci hcj]⟩
    cases h
    exact ⟨hcj, hj⟩
  · exact ⟨nofun, fun ⟨hci, hi⟩ => absurd hci (hnone i hi)⟩

/-- A word is illegal exactly when it matches no command's row (R63, R64). -/
theorem decode_eq_error_iff {c : Word} : (∃ e, decode c = .error e) ↔ ∀ i ∈ commandsOf c, i.row.selects c ≠ true := by
  obtain ⟨j, hj, hcj, hdec⟩ | ⟨hnone, hdec⟩ := decode_cases c <;> rw [hdec]
  · exact ⟨nofun, fun h => absurd hcj (h j hj)⟩
  · exact ⟨fun _ => hnone, fun _ => ⟨_, rfl⟩⟩

/-! ### The operand fields as numbers (R61) -/

/-- A CRCB of the table has bits 7:0 of the word. -/
theorem crcb_mem_commandsOf {b : Byte} {c : Word} : .crcb b ∈ commandsOf c ↔ b.toNat = c.toNat % 256 := by
  have hfield : (fieldImm8 c).toNat = c.toNat % 256 := by
    rw [fieldImm8, BitVec.extractLsb'_toNat, Nat.shiftRight_zero]
  simp [commandsOf, ← BitVec.toNat_inj, hfield]

/-- A PKRD of the table has bits 23:22 and bits 21:0 of the word. -/
theorem pkrd_mem_commandsOf {b : Fin 4} {x : Nat} {c : Word} :
    .pkrd b x ∈ commandsOf c ↔ b.val = c.toNat / 4194304 % 4 ∧ x = c.toNat % 4194304 := by
  have hband : (fieldBand c).val = c.toNat / 4194304 % 4 := by
    simp only [fieldBand, BitVec.extractLsb'_toNat, Nat.shiftRight_eq_div_pow]
  have hindex : fieldIndex c = c.toNat % 4194304 := by
    rw [fieldIndex, BitVec.extractLsb'_toNat, Nat.shiftRight_zero]
  simp [commandsOf, Fin.ext_iff, hband, hindex]

/-- Settles O3: each command is in the table with the operands of its fields, and its row is its match and mask. -/
theorem decodingFollowsMatchAndMask : Obligations.DecodingFollowsMatchAndMask := by
  intro c
  have hplain : ∀ i ∈ commandsOf c, decode c = .ok i ↔ c &&& i.row.mask = i.row.pattern := fun _ hi =>
    decode_eq_ok_iff.trans ((and_iff_left hi).trans selects_iff)
  refine ⟨hplain .nop ?_, hplain .init ?_, hplain .hop ?_, hplain .crcinit ?_,
    fun b => decode_eq_ok_iff.trans (and_congr selects_iff crcb_mem_commandsOf),
    fun b x => decode_eq_ok_iff.trans (and_congr selects_iff pkrd_mem_commandsOf), ?_⟩
  case refine_5 =>
    rw [decode_eq_error_iff]
    simp [commandsOf, selects_iff, Instr.row]
  all_goals simp [commandsOf]

/-! ### The encoder's words as numbers (R62) -/

/-- The operand of CRCB is added to its match. -/
theorem toNat_encode_crcb (b : Byte) : (encode (.crcb b)).toNat = 0x11000000 + b.toNat := by
  have hb := b.isLt
  have hor : (0x11000000 ||| b.toNat : Nat) = 0x11000000 + b.toNat :=
    (Nat.shiftLeft_add_eq_or_of_lt hb 0x110000).symm
  rw [encode, BitVec.toNat_or, BitVec.toNat_setWidth, Nat.mod_eq_of_lt (by omega)]
  exact hor

/-- The operands of PKRD are added to its match, the band above the 22 bits of the index. -/
theorem toNat_encode_pkrd (b : Fin 4) {x : Nat} (hx : x < 4194304) :
    (encode (.pkrd b x)).toNat = 0x20000000 + 4194304 * b.val + x := by
  have hband : ∀ b : Fin 4, (0x20000000#32 ||| BitVec.ofNat 32 b.val <<< 22).toNat = (0x80 + b.val) <<< 22 := by decide
  rw [encode, BitVec.toNat_or, hband, BitVec.toNat_ofNat, Nat.mod_eq_of_lt (by omega),
    ← Nat.shiftLeft_add_eq_or_of_lt hx, Nat.shiftLeft_eq]
  omega

/-- A mask of all the bits from `k` on clears the `k` bits below. -/
theorem toNat_and_highMask (c : Word) (k : Nat) : (c &&& BitVec.allOnes 32 <<< k).toNat = c.toNat / 2 ^ k * 2 ^ k := by
  have hle := Nat.div_mul_le_self c.toNat (2 ^ k)
  rw [← BitVec.shiftLeft_ushiftRight, BitVec.toNat_shiftLeft, BitVec.toNat_ushiftRight, Nat.shiftRight_eq_div_pow,
    Nat.shiftLeft_eq, Nat.mod_eq_of_lt (by omega)]

/-! ### The two round trips -/

/-- A command of the table is well-formed: a field of 22 bits is below `2 ^ 22`. -/
theorem wellFormed_of_mem_commandsOf {c : Word} {i : Instr} (h : i ∈ commandsOf c) : i.wellFormed = true := by
  cases i with
  | pkrd b x =>
    obtain ⟨-, hx⟩ := pkrd_mem_commandsOf.mp h
    exact decide_eq_true (by omega)
  | nop | init | hop | crcinit | crcb => rfl

/-- A word that matches a command of the table is that command's word: above the operands it is the match, and the
operands are what is left. -/
theorem encode_of_selects {c : Word} {i : Instr} (hc : i.row.selects c = true) (h : i ∈ commandsOf c) :
    encode i = c := by
  rw [selects_iff] at hc
  cases i with
  | crcb b =>
    have hmatch : 0x11000000 = c.toNat / 256 * 256 := (congrArg BitVec.toNat hc).symm.trans (toNat_and_highMask c 8)
    have hb := crcb_mem_commandsOf.mp h
    rw [← BitVec.toNat_inj, toNat_encode_crcb]
    omega
  | pkrd b x =>
    have hmatch : 0x20000000 = c.toNat / 16777216 * 16777216 :=
      (congrArg BitVec.toNat hc).symm.trans (toNat_and_highMask c 24)
    obtain ⟨hb, hx⟩ := pkrd_mem_commandsOf.mp h
    rw [← BitVec.toNat_inj, toNat_encode_pkrd b (by omega)]
    omega
  | nop | init | hop | crcinit => exact hc.symm.trans BitVec.and_allOnes

/-- The fields of an encoded command are its operands. -/
theorem mem_commandsOf_encode {i : Instr} (h : i.wellFormed = true) : i ∈ commandsOf (encode i) := by
  cases i with
  | crcb b =>
    have hb := b.isLt
    rw [crcb_mem_commandsOf, toNat_encode_crcb]
    omega
  | pkrd b x =>
    have hb := b.isLt
    have hx : x < 4194304 := of_decide_eq_true h
    rw [pkrd_mem_commandsOf, toNat_encode_pkrd b hx]
    omega
  | nop | init | hop | crcinit => simp [commandsOf]

/-- The word of a well-formed command matches the command's row (R62). -/
theorem row_selects_encode : ∀ {i : Instr}, i.wellFormed = true → i.row.selects (encode i) = true
  | .nop => Laws.RowSelectsWord.nop
  | .init => Laws.RowSelectsWord.init
  | .hop => Laws.RowSelectsWord.hop
  | .crcinit => Laws.RowSelectsWord.crcinit
  | .crcb b => Laws.RowSelectsWord.crcb b
  | .pkrd b x => Laws.RowSelectsWord.pkrd b x

/-- Settles O1: the word of a well-formed command matches the command's row, and its fields are the operands. -/
theorem decodeOfEncodeIsIdentity : Obligations.DecodeOfEncodeIsIdentity := fun _ h =>
  decode_eq_ok_iff.mpr ⟨row_selects_encode h, mem_commandsOf_encode h⟩

/-- Settles O2: the word matches the row of the command it decodes to, so it is that command's word. -/
theorem encodeOfDecodeIsIdentity : Obligations.EncodeOfDecodeIsIdentity := fun _ _ h =>
  have ⟨hc, hi⟩ := decode_eq_ok_iff.mp h
  ⟨wellFormed_of_mem_commandsOf hi, encode_of_selects hc hi⟩

/-- Settles O5: each word is the encoding of its command. -/
theorem commandWordsDecode : Obligations.CommandWordsDecode :=
  have roundTrip := decodeOfEncodeIsIdentity
  ⟨roundTrip .nop rfl, roundTrip .init rfl, roundTrip .hop rfl, roundTrip .crcinit rfl, roundTrip (.crcb 0x31#8) rfl,
    roundTrip (.pkrd 3 4) rfl⟩

/-! ### Illegal words (R64) -/

/-- No command's word has a reserved opcode or a must-be-zero bit set. -/
theorem toNat_encode_cases {i : Instr} (h : i.wellFormed = true) :
    (encode i).toNat ∈ [0x00000000, 0x01000000, 0x02000000, 0x10000000] ∨ (encode i).toNat / 256 = 0x110000 ∨
      (encode i).toNat / 16777216 = 0x20 := by
  cases i with
  | crcb b =>
    have hb := b.isLt
    rw [toNat_encode_crcb]
    omega
  | pkrd b x =>
    have hb := b.isLt
    have hx : x < 4194304 := of_decide_eq_true h
    rw [toNat_encode_pkrd b hx]
    omega
  | nop | init | hop | crcinit => exact .inl (by decide)

/-- Settles O4: a word that decoded would be a command's word, and no command's word is one of these. -/
theorem illegalWordRaisesErrCmdOnly : Obligations.IllegalWordRaisesErrCmdOnly := by
  intro s c hillegal
  rw [performEvent_writeCmd]
  cases hdec : decode c with
  | error e =>
    rw [writeCommand_of_decode_error hdec]
    rfl
  | ok i =>
    obtain ⟨hwf, rfl⟩ := encodeOfDecodeIsIdentity c i hdec
    have hword := toNat_encode_cases hwf
    simp only [List.mem_cons, List.not_mem_nil, or_false] at hillegal hword
    omega

/-! ### The lines of FEED (R66, R203) -/

/-- The line that writes SAMPLE word `i` of `v`. -/
def sampleLine (v : Vector Half 128) (i : Nat) : HostEvent :=
  .write .bits32 (BitVec.ofNat 9 (0x100 + 4 * i)) (sampleWord v i)

theorem samplesLines_eq_map (v : Vector Half 128) : samplesLines v = (List.range 64).map (sampleLine v) := rfl

/-- Writing word `i` of `v` copies its two entries. -/
theorem cell_writeSampleWord_sampleWord (v smp : Vector Half 128) {i j : Nat} (hi : i < 64) (hj : j < 128) :
    cell (writeSampleWord smp i (sampleWord v i)) j = if j / 2 = i then cell v j else cell smp j := by
  have hodd : (sampleWord v i).extractLsb' 16 16 = cell v (2 * i + 1) := BitVec.extractLsb'_append_eq_left
  have heven : (sampleWord v i).extractLsb' 0 16 = cell v (2 * i) := BitVec.extractLsb'_append_eq_right
  rw [cell_writeSampleWord _ hi hj, hodd, heven]
  obtain rfl | rfl | hother : j = 2 * i + 1 ∨ j = 2 * i ∨ j / 2 ≠ i := by omega
  · rw [if_pos rfl, if_pos (by omega)]
  · rw [if_neg (by omega), if_pos rfl, if_pos (by omega)]
  · rw [if_neg (by omega), if_neg (by omega), if_neg hother]

/-- The first `n` lines fill the first `2n` entries of SAMPLE and touch nothing outside SAMPLE. -/
theorem performAll_sampleLines (v : Vector Half 128) (s : State) {n : Nat} (hn : n ≤ 64) :
    ∃ smp, performAll ((List.range n).map (sampleLine v)) s = .next { s with sample := smp } ∧
      ∀ j < 2 * n, cell smp j = cell v j := by
  induction n with
  | zero => exact ⟨s.sample, rfl, fun j hj => by omega⟩
  | succ n ih =>
    obtain ⟨smp, hrun, hfilled⟩ := ih (by omega)
    refine ⟨writeSampleWord smp n (sampleWord v n), ?_, fun j hj => ?_⟩
    · rw [List.range_succ, List.map_append, performAll_append hrun]
      simp only [List.map_cons, List.map_nil, performAll, sampleLine, performEvent_writeSample (regAt_sample n hn)]
    · rw [cell_writeSampleWord_sampleWord v smp hn (by omega)]
      split_ifs with hword
      · rfl
      · exact hfilled j (by omega)

/-- The 64 lines leave SAMPLE at the samples, whatever it held. -/
theorem performAll_samplesLines (v : Vector Half 128) (s : State) :
    performAll (samplesLines v) s = .next { s with sample := v } := by
  obtain ⟨smp, hrun, hfilled⟩ := performAll_sampleLines v s le_rfl
  rw [samplesLines_eq_map, hrun, ext_cell hfilled]

/-- A list of one event is that event. -/
theorem performAll_singleton (e : HostEvent) (s : State) : performAll [e] s = performEvent e s := by
  cases h : performEvent e s <;> simp only [performAll, h]

/-- A line of a well-formed command executes it (R43, R66). -/
theorem performEvent_commandLine {i : Instr} (h : i.wellFormed = true) (s : State) :
    performEvent (commandLine i) s = exec i s := by
  rw [commandLine, performEvent_writeCmd, writeCommand_of_decode_ok (decodeOfEncodeIsIdentity i h)]

/-- Settles O55: the word writes leave SAMPLE at the samples, and the line after them executes HOP. -/
theorem feedFeedsItsSamples : Obligations.FeedFeedsItsSamples := fun v s => by
  rw [feedLines, performAll_append (performAll_samplesLines v s), performAll_singleton, performEvent_commandLine rfl]

end Sys2Proof.Machine
end

section
/-! The control commands other than HOP (40_control.md): NOP, INIT and PKRD; and that every command, access and step
answers a next state. -/

namespace Sys2Proof.Machine

/-! ### NOP and INIT (R81, R82) -/

/-- Settles O16: NOP's rule answers the state it is given. -/
theorem nopLeavesEverything : Obligations.NopLeavesEverything :=
  ⟨decodeOfEncodeIsIdentity .nop rfl, fun _ => rfl⟩

/-- A fresh call has performed no hop, so STOP is 0 (R84). -/
theorem stop_freshCall (s : State) : stop (freshCall s) = false := by
  simp [stop_eq_decide]

/-- With no fault bit set and STOP 0, STATUS reads 0 (10_state.md R23). -/
theorem statusWord_eq_zero {s : State} (herr : s.err = Err.none) (hstop : stop s = false) : statusWord s = 0#32 := by
  simp [statusWord, herr, hstop, Err.none, Err.fault]

/-- Settles O17: INIT's rule writes every item of the reset table but SAMPLE, with constants. -/
theorem initMakesTheCallFresh : Obligations.InitMakesTheCallFresh :=
  ⟨decodeOfEncodeIsIdentity .init rfl, fun s =>
    ⟨freshCall s, rfl, rfl, rfl, stop_freshCall s, statusWord_eq_zero rfl (stop_freshCall s), rfl⟩⟩

/-! ### PKRD (R86) -/

/-- `{bin, mag}` as a number. -/
theorem toNat_append_half (hi lo : Half) : (hi ++ lo : BitVec 32).toNat = hi.toNat * 65536 + lo.toNat := by
  rw [BitVec.toNat_append, ← Nat.shiftLeft_add_eq_or_of_lt lo.isLt, Nat.shiftLeft_eq]

/-- Settles O45: the word is the encoder's, and the list has a record at an index exactly when it is below the count. -/
theorem pkrdLoadsTheRecord : Obligations.PkrdLoadsTheRecord := by
  refine fun s b index =>
    ⟨fun hindex => decodeOfEncodeIsIdentity (.pkrd b index) (decide_eq_true hindex), fun p hp => ?_, fun hcount => ?_⟩
  · refine ⟨p.bin ++ p.mag, toNat_append_half p.bin p.mag, ?_⟩
    simp only [exec, execPkrd, hp]
  · simp only [exec, execPkrd, List.getElem?_eq_none hcount]
    rfl

/-! ### Every command and every access answers a next state (R80, R183) -/

theorem exec_total (i : Instr) (s : State) : ∃ t, exec i s = .next t := by
  cases i with
  | hop =>
    obtain ⟨-, h⟩ | ⟨-, -, h⟩ | ⟨-, -, h⟩ := execHop_cases s
    all_goals exact ⟨_, h⟩
  | pkrd b index =>
    obtain ⟨-, h⟩ | ⟨p, -, h⟩ := execPkrd_cases b index s
    all_goals exact ⟨_, h⟩
  | nop | init | crcinit | crcb => exact ⟨_, rfl⟩

theorem writeCommand_total (c : Word) (s : State) : ∃ t, writeCommand c s = .next t := by
  cases hdec : decode c with
  | ok i => simpa only [writeCommand_of_decode_ok hdec] using exec_total i s
  | error e => exact ⟨_, writeCommand_of_decode_error hdec s⟩

theorem regWrite_total (width : AccessWidth) (off : Offset) (v : Word) (s : State) :
    ∃ t, regWrite width off v s = .next t := by
  unfold regWrite
  split
  · exact writeCommand_total v s
  · exact ⟨_, rfl⟩
  · exact ⟨_, rfl⟩

theorem performEvent_total (e : HostEvent) (s : State) : ∃ t, performEvent e s = .next t := by
  cases e with
  | write width off v => exact regWrite_total width off v s
  | read | reset => exact ⟨_, rfl⟩

/-- Settles O8: a step is idle or performs an access, and every access answers. -/
theorem everyStepAnswersANextState : Obligations.EveryStepAnswersANextState := by
  intro s
  cases hp : s.pending with
  | nil => exact ⟨s, step_of_nil hp⟩
  | cons e rest => simpa only [step_of_cons hp] using performEvent_total e { s with pending := rest }

end Sys2Proof.Machine
end

section
/-! HOP as a command (40_control.md section 4): when it is performed, STOP, its frame and the detector gate. -/

namespace Sys2Proof.Machine

/-! ### What HOP answers (R83, R84) -/

/-- Under STOP a HOP answers the same state. -/
theorem exec_hop_of_stop {s : State} (h : stop s = true) : exec .hop s = .next s := by
  simp only [exec, execHop, h, if_true]

/-- Otherwise, with the counter at its last value, it raises ERR_OVF. -/
theorem exec_hop_of_limit {s : State} (h : stop s = false) (hmax : s.hops = 0xFFFFFFFF#32) :
    exec .hop s = .next (raise .errOvf s) := by
  simp only [exec, execHop, h, hmax, Bool.false_eq_true, if_false, if_true]

/-- Otherwise the hop is performed. -/
theorem exec_hop_of_performed {s : State} (h : stop s = false) (hmax : s.hops ≠ 0xFFFFFFFF#32) :
    exec .hop s = .next (performHop Config.num Config.peakCap s) := by
  simp only [exec, execHop, h, hmax, Bool.false_eq_true, if_false]

/-- Settles O19: the counter at its last value is HOP's second branch. -/
theorem hopAtCounterLimitOnlyRaisesErrOvf : Obligations.HopAtCounterLimitOnlyRaisesErrOvf :=
  fun _ hstop hmax => exec_hop_of_limit hstop hmax

/-! ### STOP (R84) -/

/-- STOP depends on the two counters only. -/
theorem State.SameCall.stop_eq {s t : State} (h : s.SameCall t) : stop t = stop s := by
  rw [stop_eq_decide, stop_eq_decide, h.hops, h.npeaks]

/-- Under STOP every command but INIT leaves the call as it was: the one that would not, HOP, is refused. -/
theorem exec_sameCall_of_stop {i : Instr} {s t : State} (hstop : stop s = true) (hi : i ≠ .init)
    (h : exec i s = .next t) : s.SameCall t := by
  obtain ⟨-, rfl⟩ | ⟨hinit, -⟩ | ⟨-, rfl | rfl | ⟨hgo, -⟩⟩ | ⟨-, rfl⟩ | ⟨b, -, rfl⟩ |
    ⟨b, index, -, rfl | ⟨p, -, rfl⟩⟩ := exec_next_cases h
  · exact .refl _
  · exact absurd hinit hi
  · exact .refl _
  · exact s.sameCall_raise .errOvf
  · simp [hstop] at hgo
  · exact ⟨rfl, rfl, rfl, rfl, rfl, rfl, .refl _⟩
  · exact ⟨rfl, rfl, rfl, rfl, rfl, rfl, .refl _⟩
  · exact s.sameCall_raise .errRng
  · exact ⟨rfl, rfl, rfl, rfl, rfl, rfl, .refl _⟩

/-- A register write that does not execute a command written to CMD leaves the call as it was. -/
theorem regWrite_executes_or_sameCall {width : AccessWidth} {off : Offset} {v : Word} {s t : State}
    (h : regWrite width off v s = .next t) :
    (width = .bits32 ∧ off = 0#9 ∧ ∃ i, decode v = .ok i ∧ exec i s = .next t) ∨ s.SameCall t := by
  unfold regWrite at h
  split at h
  next hcmd =>
    obtain ⟨hwidth, hoff⟩ := accessed_eq_cmd hcmd
    cases hdec : decode v with
    | ok i => exact .inl ⟨hwidth, hoff, i, rfl, by rwa [writeCommand_of_decode_ok hdec] at h⟩
    | error e =>
      rw [writeCommand_of_decode_error hdec] at h
      cases h
      exact .inr (s.sameCall_raise .errCmd)
  next =>
    cases h
    exact .inr ⟨rfl, rfl, rfl, rfl, rfl, rfl, .refl _⟩
  next =>
    cases h
    exact .inr (s.sameCall_raise .errAcc)

/-- Under STOP a step that is neither a hardware reset nor an INIT leaves the call as it was. -/
theorem step_sameCall_of_stop {s t : State} (hstop : stop s = true) (h : step s = .next t)
    (hreset : s.pending.head? ≠ some .reset)
    (hinit : s.pending.head? ≠ some (.write .bits32 0#9 0x01000000#32)) : s.SameCall t := by
  obtain ⟨-, rfl⟩ | ⟨e, rest, hp, he⟩ := step_next_cases h
  · exact .refl _
  have htake := s.sameCall_pending rest
  cases e with
  | read width off =>
    cases he
    exact htake.trans (regRead_sameCall width off _)
  | reset => simp [hp] at hreset
  | write width off v =>
    obtain ⟨rfl, rfl, i, hdec, hexec⟩ | hsame := regWrite_executes_or_sameCall he
    · have hi : i ≠ .init := by
        rintro rfl
        simp [hp, decode_eq_init_iff.mp hdec] at hinit
      exact htake.trans (exec_sameCall_of_stop (htake.stop_eq.trans hstop) hi hexec)
    · exact htake.trans hsame

/-- Twelve seconds of 16000 samples are 1500 hops of 128. -/
theorem twelve_le_elapsed_iff (hops : ℕ) : (12 : ℚ) ≤ 128 * (hops : ℚ) / 16000 ↔ 1500 ≤ hops := by
  rw [le_div_iff₀ (by norm_num)]
  norm_cast
  omega

/-- Settles O18: the predicate is that of the two counters, and under STOP no step but an INIT or a reset moves them. -/
theorem stopRule : Obligations.StopRule := by
  intro s
  have hiff : stop s = true ↔ 1500 ≤ s.hops.toNat ∧ 255 ≤ s.npeaks.toNat := by
    rw [stop_eq_decide, decide_eq_true_iff]
  refine ⟨hiff, ?_, exec_hop_of_stop, fun t hstop h _ hreset hinit => ?_⟩
  · rw [twelve_le_elapsed_iff]
    exact hiff
  · rw [(step_sameCall_of_stop hstop h hreset hinit).stop_eq, hstop]

/-! ### The frame of HOP (R83) -/

/-- What a performed hop does not write. -/
theorem performHop_leaves_rest (N : NumSys T) (cap : Nat) (s : State) :
    (performHop N cap s).crc = s.crc ∧ (performHop N cap s).pkFrame = s.pkFrame ∧
      (performHop N cap s).pkData = s.pkData ∧ (performHop N cap s).pending = s.pending ∧
      (performHop N cap s).readData = s.readData ∧ (performHop N cap s).resetCount = s.resetCount := by
  rw [performHop_eq_withResults]
  exact ⟨rfl, rfl, rfl, rfl, rfl, rfl⟩

/-- The detector raises ERR_DIV and ERR_OVF only (60_exceptions.md R181). -/
theorem performHop_leaves_other_faults (N : NumSys T) (cap : Nat) (s : State) :
    (performHop N cap s).err.cmd = s.err.cmd ∧ (performHop N cap s).err.acc = s.err.acc ∧
      (performHop N cap s).err.rng = s.err.rng := by
  refine performHop_results_induction N cap s
    (fun r => r.err.cmd = s.err.cmd ∧ r.err.acc = s.err.acc ∧ r.err.rng = s.err.rng) (fun _ F S h wr r pos hr => ?_)
    ⟨rfl, rfl, rfl⟩
  obtain e | e | e | ⟨b, p, -, -, e⟩ := detectAt_cases N cap (s.hops + 1#32) F S h wr r pos <;> rw [e] <;> exact hr

/-- Settles O24: a refused hop changes nothing, one at the counter's limit ERR_OVF only, and a performed one neither the
registers it does not name nor what the lists already hold. -/
theorem hopLeavesTheRestAlone : Obligations.HopLeavesTheRestAlone := by
  intro s t h
  obtain ⟨hsample, hbytes⟩ := noCommandWritesSample .hop s t h
  obtain ⟨-, he⟩ | ⟨-, -, he⟩ | ⟨-, -, he⟩ := execHop_cases s <;>
    obtain rfl := Host.Outcome.next.inj (he.symm.trans h)
  · exact ⟨hsample, rfl, rfl, rfl, rfl, rfl, rfl, rfl, rfl, rfl, id, id, fun _ _ => List.prefix_rfl, hbytes⟩
  · exact ⟨hsample, rfl, rfl, rfl, rfl, rfl, rfl, rfl, rfl, rfl, id, fun _ => rfl, fun _ _ => List.prefix_rfl, hbytes⟩
  · obtain ⟨hcrc, hframe, hdata, hpending, hread, hreset⟩ := performHop_leaves_rest Config.num Config.peakCap s
    obtain ⟨hcmd, hacc, hrng⟩ := performHop_leaves_other_faults Config.num Config.peakCap s
    have hkept := performHop_err_keptIn Config.num Config.peakCap s
    exact ⟨hsample, hcrc, hframe, hdata, hpending, hread, hreset, hcmd, hacc, hrng, hkept.div, hkept.ovf,
      fun _ b => performHop_band_prefix _ _ s b, hbytes⟩

/-! ### The detector gate (R85) -/

/-- The positions 10 to 1016 of the scan, written out (43_detector.md R130). -/
theorem scan_eq_foldl (N : NumSys T) (cap : Nat) (hops : Word) (F S : Frame T) (h : Hist T) (wr : BitVec 8)
    (r : Results) : scan N cap hops F S h wr r = (List.range' 10 1007).foldl (detectAt N cap hops F S h wr) r := by
  unfold scan
  rfl

/-- Offset -46 from a write pointer is 210 modulo 256. -/
theorem frameAt_neg46 (h : Hist T) (wr : BitVec 8) : frameAt h wr (-46) = cell h ((wr.toNat + 210) % 256) :=
  congrArg (cell h) (slot_neg wr 46 (by decide))

/-- Offset -49 is 207 modulo 256. -/
theorem frameAt_neg49 (h : Hist T) (wr : BitVec 8) : frameAt h wr (-49) = cell h ((wr.toNat + 207) % 256) :=
  congrArg (cell h) (slot_neg wr 49 (by decide))

/-- A hop after which the count is below 47 leaves the results. -/
theorem performHop_results_early {N : NumSys T} {cap : Nat} {s t : State} (ht : performHop N cap s = t)
    (h : t.hops.toNat < 47) : t.results = s.results := by
  subst ht
  rw [performHop, detectWhenDue_hops] at h
  rw [performHop, detectWhenDue_early N cap h]
  rfl

/-- A hop after which the count is at least 47 has the results of the scan over the histories it leaves. -/
theorem performHop_results_due {N : NumSys T} {cap : Nat} {s t : State} (ht : performHop N cap s = t)
    (h : 47 ≤ t.hops.toNat) :
    t.results = scan N cap t.hops (frameAt t.specHist t.specWr (-46)) (frameAt t.spreadHist t.spreadWr (-49))
      t.spreadHist t.spreadWr s.results := by
  subst ht
  rw [performHop, detectWhenDue_hops] at h
  rw [performHop, detectWhenDue_due N cap h]
  rfl

/-- Settles O25: a performed hop runs the scan from 47 frames on, on the histories it leaves. -/
theorem detectorRunsFrom47Frames : Obligations.DetectorRunsFrom47Frames := by
  intro s hstop hmax
  refine ⟨_, exec_hop_of_performed hstop hmax, fun hearly => ?_, fun hdue => ?_⟩
  · have hres := performHop_results_early rfl hearly
    exact ⟨congrArg Results.err hres, fun _ => ⟨congrArg Results.band hres, congrArg Results.npeaks hres⟩⟩
  · have hres := performHop_results_due rfl hdue
    rw [scan_eq_foldl, frameAt_neg46, frameAt_neg49] at hres
    exact ⟨congrArg Results.err hres, fun _ => ⟨congrArg Results.band hres, congrArg Results.npeaks hres⟩⟩

end Sys2Proof.Machine
end

section
/-! Silence (41_spectral.md R109): in a NUM that satisfies the laws a ring of zeros has the transform zero and every
magnitude at the floor. The first hop of a call on it. -/

namespace Sys2Proof.Machine

/-- The twiddle index of butterfly `j` of a stage is within the table of 1024 (R105, R106). -/
theorem twiddle_index_lt {m j : Nat} (hm : 0 < m) (hm' : m ≤ 2048) (hj : j < m / 2) : j * (2048 / m) < 1024 :=
  calc j * (2048 / m) < m / 2 * (2048 / m) := Nat.mul_lt_mul_of_pos_right hj (Nat.div_pos hm' hm)
    _ ≤ m * 2048 / (2 * m) := Nat.div_mul_div_le _ _ _ _
    _ = 1024 := by rw [Nat.mul_comm 2 m, Nat.mul_div_mul_left _ _ hm]

/-- The permutation of an array with one value stores that value everywhere (R105). -/
theorem bitReverse_replicate {α : Type} {n : Nat} [NeZero n] (N : NumSys α) (k : Nat) (x : α) :
    bitReverse N k (Vector.replicate n x) = Vector.replicate n (x, N.ofInt 0) := by
  refine ext_cell fun i hi => ?_
  rw [bitReverse, cell_tabulate_of_lt _ hi, cell_replicate, cell_replicate]

end Sys2Proof.Machine

namespace Sys2Proof

section Laws

open Machine

variable {α : Type} {N : NumSys α} {val : α → ℝ} (L : N.Laws val)

/-! ### The operations at zero and at the floor (00_scope.md R9) -/

include L

theorem NumSys.Laws.zero_finite : N.finite (N.ofInt 0) = true :=
  (L.nl1 0 (by norm_num)).1

theorem NumSys.Laws.max_self (x : α) : N.max x x = x :=
  (L.nl2_max_cases x x).elim id id

/-- The maximum of zero and the floor, in either order, is the floor: it is one of the two, and its value is positive. -/
theorem NumSys.Laws.max_zero_floor :
    N.max (N.ofInt 0) N.magFloor = N.magFloor ∧ N.max N.magFloor (N.ofInt 0) = N.magFloor := by
  obtain ⟨hzero, hval⟩ := L.nl1 0 (by norm_num)
  have hfloor := L.nl6_magFloor.1
  have hpos := L.magFloor_pos
  rw [Int.cast_zero] at hval
  have key : ∀ m, m = N.ofInt 0 ∨ m = N.magFloor → val m = val N.magFloor → m = N.magFloor := by
    rintro m (rfl | rfl) hm
    · exact absurd (hval.symm.trans hm) hpos.ne
    · rfl
  constructor
  · refine key _ (L.nl2_max_cases _ _) ?_
    rw [L.nl2_max _ _ hzero hfloor, hval, max_eq_right hpos.le]
  · refine key _ (L.nl2_max_cases _ _).symm ?_
    rw [L.nl2_max _ _ hfloor hzero, hval, max_eq_left hpos.le]

/-- A transform that is zero has its magnitude at the floor (R107). -/
theorem NumSys.Laws.binMagnitude_zero : binMagnitude N (N.ofInt 0, N.ofInt 0) = N.magFloor := by
  have hsquare := L.nl3_mul_right _ L.zero_finite
  have hdiv : N.div (N.ofInt 0) N.magDiv = N.ofInt 0 := by
    obtain ⟨hfinite, hval⟩ := L.nl6_magDiv
    exact L.nl3_div _ hfinite (by rw [hval]; norm_num)
  rw [binMagnitude, hsquare, L.nl3_add, hdiv, L.max_zero_floor.2]

/-! ### The transform of zeros -/

/-- A window of zeros is zeros (R103). -/
theorem NumSys.Laws.windowFrame_zero (wr : BitVec 11) :
    windowFrame N (Vector.replicate 2048 0#16) wr = Vector.replicate 2048 (N.ofInt 0) := by
  refine ext_cell fun i hi => ?_
  rw [windowFrame, cell_tabulate_of_lt _ hi, cell_replicate, cell_replicate]
  exact L.nl3_mul_left _ (L.w_finite i hi)

/-- A butterfly on zeros answers zeros (R106). -/
theorem NumSys.Laws.twiddled_zero {j : Nat} (hj : j < 1024) :
    twiddled N (N.tw j) (N.ofInt 0, N.ofInt 0) = (N.ofInt 0, N.ofInt 0) := by
  obtain ⟨hre, him⟩ := L.tw_finite j hj
  rw [twiddled, L.nl3_mul_right _ hre, L.nl3_mul_right _ him, L.nl3_sub, L.nl3_add]

/-- A stage on zeros answers zeros. -/
theorem NumSys.Laws.butterflyStage_zero {s : Nat} (h1 : 1 ≤ s) (h11 : s ≤ 11) :
    butterflyStage N s (Vector.replicate 2048 (N.ofInt 0, N.ofInt 0)) =
      Vector.replicate 2048 (N.ofInt 0, N.ofInt 0) := by
  have hpos : 0 < 2 ^ s := Nat.two_pow_pos s
  have hle : 2 ^ s ≤ 2048 := Nat.pow_le_pow_right (by decide) h11
  have heven : 2 ^ s = 2 * (2 ^ s / 2) := (Nat.mul_div_cancel' (dvd_pow_self 2 (by omega))).symm
  refine ext_cell fun i hi => ?_
  have hr : i % 2 ^ s < 2 ^ s := Nat.mod_lt i hpos
  simp only [butterflyStage, cell_tabulate_of_lt _ hi, cell_replicate]
  split_ifs with hupper
  · rw [butterflyUpper, L.twiddled_zero (twiddle_index_lt hpos hle hupper), L.nl3_add]
  · rw [butterflyLower, L.twiddled_zero (twiddle_index_lt hpos hle (by omega)), L.nl3_sub]

/-- The transform of zeros is zero (R106). -/
theorem NumSys.Laws.fft_zero :
    fft N (Vector.replicate 2048 (N.ofInt 0)) = Vector.replicate 2048 (N.ofInt 0, N.ofInt 0) := by
  rw [fft, bitReverse_replicate, butterflies]
  refine List.foldlRecOn (motive := (· = Vector.replicate 2048 (N.ofInt 0, N.ofInt 0))) _ _ rfl fun A hA s hs => ?_
  obtain ⟨h1, h11⟩ := List.mem_range'_1.mp hs
  rw [hA, L.butterflyStage_zero h1 (Nat.le_of_lt_succ h11)]

/-- The magnitude frame of a ring of zeros is the floor in every bin (R109). -/
theorem NumSys.Laws.hopMagnitude_zero (wr : BitVec 11) :
    hopMagnitude N (Vector.replicate 2048 0#16) wr = Vector.replicate 1025 N.magFloor := by
  refine ext_cell fun k hk => ?_
  rw [hopMagnitude, L.windowFrame_zero, L.fft_zero, magnitude, cell_tabulate_of_lt _ hk, cell_replicate,
    cell_replicate, L.binMagnitude_zero]

/-! ### The spreader on the floor -/

/-- The frequency spread of the floor is the floor (42_spreader.md R121). -/
theorem NumSys.Laws.freqSpread_floor :
    freqSpread N (Vector.replicate 1025 N.magFloor) = Vector.replicate 1025 N.magFloor := by
  refine ext_cell fun k hk => ?_
  by_cases htop : k < 1023
  · rw [cell_freqSpread N _ htop]
    simp only [cell_replicate, L.max_self]
  · rw [cell_freqSpread_top N _ (Nat.not_lt.mp htop) hk]

/-- Raising a frame of zeros to the floor gives the floor (R122). -/
theorem NumSys.Laws.maxFrame_zero_floor :
    maxFrame N (Vector.replicate 1025 (N.ofInt 0)) (Vector.replicate 1025 N.magFloor) =
      Vector.replicate 1025 N.magFloor := by
  refine ext_cell fun k hk => ?_
  rw [cell_maxFrame N _ _ hk, cell_replicate, cell_replicate, L.max_zero_floor.1]

end Laws

end Sys2Proof

namespace Sys2Proof.Machine

/-! ### The first hop of a call (R83) -/

/-- Pushing zeros onto a ring of zeros leaves it (R101). -/
theorem pushRing_zero (wr : BitVec 11) :
    pushRing (Vector.replicate 2048 0#16) wr (Vector.replicate 128 0#16) = Vector.replicate 2048 0#16 := by
  refine ext_cell fun i hi => ?_
  simp only [pushRing, cell_tabulate_of_lt _ hi, cell_replicate, ite_self]

/-- The frame of zeros of the machine's NUM (R12, R13). -/
theorem zeroFrame_eq : zeroFrame = Vector.replicate 1025 (Config.num.ofInt 0) := by
  rw [num_ofInt]
  rfl

/-- Every frame of the reset history is the frame of zeros. -/
theorem frameAt_zeroHist (wr : BitVec 8) (o : Int) : frameAt zeroHist wr o = zeroFrame := cell_replicate _ _

/-- Every slot of the reset history is the frame of zeros. -/
theorem cell_zeroHist (q : Nat) : cell zeroHist q = zeroFrame := cell_replicate _ _

/-- A bin of a frame that is the floor or zeros. -/
theorem cell_ite_floor (c : Prop) [Decidable c] (k : Nat) :
    cell (if c then Vector.replicate 1025 Config.num.magFloor else zeroFrame) k =
      if c then Config.num.magFloor else Config.num.ofInt 0 := by
  rw [zeroFrame_eq]
  split_ifs <;> exact cell_replicate _ _

/-- The time spread of the floor over the reset history writes the floor to the slots 1, 3 and 6 back (R122). -/
theorem cell_timeSpreadHist_floor (wr : BitVec 8) {q : Nat} (hq : q < 256) :
    cell (timeSpreadHist Config.num zeroHist wr (Vector.replicate 1025 Config.num.magFloor)) q =
      if q = slot wr (-1) ∨ q = slot wr (-3) ∨ q = slot wr (-6) then Vector.replicate 1025 Config.num.magFloor
      else zeroFrame := by
  obtain ⟨val, L⟩ := num_lawful
  have hraise : maxFrame Config.num zeroFrame (Vector.replicate 1025 Config.num.magFloor) =
      Vector.replicate 1025 Config.num.magFloor := by
    rw [zeroFrame_eq, L.maxFrame_zero_floor]
  simp only [timeSpreadHist_eq, frameAt_zeroHist, hraise, cell_putFrameAt _ _ _ hq, cell_zeroHist, ite_or]
  split_ifs <;> rfl

/-- Settles O40: the magnitudes of the zero ring are the floor, which the spreads carry to slot 0 and to the slots 1, 3 and
6 back from it, and one frame is too few for the detector. -/
theorem firstHopOnSilence : Obligations.FirstHopOnSilence := by
  intro s hsample
  have hzero : s.sample = Vector.replicate 128 0#16 :=
    ext_cell fun j hj => (hsample j hj).trans (cell_replicate _ _).symm
  obtain ⟨val, L⟩ := num_lawful
  have hmag : hopMagnitude Config.num (pushRing (freshCall s).ring (freshCall s).ringWr (freshCall s).sample)
      ((freshCall s).ringWr + 128#11) = Vector.replicate 1025 Config.num.magFloor := by
    rw [freshCall_ring, freshCall_sample, hzero, pushRing_zero, L.hopMagnitude_zero]
  have hearly : performHop Config.num Config.peakCap (freshCall s) =
      spreadPeaks Config.num (analyze Config.num (freshCall s)) :=
    detectWhenDue_early _ _ (by simp)
  refine ⟨_, exec_hop_of_performed (stop_freshCall s) (by simp), ?_⟩
  rw [hearly]
  refine ⟨rfl, rfl, rfl, rfl, rfl, rfl, fun q k hq hk => ⟨?_, ?_⟩⟩
  · rw [spreadPeaks_specHist, analyze_specHist, hmag, freshCall_specHist, freshCall_specWr, cell_putFrameAt _ _ _ hq,
      slot_zero, cell_zeroHist, cell_ite_floor]
    rfl
  · rw [spreadPeaks_spreadHist, copyLatest_analyze, hmag, L.freqSpread_floor, cell_putFrameAt _ _ _ hq,
      analyze_spreadHist, analyze_spreadWr, freshCall_spreadHist, freshCall_spreadWr, cell_timeSpreadHist_floor _ hq,
      slot_zero, ← ite_or, cell_ite_floor]
    rfl

end Sys2Proof.Machine
end

section
/-! The call (70_reset_and_hazards.md R202): what one round of its loop does, how many hops it has performed, and how it
ends. -/

namespace Sys2Proof.Machine

/-! ### One round of the loop -/

/-- `RD STATUS` returns the status word and changes nothing else. -/
theorem performEvent_readStatus (s : State) :
    performEvent (readLine 0x004#9) s = .next { s with readData := statusWord s } := rfl

/-- The loop leaves at STOP. -/
theorem hopLoop_cons_of_stop (v : Vector Half 128) (rest : List (Vector Half 128)) {s : State} (h : stop s = true) :
    hopLoop (v :: rest) s = .next { s with readData := statusWord s } := by
  simp only [hopLoop, performEvent_readStatus, statusWord_getLsbD s 0, h, if_true]

/-- Otherwise it feeds the hop and goes on. -/
theorem hopLoop_cons_of_go (v : Vector Half 128) (rest : List (Vector Half 128)) {s u : State} (h : stop s = false)
    (hu : exec .hop { s with readData := statusWord s, sample := v } = .next u) :
    hopLoop (v :: rest) s = hopLoop rest u := by
  simp only [hopLoop, performEvent_readStatus, statusWord_getLsbD s 0, h, if_true, Bool.false_eq_true, if_false,
    feedFeedsItsSamples v { s with readData := statusWord s }, hu]

/-! ### What a round, and a loop of them, keeps and counts -/

/-- FAULT stays 1 where no fault bit is cleared. -/
theorem Err.KeptIn.fault {e e' : Err} (h : e.KeptIn e') : e.fault = true → e'.fault = true := by
  simp only [Err.fault, Bool.or_eq_true]
  exact Or.imp (Or.imp (Or.imp (Or.imp h.cmd h.acc) h.div) h.rng) h.ovf

/-- So where FAULT reads 0 after, it read 0 before. -/
theorem State.clean_of_keptIn {s t : State} (h : s.err.KeptIn t.err) (ht : t.clean = true) : s.clean = true := by
  simp only [State.clean, Bool.not_eq_true', ← Bool.not_eq_true] at ht ⊢
  exact mt h.fault ht

/-- `t` is `s` after one hop: no fault bit is cleared, the invariant is kept, and where FAULT reads 0 the hop is
counted. -/
structure State.HoppedTo (s t : State) : Prop where
  err : s.err.KeptIn t.err
  inv : s.Inv → t.Inv
  hops : t.clean = true → t.hops.toNat = s.hops.toNat + 1

/-- `t` is `s` after a loop over `n` hops: the same, with all of them counted unless STOP ended the loop. -/
structure State.LoopedTo (s t : State) (n : Nat) : Prop where
  err : s.err.KeptIn t.err
  inv : s.Inv → t.Inv
  hops_le : t.clean = true → t.hops.toNat ≤ s.hops.toNat + n
  hops_eq : t.clean = true → stop t = false → t.hops.toNat = s.hops.toNat + n

/-- A performed hop counts one. -/
theorem performHop_hops (N : NumSys T) (cap : Nat) {s : State} (hmax : s.hops ≠ 0xFFFFFFFF#32) :
    (performHop N cap s).hops.toNat = s.hops.toNat + 1 := by
  rw [performHop, detectWhenDue_hops, spreadPeaks_hops, analyze_hops]
  bv_omega

/-- A HOP that is not refused is performed and counted, or sets ERR_OVF. -/
theorem exec_hop_hoppedTo {s : State} (h : stop s = false) : ∃ t, exec .hop s = .next t ∧ s.HoppedTo t := by
  by_cases hmax : s.hops = 0xFFFFFFFF#32
  · have hraise := s.sameCall_raise .errOvf
    refine ⟨_, exec_hop_of_limit h hmax, hraise.err, fun hs => hs.of_sameCall hraise, fun hclean => ?_⟩
    simp [State.clean, Err.fault, Err.raise] at hclean
  · exact ⟨_, exec_hop_of_performed h hmax, performHop_err_keptIn _ _ s, fun hs => performHop_inv _ hs hmax,
      fun _ => performHop_hops _ _ hmax⟩

/-- No hops fed. -/
theorem State.LoopedTo.refl (s : State) : s.LoopedTo s 0 := ⟨.refl _, id, fun _ => le_rfl, fun _ _ => rfl⟩

/-- A loop that STOP ends leaves the call as it was. -/
theorem State.LoopedTo.of_stop {s t : State} (h : s.SameCall t) (hstop : stop s = true) (n : Nat) : s.LoopedTo t n where
  err := h.err
  inv hs := hs.of_sameCall h
  hops_le _ := by rw [h.hops]; exact Nat.le_add_right _ _
  hops_eq _ hgo := by simp [h.stop_eq, hstop] at hgo

/-- One hop and the rest of the loop. -/
theorem State.HoppedTo.loopedTo {s t u : State} {n : Nat} (h : s.HoppedTo t) (h' : t.LoopedTo u n) :
    s.LoopedTo u (n + 1) where
  err := h.err.trans h'.err
  inv := h'.inv ∘ h.inv
  hops_le hclean := by
    have hcount := h.hops (State.clean_of_keptIn h'.err hclean)
    have hrest := h'.hops_le hclean
    omega
  hops_eq hclean hgo := by
    have hcount := h.hops (State.clean_of_keptIn h'.err hclean)
    have hrest := h'.hops_eq hclean hgo
    omega

/-- The loop completes over every list of hops. -/
theorem hopLoop_loopedTo (hs : List (Vector Half 128)) (s : State) :
    ∃ t, hopLoop hs s = .next t ∧ s.LoopedTo t hs.length := by
  induction hs generalizing s with
  | nil => exact ⟨s, rfl, .refl s⟩
  | cons v rest ih =>
    cases hstop : stop s with
    | true =>
      have hread : s.SameCall { s with readData := statusWord s } := ⟨rfl, rfl, rfl, rfl, rfl, rfl, .refl _⟩
      exact ⟨_, hopLoop_cons_of_stop v rest hstop, .of_stop hread hstop _⟩
    | false =>
      have hread : s.SameCall { s with readData := statusWord s, sample := v } :=
        ⟨rfl, rfl, rfl, rfl, rfl, rfl, .refl _⟩
      obtain ⟨u, hu, hhop⟩ := exec_hop_hoppedTo (hread.stop_eq.trans hstop)
      obtain ⟨t, ht, hloop⟩ := ih u
      have hfed : s.HoppedTo u := ⟨hhop.err, fun hinv => hhop.inv (hinv.of_sameCall hread), hhop.hops⟩
      exact ⟨t, (hopLoop_cons_of_go v rest hstop hu).trans ht, hfed.loopedTo hloop⟩

/-! ### The call -/

/-- A recording has as many whole hops as groups of 128 samples. -/
theorem length_wholeHops (samples : List Half) : (wholeHops samples).length = samples.length / 128 := by
  simp [wholeHops, Config.hopLen]

/-- A call is the loop over the whole hops, from a fresh call. -/
theorem fingerprintCall_eq (samples : List Half) (s : State) :
    fingerprintCall samples s = hopLoop (wholeHops samples) (freshCall s) := by
  have hinit : performEvent (commandLine .init) s = .next (freshCall s) := performEvent_commandLine rfl s
  simp only [fingerprintCall, hinit]

/-- Settles O60: the loop from a fresh call completes, keeps the invariant and counts its hops from 0. -/
theorem callEndsAfterItsHops : Obligations.CallEndsAfterItsHops := by
  intro samples s
  obtain ⟨t, ht, hloop⟩ := hopLoop_loopedTo (wholeHops samples) (freshCall s)
  rw [← fingerprintCall_eq] at ht
  refine ⟨t, ht, ?_, fun hclean => ?_⟩
  · simp only [callResult, ht, State.asFinal]
  · obtain ⟨hcount, hcap, hord⟩ := (hloop.inv (freshCall_inv s)).results (State.faulted_of_clean hclean)
    have hle := hloop.hops_le hclean
    have heq := hloop.hops_eq hclean
    rw [length_wholeHops, freshCall_hops, BitVec.toNat_zero, Nat.zero_add] at hle heq
    exact ⟨hcount, hcap, hord, hle, heq⟩

end Sys2Proof.Machine
end

section
/-! What a performed HOP stores in the sample ring and in the spectrum history (41_spectral.md R101, R103, R107, R108). -/

namespace Sys2Proof.Machine

/-! ### What the analyzer leaves, after the whole hop -/

theorem performHop_ring (N : NumSys T) (cap : Nat) (s : State) :
    (performHop N cap s).ring = pushRing s.ring s.ringWr s.sample := by
  simp only [performHop, detectWhenDue_ring, spreadPeaks_ring, analyze_ring]

theorem performHop_ringWr (N : NumSys T) (cap : Nat) (s : State) :
    (performHop N cap s).ringWr = s.ringWr + 128#11 := by
  simp only [performHop, detectWhenDue_ringWr, spreadPeaks_ringWr, analyze_ringWr]

theorem performHop_specHist (N : NumSys T) (cap : Nat) (s : State) :
    (performHop N cap s).specHist = putFrameAt s.specHist s.specWr 0
      (hopMagnitude N (performHop N cap s).ring (performHop N cap s).ringWr) := by
  simp only [performHop, detectWhenDue_specHist, detectWhenDue_ring, detectWhenDue_ringWr, spreadPeaks_specHist,
    spreadPeaks_ring, spreadPeaks_ringWr, analyze_specHist, analyze_ring, analyze_ringWr]

theorem performHop_specWr (N : NumSys T) (cap : Nat) (s : State) : (performHop N cap s).specWr = s.specWr + 1#8 := by
  simp only [performHop, detectWhenDue_specWr, spreadPeaks_specWr, analyze_specWr]

/-! ### The ring (R101) -/

/-- An element of an array does not change when its index is moved by the pointer's wrap. -/
theorem cell_add_mod {α : Type} {n : Nat} [NeZero n] (v : Vector α n) (a i : Nat) :
    cell v (a % n + i) = cell v (a + i) := by
  rw [← cell_mod v (a % n + i), Nat.mod_add_mod, cell_mod]

/-- A whole turn around an array comes back to the same element. -/
theorem cell_add_self {α : Type} {n : Nat} [NeZero n] (v : Vector α n) (i : Nat) : cell v (i + n) = cell v i := by
  rw [← cell_mod v (i + n), Nat.add_mod_right, cell_mod]

/-- The ring pointer after a hop's push, as a number. -/
theorem toNat_add_hopLen (wr : BitVec 11) : (wr + 128#11).toNat = (wr.toNat + 128) % 2048 := by
  rw [BitVec.toNat_add]
  rfl

/-- Oldest first, a pushed ring begins with what followed the 128 oldest samples. -/
theorem cell_pushRing_oldest (ring : Ring) (wr : BitVec 11) (smp : Vector Half 128) {i : Nat} (hi : i < 1920) :
    cell (pushRing ring wr smp) ((wr + 128#11).toNat + i) = cell ring (wr.toNat + 128 + i) := by
  rw [toNat_add_hopLen, cell_add_mod, Nat.add_assoc,
    cell_pushRing_old ring wr smp (Nat.le_add_right 128 i) (by omega)]

/-- Oldest first, a pushed ring ends in the new samples. -/
theorem cell_pushRing_newest (ring : Ring) (wr : BitVec 11) (smp : Vector Half 128) {j : Nat} (hj : j < 128) :
    cell (pushRing ring wr smp) ((wr + 128#11).toNat + 1920 + j) = cell smp j := by
  have hturn : wr.toNat + 128 + (1920 + j) = wr.toNat + j + 2048 := by omega
  rw [toNat_add_hopLen, Nat.add_assoc, cell_add_mod, hturn, cell_add_self, cell_pushRing_new ring wr smp hj]

/-- Settles O20: the ring after a performed hop is the pushed ring, and its pointer is 128 on. -/
theorem hopPushesTheSamples : Obligations.HopPushesTheSamples := by
  intro s hstop hmax
  refine ⟨_, exec_hop_of_performed hstop hmax, ?_⟩
  rw [performHop_ring, performHop_ringWr]
  exact ⟨fun j hj => cell_pushRing_new _ _ _ hj, fun j hlo hhi => cell_pushRing_old _ _ _ hlo hhi,
    toNat_add_hopLen _, fun i hi => cell_pushRing_oldest _ _ _ hi, fun j hj => cell_pushRing_newest _ _ _ hj⟩

/-! ### The spectrum history (R103, R107, R108) -/

/-- Element `i` of the window: the `i`-th oldest sample times the window's entry (R103). -/
theorem cell_windowFrame {α : Type} (N : NumSys α) (ring : Ring) (wr : BitVec 11) {i : Nat} (hi : i < 2048) :
    cell (windowFrame N ring wr) i = N.mul (N.ofInt (cell ring (wr.toNat + i)).toInt) (N.w i) := by
  rw [windowFrame, cell_tabulate_of_lt _ hi, sext16]

/-- Bin `k` of the magnitude frame of a hop: that of the transform of the window (R106, R107). -/
theorem cell_hopMagnitude {α : Type} (N : NumSys α) (ring : Ring) (wr : BitVec 11) {k : Nat} (hk : k < 1025) :
    cell (hopMagnitude N ring wr) k = binMagnitude N (cell (fft N (windowFrame N ring wr)) k) := by
  rw [hopMagnitude, magnitude, cell_tabulate_of_lt _ hk]

/-- Settles O21: the frame put at the old pointer is the magnitude frame of the pushed ring's window. -/
theorem hopStoresTheMagnitudes : Obligations.HopStoresTheMagnitudes := by
  intro s hstop hmax
  refine ⟨_, exec_hop_of_performed hstop hmax, ⟨windowFrame Config.num _ _, fun i hi => cell_windowFrame _ _ _ hi,
    fun k hk => ?_⟩, fun q hq hne => ?_, ?_⟩
  · rw [performHop_specHist, cell_putFrameAt _ _ _ s.specWr.isLt, slot_zero, if_pos rfl, cell_hopMagnitude _ _ _ hk,
      binMagnitude]
  · rw [performHop_specHist, cell_putFrameAt _ _ _ hq, slot_zero, if_neg hne]
  · rw [performHop_specWr, BitVec.toNat_add]
    rfl

end Sys2Proof.Machine
end

section
/-! Silence over every step (41_spectral.md R109): a zero ring gives the floor, no bin of a silent history reaches the
detector's least magnitude, and no access but a nonzero SAMPLE write or a hardware reset ends it. -/

namespace Sys2Proof.Machine

/-- An array whose every element is `x`. -/
theorem eq_replicate_of_cell {α : Type} {n : Nat} [NeZero n] {v : Vector α n} {x : α}
    (h : ∀ i, i < n → cell v i = x) : v = Vector.replicate n x :=
  ext_cell fun i hi => (h i hi).trans (cell_replicate _ _).symm

/-- Settles O38: the ring is the ring of zeros, and its magnitudes are the floor. -/
theorem silentRingGivesTheFloor : Obligations.SilentRingGivesTheFloor := by
  intro α N ring wr hlaws hring k _
  obtain ⟨val, L⟩ := hlaws
  rw [eq_replicate_of_cell hring, L.hopMagnitude_zero, cell_replicate]

/-! ### Silent states -/

/-- Silence is a matter of the ring, SAMPLE and the spectrum history. -/
theorem State.Silent.congr {s t : State} (h : s.Silent) (hring : t.ring = s.ring) (hsample : t.sample = s.sample)
    (hspec : t.specHist = s.specHist) : t.Silent where
  ring := by rw [hring]; exact h.ring
  sample := by rw [hsample]; exact h.sample
  spec := by rw [hspec]; exact h.spec

/-- A fresh call on a silent state is silent (R82). -/
theorem freshCall_silent {s : State} (h : s.Silent) : (freshCall s).Silent where
  ring i _ := cell_replicate _ i
  sample := h.sample
  spec q _ := .inl fun k _ => by rw [freshCall_specHist, cell_zeroHist, zeroFrame, cell_replicate]

/-- A write of the zero word to SAMPLE keeps silence (R43). -/
theorem writeSample_silent {s : State} (h : s.Silent) (i : Fin 64) :
    { s with sample := writeSampleWord s.sample i 0#32 }.Silent where
  ring := h.ring
  sample j hj := by
    rw [cell_writeSampleWord _ i.isLt hj, BitVec.extractLsb'_zero, BitVec.extractLsb'_zero, h.sample j hj, ite_self,
      ite_self]
  spec := h.spec

/-- The analyzer keeps silence: it pushes zeros on zeros and stores the floor (R101, R108). -/
theorem analyze_silent {s : State} (h : s.Silent) : (analyze Config.num s).Silent := by
  obtain ⟨val, L⟩ := num_lawful
  have hpush : (analyze Config.num s).ring = Vector.replicate 2048 0#16 := by
    rw [analyze_ring, eq_replicate_of_cell h.ring, eq_replicate_of_cell h.sample, pushRing_zero]
  refine ⟨fun i _ => by rw [hpush, cell_replicate], h.sample, fun q hq => ?_⟩
  rw [analyze_ring] at hpush
  rw [analyze_specHist, hpush, L.hopMagnitude_zero, cell_putFrameAt _ _ _ hq]
  split
  · exact .inr fun k _ => cell_replicate _ k
  · exact h.spec q hq

/-- No bin of a silent frame reaches MIN_MAG (R131). -/
theorem below_minMag_of_silentFrame {F : Frame T} (h : silentFrame F) (pos : Nat) :
    Config.num.lt (cell F pos) Config.num.minMag = true := by
  refine below_minMag num_lawful ?_
  rw [← cell_mod F pos, num_ofInt]
  have hpos : pos % 1025 < 1025 := Nat.mod_lt pos (by decide)
  exact h.imp (fun hzero => hzero _ hpos) (fun hfloor => hfloor _ hpos)

/-- A hop performed on silence does what the analyzer and the spreader do: the detector, due or not, finds nothing. -/
theorem performHop_of_silent {s : State} (cap : Nat) (h : s.Silent) :
    performHop Config.num cap s = spreadPeaks Config.num (analyze Config.num s) := by
  unfold performHop detectWhenDue
  split
  · exact detect_of_below fun pos => below_minMag_of_silentFrame ((analyze_silent h).spec _ (slot_lt _ _)) pos
  · rfl

/-! ### Commands on a silent state -/

/-- `t` is silent, with no ERR_DIV and, below the counter's limit, no ERR_OVF that `s` has not; with the peak lists of
`s`, unless the call was made fresh. -/
structure State.SilentTo (s t : State) (fresh : Prop) : Prop where
  silent : t.Silent
  div : t.err.div = true → s.err.div = true
  ovf : s.hops ≠ 0xFFFFFFFF#32 → t.err.ovf = true → s.err.ovf = true
  lists : ¬ fresh → t.band = s.band ∧ t.npeaks = s.npeaks

/-- A HOP on a silent state is refused, raises ERR_OVF at the counter's limit only, or counts a hop that finds nothing. -/
theorem exec_hop_of_silent {s : State} (h : s.Silent) : ∃ t, exec .hop s = .next t ∧ t.Silent ∧
    (t.band = s.band ∧ t.npeaks = s.npeaks) ∧ (t.err.div = true → s.err.div = true) ∧
    (s.hops ≠ 0xFFFFFFFF#32 → t.err = s.err) ∧ (s.hops ≠ 0xFFFFFFFF#32 → stop s = false → t.hops = s.hops + 1#32) := by
  cases hstop : stop s with
  | true => exact ⟨s, exec_hop_of_stop hstop, h, ⟨rfl, rfl⟩, id, fun _ => rfl, fun _ hgo => nomatch hgo⟩
  | false =>
    by_cases hmax : s.hops = 0xFFFFFFFF#32
    · exact ⟨_, exec_hop_of_limit hstop hmax, h.congr rfl rfl rfl, ⟨rfl, rfl⟩, id, absurd hmax, absurd hmax⟩
    · refine ⟨_, exec_hop_of_performed hstop hmax, ?_⟩
      rw [performHop_of_silent _ h]
      exact ⟨(analyze_silent h).congr rfl rfl rfl, ⟨rfl, rfl⟩, id, fun _ => rfl, fun _ _ => rfl⟩

/-- Every command keeps silence, and only INIT changes the peak lists. -/
theorem exec_silentTo {i : Instr} {s t : State} (h : s.Silent) (he : exec i s = .next t) :
    s.SilentTo t (i = .init) := by
  obtain ⟨-, rfl⟩ | ⟨hinit, rfl⟩ | ⟨rfl, -⟩ | ⟨-, rfl⟩ | ⟨b, -, rfl⟩ | ⟨b, index, -, rfl | ⟨p, -, rfl⟩⟩ :=
    exec_next_cases he
  case inr.inl => exact ⟨freshCall_silent h, nofun, nofun, absurd hinit⟩
  case inr.inr.inl =>
    obtain ⟨u, hu, hsilent, hlists, hdiv, herr, -⟩ := exec_hop_of_silent h
    obtain rfl := Host.Outcome.next.inj (hu.symm.trans he)
    exact ⟨hsilent, hdiv, fun hmax => by rw [herr hmax]; exact id, fun _ => hlists⟩
  all_goals exact ⟨h.congr rfl rfl rfl, id, fun _ => id, fun _ => ⟨rfl, rfl⟩⟩

/-! ### Steps on a silent state -/

/-- What a register write can do: execute a command written to CMD, write a SAMPLE word, or raise a fault (R43, R44). -/
theorem regWrite_next_cases {width : AccessWidth} {off : Offset} {v : Word} {s t : State}
    (h : regWrite width off v s = .next t) :
    (width = .bits32 ∧ off = 0#9 ∧ ∃ i, decode v = .ok i ∧ exec i s = .next t) ∨
      (width = .bits32 ∧ ∃ i : Fin 64, regAt off = some (.sample i) ∧
        t = { s with sample := writeSampleWord s.sample i v }) ∨
      t = raise .errCmd s ∨ t = raise .errAcc s := by
  unfold regWrite at h
  split at h
  next hcmd =>
    obtain ⟨hwidth, hoff⟩ := accessed_eq_cmd hcmd
    cases hdec : decode v with
    | ok i => exact .inl ⟨hwidth, hoff, i, rfl, by rwa [writeCommand_of_decode_ok hdec] at h⟩
    | error e =>
      rw [writeCommand_of_decode_error hdec] at h
      cases h
      exact .inr (.inr (.inl rfl))
  next i hsample =>
    cases h
    obtain ⟨hwidth, hreg⟩ := accessed_eq_some_iff.mp hsample
    exact .inr (.inl ⟨hwidth, i, hreg, rfl⟩)
  next =>
    cases h
    exact .inr (.inr (.inr rfl))

/-- A register read keeps silence (R42, R44). -/
theorem regRead_silentTo {s : State} (h : s.Silent) (width : AccessWidth) (off : Offset) (fresh : Prop) :
    s.SilentTo (regRead width off s) fresh := by
  obtain ⟨v, hread⟩ | hread := regRead_cases width off s <;> rw [hread] <;>
    exact ⟨h.congr rfl rfl rfl, id, fun _ => id, fun _ => ⟨rfl, rfl⟩⟩

/-- A register write keeps silence unless it is a legal one of a nonzero word to SAMPLE, and only one of INIT's word to CMD
changes the peak lists. -/
theorem regWrite_silentTo {width : AccessWidth} {off : Offset} {v : Word} {s t : State} (h : s.Silent)
    (he : regWrite width off v s = .next t)
    (hzero : width = .bits32 → off.toNat % 4 = 0 → 0x100 ≤ off.toNat → v = 0#32) :
    s.SilentTo t (width = .bits32 ∧ off = 0#9 ∧ v = 0x01000000#32) := by
  obtain ⟨hwidth, hoff, i, hdec, hexec⟩ | ⟨hwidth, i, hreg, rfl⟩ | rfl | rfl := regWrite_next_cases he
  · obtain ⟨hsilent, hdiv, hovf, hlists⟩ := exec_silentTo h hexec
    refine ⟨hsilent, hdiv, hovf, fun hinit => hlists ?_⟩
    rintro rfl
    exact hinit ⟨hwidth, hoff, decode_eq_init_iff.mp hdec⟩
  · obtain ⟨haligned, ⟨-, hcmd⟩ | ⟨-, -, -, hro⟩ | ⟨hspace, -⟩⟩ := regAt_eq_some_cases hreg
    · cases hcmd
    · cases hro
    · obtain rfl := hzero hwidth haligned hspace
      exact ⟨writeSample_silent h i, id, fun _ => id, fun _ => ⟨rfl, rfl⟩⟩
  all_goals exact ⟨h.congr rfl rfl rfl, id, fun _ => id, fun _ => ⟨rfl, rfl⟩⟩

/-- A step keeps silence unless it is a hardware reset or a legal write of a nonzero word to SAMPLE. -/
theorem step_silentTo {s t : State} (h : s.Silent) (hstep : step s = .next t) (hreset : s.pending.head? ≠ some .reset)
    (hzero : ∀ off v, s.pending.head? = some (.write .bits32 off v) → off.toNat % 4 = 0 → 0x100 ≤ off.toNat →
      v = 0#32) :
    s.SilentTo t (s.pending.head? = some (.write .bits32 0#9 0x01000000#32)) := by
  obtain ⟨-, rfl⟩ | ⟨e, rest, hp, he⟩ := step_next_cases hstep
  · exact ⟨h, id, fun _ => id, fun _ => ⟨rfl, rfl⟩⟩
  have htake : { s with pending := rest }.Silent := h.congr rfl rfl rfl
  rw [hp, List.head?_cons] at hreset hzero ⊢
  cases e with
  | reset => exact absurd rfl hreset
  | read width off =>
    cases he
    obtain ⟨hsilent, hdiv, hovf, hlists⟩ := regRead_silentTo htake width off False
    exact ⟨hsilent, hdiv, hovf, fun _ => hlists not_false⟩
  | write width off v =>
    obtain ⟨hsilent, hdiv, hovf, hlists⟩ :=
      regWrite_silentTo htake he (by rintro rfl; exact hzero off v rfl)
    refine ⟨hsilent, hdiv, hovf, fun hinit => hlists ?_⟩
    rintro ⟨rfl, rfl, rfl⟩
    exact hinit rfl

/-- Settles O39: the step of a silent state keeps silence, and so does its HOP, whose detector finds nothing. -/
theorem silenceIsKeptAndRecordsNothing : Obligations.SilenceIsKeptAndRecordsNothing := by
  refine ⟨fun s t h hstep hreset hzero => ?_, fun s h => ?_⟩
  · obtain ⟨hsilent, hdiv, hovf, hlists⟩ := step_silentTo h hstep hreset hzero
    exact ⟨hsilent, hdiv, hovf, fun _ => hlists⟩
  · obtain ⟨t, ht, hsilent, hlists, -, herr, hhops⟩ := exec_hop_of_silent h
    exact ⟨t, ht, hsilent, fun _ => hlists, herr, hhops⟩

end Sys2Proof.Machine
end

section
/-! Bit reversal and the butterfly stages (41_spectral.md R105, R106), in any NUM. -/

namespace Sys2Proof.Machine

/-! ### Bit reversal (R105) -/

/-- A reversal of `k` bits is a number of `k` bits. -/
theorem bitRev_lt (k i : Nat) : bitRev k i < 2 ^ k := by
  induction k generalizing i with
  | zero => exact Nat.one_pos
  | succ k ih =>
    have hlow := ih (i / 2)
    have htop : i % 2 * 2 ^ k ≤ 1 * 2 ^ k := Nat.mul_le_mul_right _ (Nat.le_of_lt_succ (Nat.mod_lt i Nat.two_pos))
    rw [bitRev, Nat.pow_succ]
    omega

/-- Bit `b` of a number of `k` bits is bit `k - 1 - b` of its reversal. -/
theorem testBit_bitRev {k b : Nat} (hb : b < k) (i : Nat) : (bitRev k i).testBit (k - 1 - b) = i.testBit b := by
  induction k generalizing i b with
  | zero => exact absurd hb (Nat.not_lt_zero b)
  | succ k ih =>
    rw [bitRev, Nat.mul_comm, Nat.testBit_two_pow_mul_add _ (bitRev_lt k _)]
    cases b with
    | zero => simp
    | succ b =>
      have hindex : k + 1 - 1 - (b + 1) = k - 1 - b := by omega
      rw [hindex, if_pos (by omega), ih (Nat.lt_of_succ_lt_succ hb), Nat.testBit_div_two]

/-- Reversing `k` bits twice gives the number back. -/
theorem bitRev_bitRev {k i : Nat} (hi : i < 2 ^ k) : bitRev k (bitRev k i) = i := by
  refine Nat.eq_of_testBit_eq fun b => ?_
  by_cases hb : b < k
  · have hback : k - 1 - (k - 1 - b) = b := by omega
    have h := testBit_bitRev (show k - 1 - b < k by omega) (bitRev k i)
    rw [hback] at h
    rw [h, testBit_bitRev hb]
  · have hle : 2 ^ k ≤ 2 ^ b := Nat.pow_le_pow_right Nat.two_pos (Nat.not_lt.mp hb)
    rw [Nat.testBit_lt_two_pow ((bitRev_lt k _).trans_le hle), Nat.testBit_lt_two_pow (hi.trans_le hle)]

/-- The permuted array at index `i` holds the frame's element at the reversal of `i`. -/
theorem cell_bitReverse {α : Type} {n : Nat} [NeZero n] (N : NumSys α) (k : Nat) (frame : Vector α n) {i : Nat}
    (hi : i < n) : cell (bitReverse N k frame) i = (cell frame (bitRev k i), N.ofInt 0) := by
  rw [bitReverse, cell_tabulate_of_lt _ hi]

/-- Settles O35: the bit rule of the reversal on eleven bits, which is its own inverse. -/
theorem bitReversalPermutes : Obligations.BitReversalPermutes := by
  intro α N frame i hi
  have hlt : rev11 i < 2048 := bitRev_lt 11 i
  have hinv : rev11 (rev11 i) = i := bitRev_bitRev (k := 11) hi
  refine ⟨hlt, hinv, fun b hb => testBit_bitRev hb i, ?_⟩
  rw [cell_bitReverse N 11 frame hlt]
  exact congrArg (fun j => (cell frame j, N.ofInt 0)) hinv

/-! ### One butterfly stage (R106) -/

section Stage

/-- The elements of group `g` of a stage lie within the array. -/
theorem group_index_lt {n g m r : Nat} (hg : g < n / m) (hr : r < m) : g * m + r < n :=
  calc g * m + r < g * m + m := Nat.add_lt_add_left hr _
    _ = (g + 1) * m := (Nat.succ_mul g m).symm
    _ ≤ n / m * m := Nat.mul_le_mul_right m hg
    _ ≤ n := Nat.div_mul_le_self n m

variable {α : Type} {n : Nat} [NeZero n] (N : NumSys α) (A : Vector (α × α) n) {s g j : Nat}

/-- The upper output of butterfly `j` of group `g`. -/
theorem cell_butterflyStage_upper (hg : g < n / 2 ^ s) (hj : j < 2 ^ s / 2) :
    cell (butterflyStage N s A) (g * 2 ^ s + j) = butterflyUpper N (N.tw (j * (n / 2 ^ s))) (cell A (g * 2 ^ s + j))
      (cell A (g * 2 ^ s + j + 2 ^ s / 2)) := by
  have hjm : j < 2 ^ s := by omega
  have hr : (g * 2 ^ s + j) % 2 ^ s = j := by rw [Nat.mul_add_mod_self_right, Nat.mod_eq_of_lt hjm]
  simp only [butterflyStage, cell_tabulate_of_lt _ (group_index_lt hg hjm), hr, if_pos hj]

/-- The lower output of butterfly `j` of group `g`. -/
theorem cell_butterflyStage_lower (hg : g < n / 2 ^ s) (hj : j < 2 ^ s / 2) :
    cell (butterflyStage N s A) (g * 2 ^ s + j + 2 ^ s / 2) = butterflyLower N (N.tw (j * (n / 2 ^ s)))
      (cell A (g * 2 ^ s + j)) (cell A (g * 2 ^ s + j + 2 ^ s / 2)) := by
  have hjm : j + 2 ^ s / 2 < 2 ^ s := by omega
  have hlt : g * 2 ^ s + j + 2 ^ s / 2 < n := (Nat.add_assoc _ _ _).trans_lt (group_index_lt hg hjm)
  have hr : (g * 2 ^ s + j + 2 ^ s / 2) % 2 ^ s = j + 2 ^ s / 2 := by
    rw [Nat.add_assoc, Nat.mul_add_mod_self_right, Nat.mod_eq_of_lt hjm]
  simp only [butterflyStage, cell_tabulate_of_lt _ hlt, hr, if_neg (Nat.le_add_left _ j).not_gt, Nat.add_sub_cancel]

end Stage

/-- Settles O36: the two outputs of a butterfly, with R106's product written out. -/
theorem stagePerformsItsButterflies : Obligations.StagePerformsItsButterflies :=
  fun _ N A _ _ _ _ _ hg hj => ⟨cell_butterflyStage_upper N A hg hj, cell_butterflyStage_lower N A hg hj⟩

end Sys2Proof.Machine
end

section
/-! The reference window table (41_spectral.md R102): a squared sine, and its sum. -/

namespace Sys2Proof.Machine

/-- The window formula as a squared sine, `sin(pi (i+1) / 2049)^2`. -/
theorem referenceWindow_eq_sin_sq (i : Nat) :
    referenceWindow i = Real.sin (Real.pi * ((i : ℝ) + 1) / 2049) ^ 2 := by
  have hdouble : 2 * Real.pi * ((i : ℝ) + 1) / (Config.wDen : ℝ) = 2 * (Real.pi * ((i : ℝ) + 1) / 2049) := by
    rw [Config.wDen]
    push_cast
    ring
  rw [referenceWindow, hdouble, Real.cos_two_mul, Real.cos_sq']
  ring

/-- An entry of the table is not 0: its sine is that of an angle strictly between 0 and `pi`. -/
theorem referenceWindow_pos {i : Nat} (hi : i < 2048) : 0 < referenceWindow i := by
  have hlt : (i : ℝ) + 1 < 2049 := by exact_mod_cast Nat.succ_lt_succ hi
  rw [referenceWindow_eq_sin_sq]
  refine pow_pos (Real.sin_pos_of_pos_of_lt_pi (by positivity) ?_) 2
  rw [div_lt_iff₀ (by norm_num)]
  exact mul_lt_mul_of_pos_left hlt Real.pi_pos

/-- An entry of the table is not 1: `i + 1` is not half of 2049, which is odd. -/
theorem referenceWindow_lt_one (i : Nat) : referenceWindow i < 1 := by
  have hcos : Real.cos (Real.pi * ((i : ℝ) + 1) / 2049) ≠ 0 := by
    rw [Ne, Real.cos_eq_zero_iff]
    rintro ⟨k, hk⟩
    have hreal : 2 * ((i : ℝ) + 1) = (2 * k + 1) * 2049 := by
      have hpi := Real.pi_ne_zero
      field_simp at hk
      linarith
    have hint : 2 * ((i : ℤ) + 1) = (2 * k + 1) * 2049 := by exact_mod_cast hreal
    omega
  rw [referenceWindow_eq_sin_sq, Real.sin_sq]
  have hpos := pow_pos (abs_pos.mpr hcos) 2
  rw [sq_abs] at hpos
  linarith

/-- The table is symmetric: the angles of the entries `i` and `2047 - i` add up to `2 pi`. -/
theorem referenceWindow_symm {i : Nat} (hi : i < 2048) : referenceWindow i = referenceWindow (2047 - i) := by
  have hcast : ((2047 - i : Nat) : ℝ) = 2047 - (i : ℝ) := by
    rw [Nat.cast_sub (Nat.le_of_lt_succ hi)]
    norm_num
  have hangle : Real.pi * (2047 - (i : ℝ) + 1) / 2049 = Real.pi - Real.pi * ((i : ℝ) + 1) / 2049 := by ring
  rw [referenceWindow_eq_sin_sq, referenceWindow_eq_sin_sq, hcast, hangle, Real.sin_pi_sub]

/-- The cosines of `n` angles evenly spread over a turn add up to 0: the real part of the sum of the `n`-th roots of
unity. -/
theorem sum_cos_turn {n : Nat} (hn : 1 < n) : ∑ j ∈ Finset.range n, Real.cos (2 * Real.pi * (j : ℝ) / (n : ℝ)) = 0 := by
  have hroots := (Complex.isPrimitiveRoot_exp n (by omega)).geom_sum_eq_zero hn
  have hre (j : Nat) :
      (Complex.exp (2 * Real.pi * Complex.I / n) ^ j).re = Real.cos (2 * Real.pi * (j : ℝ) / (n : ℝ)) := by
    rw [← Complex.exp_nat_mul, ← Complex.exp_ofReal_mul_I_re]
    congr 2
    push_cast
    ring
  simpa only [Complex.re_sum, hre, Complex.zero_re] using congrArg Complex.re hroots

/-- The cosines of the window formula add up to -1: with the angle 0 they make a whole turn. -/
theorem sum_cos_window :
    ∑ i ∈ Finset.range 2048, Real.cos (2 * Real.pi * ((i : ℝ) + 1) / (Config.wDen : ℝ)) = -1 := by
  have h := sum_cos_turn (show 1 < Config.wDen by decide)
  rw [show Config.wDen = 2048 + 1 from rfl, Finset.sum_range_succ'] at h
  simp only [Nat.cast_zero, mul_zero, zero_div, Real.cos_zero] at h
  simpa [Config.wDen] using eq_neg_of_add_eq_zero_left h

/-- Settles O34: the squared sine gives the bounds and the symmetry, the sum of the cosines the sum. -/
theorem windowTableShape : Obligations.WindowTableShape := by
  refine ⟨fun i hi => ⟨referenceWindow_pos hi, referenceWindow_lt_one i, referenceWindow_symm hi⟩, ?_⟩
  simp only [referenceNum_w, referenceWindow, ← Finset.mul_sum, Finset.sum_sub_distrib, sum_cos_window,
    Finset.sum_const, Finset.card_range]
  norm_num

end Sys2Proof.Machine
end

section
/-! The butterflies compute the discrete Fourier transform (41_spectral.md R104): in the complex numbers, decimation in
time by the twiddle of 2048 points. -/

namespace Sys2Proof.Machine

/-! ### Pairs of reals as complex numbers -/

/-- A pair of real and imaginary part as a complex number. -/
def toComplex (p : ℝ × ℝ) : ℂ := ⟨p.1, p.2⟩

theorem toComplex_injective : Function.Injective toComplex := fun _ _ h =>
  Prod.ext (congrArg Complex.re h) (congrArg Complex.im h)

theorem toComplex_ofReal (x : ℝ) : toComplex (x, 0) = x := rfl

/-- The upper output of a butterfly is `u + t b` (R106). -/
theorem toComplex_butterflyUpper (t u b : ℝ × ℝ) :
    toComplex (butterflyUpper referenceNum t u b) = toComplex u + toComplex t * toComplex b := rfl

/-- The lower output of a butterfly is `u - t b` (R106). -/
theorem toComplex_butterflyLower (t u b : ℝ × ℝ) :
    toComplex (butterflyLower referenceNum t u b) = toComplex u - toComplex t * toComplex b := rfl

/-! ### The root of unity -/

/-- The root of unity of the transform of 2048 points, `exp(-2 pi i / 2048)`. -/
noncomputable def fftRoot : ℂ := Complex.exp ((-(2 * Real.pi / 2048) : ℝ) * Complex.I)

/-- Its powers are the twiddles (R105). -/
theorem fftRoot_pow (j : Nat) : fftRoot ^ j = toComplex (referenceTwiddle j) := by
  have hexp : fftRoot ^ j = Complex.exp ((-(2 * Real.pi * (j : ℝ) / 2048) : ℝ) * Complex.I) := by
    rw [fftRoot, ← Complex.exp_nat_mul]
    congr 1
    push_cast
    ring
  rw [hexp]
  refine Complex.ext ?_ ?_
  · rw [Complex.exp_ofReal_mul_I_re, Real.cos_neg]
    rfl
  · rw [Complex.exp_ofReal_mul_I_im, Real.sin_neg]
    rfl

/-- Half a turn is -1. -/
theorem fftRoot_pow_half : fftRoot ^ 1024 = -1 := by
  have hangle : 2 * Real.pi * ((1024 : Nat) : ℝ) / 2048 = Real.pi := by
    push_cast
    ring
  rw [fftRoot_pow, referenceTwiddle, hangle, Real.cos_pi, Real.sin_pi, neg_zero, toComplex_ofReal]
  norm_num

/-- The transform of R104 in the complex numbers. -/
theorem toComplex_dft (frame : Vector ℝ 2048) (k : Nat) :
    toComplex (dft frame k) = ∑ n ∈ Finset.range 2048, ((cell frame n : ℝ) : ℂ) * fftRoot ^ (n * k) := by
  simp only [fftRoot_pow]
  apply Complex.ext <;> simp [toComplex, dft, referenceTwiddle]

/-! ### Transforms of a part of the frame -/

/-- The transform, at `r`, of the `2 ^ s` elements of `x` that lie `2 ^ d` apart from the reversal of `g` on: what stage `s`
of `s + d` leaves at element `r` of its group `g`. -/
noncomputable def partDft (x : Nat → ℂ) (s d g r : Nat) : ℂ :=
  ∑ m ∈ Finset.range (2 ^ s), x (m * 2 ^ d + bitRev d g) * fftRoot ^ (2 ^ d * m * r)

/-- A sum over an even number of terms is the sum over the even and the sum over the odd ones. -/
theorem sum_range_even_add_odd (f : Nat → ℂ) (n : Nat) : ∑ i ∈ Finset.range (2 * n), f i =
    ∑ i ∈ Finset.range n, f (2 * i) + ∑ i ∈ Finset.range n, f (2 * i + 1) := by
  induction n with
  | zero => simp
  | succ n ih =>
    rw [Nat.mul_succ, Finset.sum_range_succ, Finset.sum_range_succ, ih, Finset.sum_range_succ, Finset.sum_range_succ]
    ring

/-- Decimation in time: the even elements are those of group `2g` of the stage before, the odd ones those of `2g + 1`. -/
theorem partDft_succ (x : Nat → ℂ) (s d g r : Nat) : partDft x (s + 1) d g r =
    partDft x s (d + 1) (2 * g) r + fftRoot ^ (2 ^ d * r) * partDft x s (d + 1) (2 * g + 1) r := by
  have heven : bitRev (d + 1) (2 * g) = bitRev d g := by simp [bitRev]
  have hodd : bitRev (d + 1) (2 * g + 1) = 2 ^ d + bitRev d g := by
    rw [bitRev, show (2 * g + 1) % 2 = 1 by omega, show (2 * g + 1) / 2 = g by omega, Nat.one_mul]
  rw [partDft, Nat.pow_succ', sum_range_even_add_odd, partDft, partDft, heven, hodd, Finset.mul_sum]
  congr 1 <;> refine Finset.sum_congr rfl fun m _ => ?_
  · congr 2 <;> ring
  · rw [mul_left_comm, ← pow_add]
    congr 2 <;> ring

/-- In a transform of `2 ^ s` of the 2048 points, `2 ^ s` further on is a whole turn. -/
theorem partDft_period (x : Nat → ℂ) {s d : Nat} (h : s + d = 11) (g r : Nat) :
    partDft x s d g (r + 2 ^ s) = partDft x s d g r := by
  refine Finset.sum_congr rfl fun m _ => ?_
  have hturn : 2 ^ d * m * (r + 2 ^ s) = 2 ^ d * m * r + 1024 * (2 * m) := by
    have hpow : 2 ^ s * 2 ^ d = 2048 := by rw [← pow_add, h]; rfl
    linear_combination m * hpow
  rw [hturn, pow_add, pow_mul fftRoot 1024, fftRoot_pow_half, pow_mul (-1), neg_one_sq, one_pow, mul_one]

/-- Half a transform further on the odd elements change sign. -/
theorem partDft_succ_half (x : Nat → ℂ) {s d : Nat} (h : s + 1 + d = 11) (g r : Nat) :
    partDft x (s + 1) d g (r + 2 ^ s) =
      partDft x s (d + 1) (2 * g) r - fftRoot ^ (2 ^ d * r) * partDft x s (d + 1) (2 * g + 1) r := by
  have hhalf : 2 ^ d * (r + 2 ^ s) = 2 ^ d * r + 1024 := by
    have hpow : 2 ^ s * 2 ^ d = 1024 := by rw [← pow_add, show s + d = 10 by omega]; rfl
    linear_combination hpow
  have hprev : s + (d + 1) = 11 := by omega
  rw [partDft_succ, partDft_period x hprev, partDft_period x hprev, hhalf, pow_add, fftRoot_pow_half]
  ring

/-! ### The stages -/

/-- After `k + 1` stages comes stage `k + 1` of what the first `k` leave. -/
theorem butterflies_succ {α : Type} {n : Nat} [NeZero n] (N : NumSys α) (k : Nat) (A : Vector (α × α) n) :
    butterflies N (k + 1) A = butterflyStage N (k + 1) (butterflies N k A) := by
  rw [butterflies, List.range'_1_concat, List.foldl_append, List.foldl_cons, List.foldl_nil, Nat.add_comm 1 k]
  rfl

/-- `A` holds, in every group of stage `s`, the transform of the group's part of `x`. -/
def HoldsPartDfts (x : Nat → ℂ) (s d : Nat) (A : Vector (ℝ × ℝ) 2048) : Prop :=
  ∀ g r, g < 2 ^ d → r < 2 ^ s → toComplex (cell A (g * 2 ^ s + r)) = partDft x s d g r

/-- The permuted frame holds the transforms of single elements (R105). -/
theorem bitReverse_holdsPartDfts (frame : Vector ℝ 2048) :
    HoldsPartDfts (fun n => (cell frame n : ℝ)) 0 11 (bitReverse referenceNum 11 frame) := by
  intro g r hg hr
  obtain rfl : r = 0 := Nat.lt_one_iff.mp hr
  rw [pow_zero, mul_one, add_zero, cell_bitReverse _ _ _ hg]
  simp [partDft, toComplex_ofReal]

/-- Butterfly `j` of group `g` joins the transforms of the groups `2g` and `2g + 1` of the stage before (R106). -/
theorem butterflyStage_partDft {x : Nat → ℂ} {s d : Nat} (h : s + 1 + d = 11) {A : Vector (ℝ × ℝ) 2048}
    (hA : HoldsPartDfts x s (d + 1) A) {g j : Nat} (hg : g < 2 ^ d) (hj : j < 2 ^ s) :
    toComplex (cell (butterflyStage referenceNum (s + 1) A) (g * 2 ^ (s + 1) + j)) = partDft x (s + 1) d g j ∧
      toComplex (cell (butterflyStage referenceNum (s + 1) A) (g * 2 ^ (s + 1) + j + 2 ^ s)) =
        partDft x (s + 1) d g (j + 2 ^ s) := by
  have hgroups : 2048 / 2 ^ (s + 1) = 2 ^ d := by
    rw [show 2048 = 2 ^ (s + 1) * 2 ^ d by rw [← pow_add, h]; rfl, Nat.mul_div_cancel_left _ (Nat.two_pow_pos _)]
  have hhalf : 2 ^ (s + 1) / 2 = 2 ^ s := by rw [Nat.pow_succ, Nat.mul_div_cancel _ Nat.two_pos]
  have hu : toComplex (cell A (g * 2 ^ (s + 1) + j)) = partDft x s (d + 1) (2 * g) j := by
    rw [← hA (2 * g) j (by omega) hj, show g * 2 ^ (s + 1) + j = 2 * g * 2 ^ s + j by ring]
  have hb : toComplex (cell A (g * 2 ^ (s + 1) + j + 2 ^ s)) = partDft x s (d + 1) (2 * g + 1) j := by
    rw [← hA (2 * g + 1) j (by omega) hj, show g * 2 ^ (s + 1) + j + 2 ^ s = (2 * g + 1) * 2 ^ s + j by ring]
  have hupper := cell_butterflyStage_upper referenceNum A (hgroups.symm ▸ hg) (hhalf.symm ▸ hj)
  have hlower := cell_butterflyStage_lower referenceNum A (hgroups.symm ▸ hg) (hhalf.symm ▸ hj)
  rw [hgroups, hhalf, Nat.mul_comm j, referenceNum_tw] at hupper hlower
  constructor
  · rw [hupper, toComplex_butterflyUpper, hu, hb, ← fftRoot_pow, partDft_succ]
  · rw [hlower, toComplex_butterflyLower, hu, hb, ← fftRoot_pow, partDft_succ_half x h]

/-- A stage takes the transforms of its groups from those of the stage before. -/
theorem butterflyStage_holdsPartDfts {x : Nat → ℂ} {s d : Nat} (h : s + 1 + d = 11) {A : Vector (ℝ × ℝ) 2048}
    (hA : HoldsPartDfts x s (d + 1) A) : HoldsPartDfts x (s + 1) d (butterflyStage referenceNum (s + 1) A) := by
  intro g r hg hr
  by_cases hupper : r < 2 ^ s
  · exact (butterflyStage_partDft h hA hg hupper).1
  · obtain ⟨j, rfl⟩ := Nat.exists_eq_add_of_le' (Nat.not_lt.mp hupper)
    rw [← Nat.add_assoc]
    exact (butterflyStage_partDft h hA hg (by omega)).2

/-- After `s` stages every group holds the transform of its part of the frame. -/
theorem butterflies_holdsPartDfts (frame : Vector ℝ 2048) {s d : Nat} (h : s + d = 11) :
    HoldsPartDfts (fun n => (cell frame n : ℝ)) s d (butterflies referenceNum s (bitReverse referenceNum 11 frame)) := by
  induction s generalizing d with
  | zero =>
    obtain rfl : d = 11 := by omega
    exact bitReverse_holdsPartDfts frame
  | succ s ih =>
    rw [butterflies_succ]
    exact butterflyStage_holdsPartDfts h (ih (by omega))

/-- Settles O37: the one group after the last stage holds the transform of the whole frame. -/
theorem fftComputesTheDft : Obligations.FftComputesTheDft := by
  intro frame k hk
  have hall := butterflies_holdsPartDfts frame (s := 11) (d := 0) rfl 0 k Nat.one_pos hk
  refine toComplex_injective ?_
  rw [fft, Config.stages, toComplex_dft]
  simpa [partDft, bitRev] using hall

end Sys2Proof.Machine
end

section
/-! What a performed HOP stores in the spread history (42_spreader.md R120 to R123). -/

namespace Sys2Proof.Machine

/-! ### The slots of the history the spreader writes -/

/-- Offsets that differ modulo the length of the history are different slots. -/
theorem slot_ne (wr : BitVec 8) {a b : Int} (h : a % 256 ≠ b % 256) : slot wr a ≠ slot wr b := by
  unfold slot
  omega

/-- The time spread raises the frames at -1, -3 and -6, each by the maximum the one before it was raised to (R122). -/
theorem frameAt_timeSpreadHist {α : Type} (N : NumSys α) (h : Hist α) (wr : BitVec 8) (m : Frame α) :
    frameAt (timeSpreadHist N h wr m) wr (-1) = maxFrame N (frameAt h wr (-1)) m ∧
      frameAt (timeSpreadHist N h wr m) wr (-3) =
        maxFrame N (frameAt h wr (-3)) (frameAt (timeSpreadHist N h wr m) wr (-1)) ∧
      frameAt (timeSpreadHist N h wr m) wr (-6) =
        maxFrame N (frameAt h wr (-6)) (frameAt (timeSpreadHist N h wr m) wr (-3)) := by
  have h13 : slot wr (-1) ≠ slot wr (-3) := slot_ne wr (by decide)
  have h16 : slot wr (-1) ≠ slot wr (-6) := slot_ne wr (by decide)
  have h36 : slot wr (-3) ≠ slot wr (-6) := slot_ne wr (by decide)
  simp [timeSpreadHist_eq, frameAt_putFrameAt, h13, h16, h36]

/-- The time spread writes no frame but those at -1, -3 and -6 (R122). -/
theorem cell_timeSpreadHist_of_ne {α : Type} (N : NumSys α) (h : Hist α) (wr : BitVec 8) (m : Frame α) {q : Nat}
    (hq : q < 256) (h1 : q ≠ slot wr (-1)) (h3 : q ≠ slot wr (-3)) (h6 : q ≠ slot wr (-6)) :
    cell (timeSpreadHist N h wr m) q = cell h q := by
  simp only [timeSpreadHist_eq, cell_putFrameAt _ _ _ hq, h1, h3, h6, if_false]

/-! ### What the spreader leaves, after the whole hop -/

theorem performHop_spreadWr (N : NumSys T) (cap : Nat) (s : State) :
    (performHop N cap s).spreadWr = s.spreadWr + 1#8 := by
  simp only [performHop, detectWhenDue_spreadWr, spreadPeaks_spreadWr, analyze_spreadWr]

/-- The frame put at the old pointer is the frequency spread of the spectrum frame the hop has stored (R120, R121). -/
theorem cell_performHop_spreadHist_new (N : NumSys T) (cap : Nat) (s : State) :
    cell (performHop N cap s).spreadHist s.spreadWr.toNat =
      freqSpread N (cell (performHop N cap s).specHist s.specWr.toNat) := by
  have hspec : cell (performHop N cap s).specHist s.specWr.toNat = copyLatest (analyze N s) := by
    rw [copyLatest_analyze, performHop_specHist, performHop_ring, performHop_ringWr,
      cell_putFrameAt _ _ _ s.specWr.isLt, slot_zero, if_pos rfl]
  rw [hspec, performHop, detectWhenDue_spreadHist, spreadPeaks_spreadHist, analyze_spreadWr,
    cell_putFrameAt _ _ _ s.spreadWr.isLt, slot_zero, if_pos rfl]

/-- Every other frame is as the time spread of that frame leaves it (R122, R123). -/
theorem cell_performHop_spreadHist_old (N : NumSys T) (cap : Nat) (s : State) {q : Nat} (hq : q < 256)
    (hne : q ≠ s.spreadWr.toNat) :
    cell (performHop N cap s).spreadHist q =
      cell (timeSpreadHist N s.spreadHist s.spreadWr (cell (performHop N cap s).spreadHist s.spreadWr.toNat)) q := by
  simp only [performHop, detectWhenDue_spreadHist, spreadPeaks_spreadHist, analyze_spreadHist, analyze_spreadWr,
    cell_putFrameAt _ _ _ hq, cell_putFrameAt _ _ _ s.spreadWr.isLt, slot_zero, hne, if_false, if_true]

/-- The frames at -1, -3 and -6 are raised by the new frame and, from one to the next, by the maximum carried (R122). -/
theorem frameAt_performHop_spreadHist (N : NumSys T) (cap : Nat) (s : State) :
    frameAt (performHop N cap s).spreadHist s.spreadWr (-1) =
        maxFrame N (frameAt s.spreadHist s.spreadWr (-1)) (cell (performHop N cap s).spreadHist s.spreadWr.toNat) ∧
      frameAt (performHop N cap s).spreadHist s.spreadWr (-3) =
        maxFrame N (frameAt s.spreadHist s.spreadWr (-3)) (frameAt (performHop N cap s).spreadHist s.spreadWr (-1)) ∧
      frameAt (performHop N cap s).spreadHist s.spreadWr (-6) =
        maxFrame N (frameAt s.spreadHist s.spreadWr (-6))
          (frameAt (performHop N cap s).spreadHist s.spreadWr (-3)) := by
  have hold : ∀ o : Int, o % 256 ≠ 0 → frameAt (performHop N cap s).spreadHist s.spreadWr o =
      frameAt (timeSpreadHist N s.spreadHist s.spreadWr (cell (performHop N cap s).spreadHist s.spreadWr.toNat))
        s.spreadWr o :=
    fun o ho => cell_performHop_spreadHist_old N cap s (slot_lt _ _) (slot_zero s.spreadWr ▸ slot_ne _ ho)
  rw [hold (-1) (by decide), hold (-3) (by decide), hold (-6) (by decide)]
  exact frameAt_timeSpreadHist _ _ _ _

/-! ### The statements -/

/-- Settles O22: the frame at the old pointer is the frequency spread of the one at the old spectrum pointer. -/
theorem hopStoresTheSpreadFrame : Obligations.HopStoresTheSpreadFrame := by
  intro s hstop hmax
  refine ⟨_, exec_hop_of_performed hstop hmax, ?_⟩
  rw [cell_performHop_spreadHist_new]
  refine ⟨fun pos hpos => cell_freqSpread _ _ hpos, cell_freqSpread_top _ _ (by decide) (by decide),
    cell_freqSpread_top _ _ (by decide) (by decide), ?_, performHop_hops _ _ hmax⟩
  rw [performHop_spreadWr, BitVec.toNat_add]
  rfl

/-- Settles O23: bin by bin the three older frames are the maxima carried, and no other slot is written. -/
theorem hopSpreadsInTime : Obligations.HopSpreadsInTime := by
  intro s hstop hmax
  have hq1 : (s.spreadWr.toNat + 255) % 256 = slot s.spreadWr (-1) := (slot_neg _ 1 (by decide)).symm
  have hq3 : (s.spreadWr.toNat + 253) % 256 = slot s.spreadWr (-3) := (slot_neg _ 3 (by decide)).symm
  have hq6 : (s.spreadWr.toNat + 250) % 256 = slot s.spreadWr (-6) := (slot_neg _ 6 (by decide)).symm
  refine ⟨_, exec_hop_of_performed hstop hmax, ?_⟩
  rw [hq1, hq3, hq6]
  refine ⟨fun pos hpos => ?_, fun q hq h0 h1 h3 h6 => ?_⟩
  · obtain ⟨e1, e3, e6⟩ := frameAt_performHop_spreadHist Config.num Config.peakCap s
    have c1 := (congrArg (cell · pos) e1).trans (cell_maxFrame _ _ _ hpos)
    have c3 := (congrArg (cell · pos) e3).trans (cell_maxFrame _ _ _ hpos)
    have c6 := (congrArg (cell · pos) e6).trans (cell_maxFrame _ _ _ hpos)
    rw [c1] at c3
    rw [c3] at c6
    exact ⟨c1, c3, c6⟩
  · rw [cell_performHop_spreadHist_old _ _ _ hq h0, cell_timeSpreadHist_of_ne _ _ _ _ hq h1 h3 h6]

end Sys2Proof.Machine
end

section
/-! The quantizer and the record step in any NUM (43_detector.md R135 to R137), and the records of a hop after
which neither ERR_DIV nor ERR_OVF is set (R130, 60_exceptions.md R182). -/

namespace Sys2Proof.Machine

/-! ### The record step (R137) -/

/-- The record of a log-magnitude and a corrected bin (30_encoding.md R68). -/
def peakOf {α : Type} (N : NumSys α) (hops : Word) (pm cb : α) : FrequencyPeak :=
  { frame := hops - 46#32, mag := BitVec.ofInt 16 (N.trunc pm), bin := BitVec.ofInt 16 (N.trunc cb) }

/-- The results with a peak appended to its band's list and counted. -/
def Results.addPeak (r : Results) (x : Fin 4 × FrequencyPeak) : Results :=
  { r with band := appendPeak r.band x.1 x.2, npeaks := r.npeaks + 1#32 }

section Record

variable {α : Type} {N : NumSys α} {cap : Nat} {hops : Word} {b : Fin 4} {pm cb : α} {r : Results}

/-- The width check. -/
theorem fits16_iff {v : α} : fits16 N v = true ↔ N.finite v = true ∧ 0 ≤ N.trunc v ∧ N.trunc v ≤ 65535 := by
  simp only [fits16, Bool.and_eq_true, decide_eq_true_eq, and_assoc]

/-- The integer part of a value that passes the width check is what its 16-bit field holds. -/
theorem toNat_ofInt_trunc {v : α} (h : fits16 N v = true) :
    ((BitVec.ofInt 16 (N.trunc v)).toNat : Int) = N.trunc v := by
  obtain ⟨-, hlo, hhi⟩ := fits16_iff.mp h
  rw [BitVec.toNat_ofInt]
  omega

theorem record_of_not_fits (h : ¬ (fits16 N pm = true ∧ fits16 N cb = true)) :
    record N cap hops b pm cb r = r.raise .errOvf := by
  rw [record, if_pos (by simpa [imp_iff_not_or] using h)]

theorem record_of_full (hfull : cap ≤ (bandList r.band b).length) :
    record N cap hops b pm cb r = r.raise .errOvf := by
  rw [record, if_pos hfull, ite_self]

theorem record_of_room (hpm : fits16 N pm = true) (hcb : fits16 N cb = true)
    (hroom : (bandList r.band b).length < cap) :
    record N cap hops b pm cb r = r.addPeak (b, peakOf N hops pm cb) := by
  rw [record, if_neg (by simp [hpm, hcb]), if_neg (Nat.not_le.mpr hroom)]
  rfl

end Record

/-- Settles O59: the two refusals and the record that is appended. -/
theorem recordChecksWidthThenCapacity : Obligations.RecordChecksWidthThenCapacity := by
  intro α N cap hops b pm cb r fits
  have hfits : fits pm ∧ fits cb ↔ fits16 N pm = true ∧ fits16 N cb = true :=
    and_congr fits16_iff.symm fits16_iff.symm
  rw [hfits]
  refine ⟨record_of_not_fits, fun _ => record_of_full, fun ⟨hpm, hcb⟩ hroom => ?_⟩
  exact ⟨_, _, record_of_room hpm hcb hroom, rfl, toNat_ofInt_trunc hpm, toNat_ofInt_trunc hcb,
    fun c => bandList_appendPeak _ _ _ _, rfl, rfl⟩

/-! ### The quantizer (R134 to R136) -/

section Quantizer

variable {α : Type} (N : NumSys α) (F : Frame α) (pos : Nat)

/-- The first variation at a position of a frame (R135). -/
def variation1At : α := variation1 N (logMag N (binAt F pos (-1))) (logMag N (cell F pos)) (logMag N (binAt F pos 1))

/-- The corrected bin of a position of a frame (R136). -/
def correctedBinAt : α :=
  correctedBin N pos (variation2 N (logMag N (binAt F pos (-1))) (logMag N (binAt F pos 1)) (variation1At N F pos))

/-- The band of a position of a frame, if it lies in one (R136). -/
def bandAt : Option (Fin 4) := classify N (N.mul (correctedBinAt N F pos) N.hzPerCb)

variable [DecidableEq α]

/-- A first variation of 0 raises ERR_DIV; a frequency outside the bands has no effect; the rest is recorded. -/
theorem quantizeClassifyRecord_eq (cap : Nat) (hops : Word) (r : Results) :
    quantizeClassifyRecord N cap hops F pos r =
      if variation1At N F pos = N.ofInt 0 then r.raise .errDiv
      else (bandAt N F pos).elim r fun b =>
        record N cap hops b (logMag N (cell F pos)) (correctedBinAt N F pos) r := by
  simp only [quantizeClassifyRecord, bandAt, correctedBinAt, variation1At]
  refine ite_congr rfl (fun _ => rfl) fun _ => ?_
  generalize classify N _ = band
  cases band <;> rfl

/-- The peak a position yields, in the same terms. -/
theorem candidate_eq (hops : Word) (S : Frame α) (h : Hist α) (wr : BitVec 8) :
    candidate N hops F S h wr pos =
      if survives N F S h wr pos = true ∧ variation1At N F pos ≠ N.ofInt 0 then
        (bandAt N F pos).map fun b => (b, peakOf N hops (logMag N (cell F pos)) (correctedBinAt N F pos))
      else none := rfl

end Quantizer

/-- Settles O29: the test of the first variation stands before classification. -/
theorem zeroVariationRaisesErrDivOnly : Obligations.ZeroVariationRaisesErrDivOnly :=
  fun _ _ N _ _ F pos _ hzero => (quantizeClassifyRecord_eq N F pos _ _ _).trans (if_pos hzero)

/-! ### A scan that raises no fault (R130, R182) -/

/-- ERR_DIV or ERR_OVF is set in the detector's results. -/
def Results.faulted (r : Results) : Bool := r.err.div || r.err.ovf

/-- A state is faulted by the part of it that the detector writes. -/
theorem faulted_results (s : State) : s.results.faulted = s.faulted := rfl

theorem Results.faulted_raise_errDiv (r : Results) : (r.raise .errDiv).faulted = true := rfl

theorem Results.faulted_raise_errOvf (r : Results) : (r.raise .errOvf).faulted = true := Bool.or_true _

/-- A record step that raises no fault adds its peak. -/
theorem record_eq_addPeak {α : Type} {N : NumSys α} {cap : Nat} {hops : Word} {b : Fin 4} {pm cb : α} {r : Results}
    (hr : (record N cap hops b pm cb r).faulted = false) :
    record N cap hops b pm cb r = r.addPeak (b, peakOf N hops pm cb) := by
  obtain hovf | ⟨hpm, hcb, hroom, -⟩ := record_cases N cap hops b pm cb r
  · rw [hovf, r.faulted_raise_errOvf] at hr
    cases hr
  · exact record_of_room hpm hcb hroom

section Scan

variable {α : Type} [DecidableEq α] {N : NumSys α} {cap : Nat} {hops : Word} {F S : Frame α} {h : Hist α}
  {wr : BitVec 8}

/-- A position after which no fault is set adds the peak it yields, if it yields one. -/
theorem detectAt_eq_candidate {r : Results} {pos : Nat}
    (hr : (detectAt N cap hops F S h wr r pos).faulted = false) :
    detectAt N cap hops F S h wr r pos = (candidate N hops F S h wr pos).elim r r.addPeak := by
  rw [candidate_eq]
  rw [detectAt] at hr ⊢
  by_cases hsurv : survives N F S h wr pos = true
  case neg => rw [if_neg hsurv, if_neg (fun hc => hsurv hc.1), Option.elim_none]
  rw [if_pos hsurv, quantizeClassifyRecord_eq] at hr ⊢
  by_cases hzero : variation1At N F pos = N.ofInt 0
  case pos =>
    rw [if_pos hzero, r.faulted_raise_errDiv] at hr
    cases hr
  rw [if_neg hzero] at hr ⊢
  rw [if_pos ⟨hsurv, hzero⟩]
  cases hband : bandAt N F pos with
  | none => rfl
  | some b =>
    rw [hband] at hr
    exact record_eq_addPeak hr

/-- Adding peaks sets no fault bit. -/
theorem faulted_foldl_addPeak (xs : List (Fin 4 × FrequencyPeak)) (r : Results) :
    (xs.foldl Results.addPeak r).faulted = r.faulted := by
  induction xs generalizing r with
  | nil => rfl
  | cons x xs ih => exact ih _

/-- Positions after which no fault is set add the peaks they yield, in order. -/
theorem foldl_detectAt_eq {ps : List Nat} {r : Results}
    (hr : (ps.foldl (detectAt N cap hops F S h wr) r).faulted = false) :
    ps.foldl (detectAt N cap hops F S h wr) r =
      (ps.filterMap (candidate N hops F S h wr)).foldl Results.addPeak r := by
  induction ps generalizing r with
  | nil => rfl
  | cons pos ps ih =>
    rw [List.foldl_cons] at hr ⊢
    have hrest := ih hr
    rw [hrest, faulted_foldl_addPeak] at hr
    rw [hrest, detectAt_eq_candidate hr, List.filterMap_cons]
    cases candidate N hops F S h wr pos <;> rfl

end Scan

/-- Peaks added one after the other stand in this order at the end of their band's list. -/
theorem bandList_foldl_addPeak (xs : List (Fin 4 × FrequencyPeak)) (r : Results) (b : Fin 4) :
    bandList (xs.foldl Results.addPeak r).band b =
      bandList r.band b ++ xs.filterMap (fun x => if x.1 = b then some x.2 else none) := by
  induction xs generalizing r with
  | nil => simp
  | cons x xs ih =>
    rw [List.foldl_cons, ih, Results.addPeak, bandList_appendPeak]
    by_cases hb : x.1 = b
    · simp [hb]
    · simp [hb, Ne.symm hb]

/-- The peak counter counts the peaks added. -/
theorem npeaks_foldl_addPeak (xs : List (Fin 4 × FrequencyPeak)) (r : Results) :
    (xs.foldl Results.addPeak r).npeaks = r.npeaks + BitVec.ofNat 32 xs.length := by
  induction xs generalizing r with
  | nil => simp
  | cons x xs ih =>
    rw [List.foldl_cons, ih, List.length_cons, Nat.add_comm, BitVec.ofNat_add, ← BitVec.add_assoc]
    rfl

/-- Settles O26: the results of a due hop are those of the scan, which adds the peaks its positions yield. -/
theorem hopRecordsExactlyItsPeaks : Obligations.HopRecordsExactlyItsPeaks := by
  intro s hstop hmax
  refine ⟨_, exec_hop_of_performed hstop hmax, fun hdue hclean => ?_⟩
  have hres := performHop_results_due rfl hdue
  rw [scan_eq_foldl] at hres
  rw [← faulted_results, hres] at hclean
  rw [foldl_detectAt_eq hclean] at hres
  refine ⟨fun b => ?_, ?_⟩
  · exact (congrArg (fun r => bandList r.band b) hres).trans (bandList_foldl_addPeak _ _ b)
  · exact (congrArg Results.npeaks hres).trans (npeaks_foldl_addPeak _ _)

end Sys2Proof.Machine
end

section
/-! The detector's comparisons and the band edges in a NUM that satisfies the laws, as comparisons of the real values
(43_detector.md R131 to R133, R136; 00_scope.md R9). -/

namespace Sys2Proof

open Machine

section Laws

variable {α : Type} {N : NumSys α} {val : α → ℝ} (L : N.Laws val)
include L

/-! ### Comparisons of finite values (NL2) -/

/-- The maximum of two finite values is finite, as it is one of the two. -/
theorem NumSys.Laws.max_finite {x y : α} (hx : N.finite x = true) (hy : N.finite y = true) :
    N.finite (N.max x y) = true := by
  obtain h | h := L.nl2_max_cases x y <;> rw [h] <;> assumption

/-- A running maximum of finite values is finite. -/
theorem NumSys.Laws.foldl_max_finite {ι : Type} {f : ι → α} {ds : List ι} {m : α} (hm : N.finite m = true)
    (hf : ∀ d ∈ ds, N.finite (f d) = true) : N.finite (ds.foldl (fun m d => N.max m (f d)) m) = true :=
  List.foldlRecOn (motive := (N.finite · = true)) ds _ hm fun _ hacc d hd => L.max_finite hacc (hf d hd)

/-- A running maximum of finite values is below a bound iff each of them is. -/
theorem NumSys.Laws.val_foldl_max_lt {ι : Type} {f : ι → α} {ds : List ι} {m : α} {bound : ℝ}
    (hm : N.finite m = true) (hf : ∀ d ∈ ds, N.finite (f d) = true) :
    val (ds.foldl (fun m d => N.max m (f d)) m) < bound ↔ val m < bound ∧ ∀ d ∈ ds, val (f d) < bound := by
  induction ds generalizing m with
  | nil => simp
  | cons d ds ih =>
    obtain ⟨hd, hds⟩ := List.forall_mem_cons.mp hf
    rw [List.foldl_cons, ih (L.max_finite hm hd) hds, L.nl2_max _ _ hm hd, max_lt_iff, List.forall_mem_cons, and_assoc]

/-- `lt` on finite values, as a test. -/
theorem NumSys.Laws.lt_eq {x y : α} (hx : N.finite x = true) (hy : N.finite y = true) :
    N.lt x y = decide (val x < val y) :=
  Bool.eq_iff_iff.mpr ((L.nl2_lt x y hx hy).trans decide_eq_true_iff.symm)

/-- `le` on finite values, as a test. -/
theorem NumSys.Laws.le_eq {x y : α} (hx : N.finite x = true) (hy : N.finite y = true) :
    N.le x y = decide (val x ≤ val y) :=
  Bool.eq_iff_iff.mpr ((L.nl2_le x y hx hy).trans decide_eq_true_iff.symm)

/-! ### The three tests of a position (R131 to R133) -/

section Survivor

variable {F S : Frame α} {h : Hist α} {wr : BitVec 8} {pos : Nat}

theorem NumSys.Laws.test1_iff (hF : N.finite (cell F pos) = true) (hS : N.finite (cell S pos) = true) :
    test1 N F S pos = true ↔ 1 / 64 ≤ val (cell F pos) ∧ val (cell S pos) ≤ val (cell F pos) := by
  obtain ⟨hmin, hval⟩ := L.nl6_minMag
  simp only [test1, L.lt_eq hF hmin, L.lt_eq hF hS, hval, Bool.and_eq_true, Bool.not_eq_true',
    decide_eq_false_iff_not, not_lt]

theorem NumSys.Laws.neighbourMax_finite (hS : ∀ d ∈ Config.neiOffs, N.finite (binAt S pos d) = true) :
    N.finite (neighbourMax N S pos) = true := by
  obtain ⟨hhead, htail⟩ := List.forall_mem_cons.mp hS
  exact L.foldl_max_finite hhead htail

theorem NumSys.Laws.neighbourMax_lt_iff (hS : ∀ d ∈ Config.neiOffs, N.finite (binAt S pos d) = true) {bound : ℝ} :
    val (neighbourMax N S pos) < bound ↔ ∀ d ∈ Config.neiOffs, val (binAt S pos d) < bound := by
  obtain ⟨hhead, htail⟩ := List.forall_mem_cons.mp hS
  exact (L.val_foldl_max_lt hhead htail).trans (List.forall_mem_cons (p := fun d => val (binAt S pos d) < bound)).symm

theorem NumSys.Laws.otherFramesMax_lt_iff {m : α} (hm : N.finite m = true)
    (hh : ∀ o ∈ Config.otherOffs, N.finite (binAt (frameAt h wr o) pos (-1)) = true) {bound : ℝ} :
    val (otherFramesMax N h wr m pos) < bound ↔
      val m < bound ∧ ∀ o ∈ Config.otherOffs, val (binAt (frameAt h wr o) pos (-1)) < bound :=
  L.val_foldl_max_lt hm hh

/-- The tests as comparisons of values; the second maximum runs on from the first, so the third test takes
in the second. -/
theorem NumSys.Laws.survives_iff (hF : N.finite (cell F pos) = true) (hS : N.finite (cell S pos) = true)
    (hnei : ∀ d ∈ Config.neiOffs, N.finite (binAt S pos d) = true)
    (hother : ∀ o ∈ Config.otherOffs, N.finite (binAt (frameAt h wr o) pos (-1)) = true) :
    survives N F S h wr pos = true ↔
      1 / 64 ≤ val (cell F pos) ∧ val (cell S pos) ≤ val (cell F pos) ∧
      (∀ d ∈ Config.neiOffs, val (binAt S pos d) < val (cell F pos)) ∧
      ∀ o ∈ Config.otherOffs, val (binAt (frameAt h wr o) pos (-1)) < val (cell F pos) := by
  have hmax := L.neighbourMax_finite hnei
  have hall : N.finite (otherFramesMax N h wr (neighbourMax N S pos) pos) = true := L.foldl_max_finite hmax hother
  rw [survives, Bool.and_eq_true, Bool.and_eq_true, L.test1_iff hF hS, L.nl2_lt _ _ hmax hF, L.nl2_lt _ _ hall hF,
    L.otherFramesMax_lt_iff hmax hother, L.neighbourMax_lt_iff hnei]
  tauto

end Survivor

/-! ### The bands (R136) -/

/-- The classifier's tests, as comparisons of the frequency's value with the edges. -/
theorem NumSys.Laws.classify_eq {f : α} (hf : N.finite f = true) :
    classify N f =
      if val f < 250 then none else if val f < 520 then some 0 else if val f < 1450 then some 1
      else if val f < 3500 then some 2 else if val f ≤ 5500 then some 3 else none := by
  obtain ⟨h250, v250⟩ := L.nl6_edge250
  obtain ⟨h520, v520⟩ := L.nl6_edge520
  obtain ⟨h1450, v1450⟩ := L.nl6_edge1450
  obtain ⟨h3500, v3500⟩ := L.nl6_edge3500
  obtain ⟨h5500, v5500⟩ := L.nl6_edge5500
  simp only [classify, L.lt_eq hf h250, L.lt_eq hf h520, L.lt_eq hf h1450, L.lt_eq hf h3500, L.le_eq hf h5500, v250,
    v520, v1450, v3500, v5500, decide_eq_true_eq]

end Laws

end Sys2Proof

namespace Sys2Proof.Machine

/-- Settles O27: the tests as comparisons of values, every bin they read being within its frame. -/
theorem survivorIsStrictlyGreater : Obligations.SurvivorIsStrictlyGreater := by
  intro α N val F S h wr pos L hF hS hh hlo hhi
  have hnei : ∀ d ∈ Config.neiOffs, N.finite (binAt S pos d) = true := fun d hd => by
    have hrange : ∀ d ∈ Config.neiOffs, -10 ≤ d ∧ d ≤ 8 := by decide
    obtain ⟨_, _⟩ := hrange d hd
    exact hS _ (by omega)
  have hother : ∀ o ∈ Config.otherOffs, N.finite (binAt (frameAt h wr o) pos (-1)) = true := fun o _ =>
    hh _ _ (slot_lt wr o) (by omega)
  have hbefore : ((pos : Int) + -1).toNat = pos - 1 := by omega
  rw [L.survives_iff (hF _ (by omega)) (hS _ (by omega)) hnei hother]
  simp only [binAt, hbefore]
  rfl

/-- Settles O30: each outcome of the classifier's tests in turn puts the value in one range, and no two ranges meet. -/
theorem bandsOfFrequencies : Obligations.BandsOfFrequencies := by
  intro α N val f L hf
  rw [L.classify_eq hf]
  split_ifs <;> grind

end Sys2Proof.Machine
end

section
/-! The quantizer in the reference instance (43_detector.md R134 to R136, R139): the log-magnitude, the two
variations and the range of a recorded bin. -/

namespace Sys2Proof.Machine

/-! ### The log-magnitude (R134) -/

/-- The log-magnitude on the reals. -/
theorem logMag_reference (v : ℝ) :
    logMag referenceNum v = Real.log (max (1 / 64) v) * (14773 / 10) + 6144 := rfl

theorem logMag_reference_mono {v w : ℝ} (h : v ≤ w) : logMag referenceNum v ≤ logMag referenceNum w := by
  rw [logMag_reference, logMag_reference]
  have hlog : Real.log (max (1 / 64) v) ≤ Real.log (max (1 / 64) w) :=
    Real.log_le_log (by positivity) (max_le_max_left _ h)
  linarith

/-- Above the clamp the log-magnitude is strictly monotone. -/
theorem logMag_reference_lt {v w : ℝ} (h : v < w) (hw : 1 / 64 < w) :
    logMag referenceNum v < logMag referenceNum w := by
  rw [logMag_reference, logMag_reference]
  have hlog : Real.log (max (1 / 64) v) < Real.log (max (1 / 64) w) :=
    Real.log_lt_log (by positivity) (max_lt (lt_max_of_lt_right hw) (lt_max_of_lt_right h))
  linarith

/-- Up to the clamp it is constant. -/
theorem logMag_reference_clamped {v : ℝ} (h : v ≤ 1 / 64) : logMag referenceNum v = logMag referenceNum (1 / 64) := by
  rw [logMag_reference, logMag_reference, max_eq_left h, max_self]

/-! ### The variations (R135) -/

/-- The first variation is the sum of the two falls from the peak. -/
theorem variation1_reference (pb pm pa : ℝ) : variation1 referenceNum pb pm pa = (pm - pb) + (pm - pa) := by
  simp only [variation1, referenceNum_sub, referenceNum_mul, referenceNum_ofInt]
  push_cast
  ring

theorem variation2_reference (pb pm pa v1 : ℝ) :
    variation2 referenceNum pb pa v1 = 32 * ((pm - pb) - (pm - pa)) / v1 := by
  simp only [variation2, referenceNum_sub, referenceNum_mul, referenceNum_div, referenceNum_interp]
  ring

theorem correctedBin_reference (pos : Nat) (v2 : ℝ) : correctedBin referenceNum pos v2 = 64 * (pos : ℝ) + v2 := by
  simp only [correctedBin, referenceNum_add, referenceNum_mul, referenceNum_ofInt, referenceNum_binScale]
  push_cast
  ring

/-- The falls from a peak to its neighbours are both 0 exactly for a peak at the clamp. -/
theorem falls_eq_zero_iff {before peak after : ℝ} (hpeak : 1 / 64 ≤ peak) (hb : before < peak) (ha : after < peak) :
    (logMag referenceNum peak - logMag referenceNum before) +
      (logMag referenceNum peak - logMag referenceNum after) = 0 ↔ peak = 1 / 64 := by
  constructor
  · intro hsum
    by_contra hne
    have hb' := logMag_reference_lt hb (lt_of_le_of_ne hpeak (Ne.symm hne))
    have ha' := logMag_reference_mono ha.le
    linarith
  · rintro rfl
    rw [logMag_reference_clamped hb.le, logMag_reference_clamped ha.le, sub_self, add_zero]

/-- The interpolation `32 (a - c) / (a + c)` of two falls, not both 0: its bounds and its sign. -/
theorem interpolation_bounds {a c : ℝ} (ha : 0 ≤ a) (hc : 0 ≤ c) (hne : a + c ≠ 0) :
    -32 ≤ 32 * (a - c) / (a + c) ∧ 32 * (a - c) / (a + c) ≤ 32 ∧ (0 < 32 * (a - c) / (a + c) ↔ c < a) ∧
      (32 * (a - c) / (a + c) < 0 ↔ a < c) := by
  have hpos : 0 < a + c := lt_of_le_of_ne (add_nonneg ha hc) hne.symm
  refine ⟨(le_div_iff₀ hpos).mpr (by linarith), (div_le_iff₀ hpos).mpr (by linarith), ?_, ?_⟩
  · rw [div_pos_iff_of_pos_right hpos]
    constructor <;> intro h <;> linarith
  · rw [div_lt_iff₀ hpos]
    constructor <;> intro h <;> linarith

/-! ### The quantizer at a position (R134 to R136) -/

theorem binAt_neg_one {α : Type} (F : Frame α) (pos : Nat) : binAt F pos (-1) = cell F (pos - 1) :=
  congrArg (cell F) (by omega)

theorem variation1At_reference (F : Frame ℝ) (pos : Nat) :
    variation1At referenceNum F pos =
      (logMag referenceNum (cell F pos) - logMag referenceNum (cell F (pos - 1))) +
        (logMag referenceNum (cell F pos) - logMag referenceNum (cell F (pos + 1))) := by
  rw [variation1At, variation1_reference, binAt_neg_one]
  rfl

theorem correctedBinAt_reference (F : Frame ℝ) (pos : Nat) :
    correctedBinAt referenceNum F pos = 64 * (pos : ℝ) +
      32 * ((logMag referenceNum (cell F pos) - logMag referenceNum (cell F (pos - 1))) -
          (logMag referenceNum (cell F pos) - logMag referenceNum (cell F (pos + 1)))) /
        variation1At referenceNum F pos := by
  rw [correctedBinAt, correctedBin_reference, variation2_reference _ (logMag referenceNum (cell F pos)), binAt_neg_one]
  rfl

/-- Settles O28: the falls `a` and `c` from the peak carry both variations, and the quantizer takes them of
the bins at the position and beside it. -/
theorem variationsInTheReference : Obligations.VariationsInTheReference := by
  unfold Obligations.VariationsInTheReference
  intro L
  refine ⟨logMag_reference, correctedBin_reference, fun before peak after hpeak hb ha => ?_,
    fun cap hops F pos r _ _ hpeak hb ha => ?_⟩
  · intro a c v1 v2
    have hfall : 0 ≤ a := sub_nonneg.mpr (logMag_reference_mono hb.le)
    have hfall' : 0 ≤ c := sub_nonneg.mpr (logMag_reference_mono ha.le)
    have hv1 : v1 = a + c := variation1_reference _ _ _
    have hv2 : v2 = 32 * (a - c) / (a + c) := hv1 ▸ variation2_reference _ (L peak) _ v1
    rw [hv1, hv2]
    refine ⟨rfl, add_nonneg hfall hfall', falls_eq_zero_iff hpeak hb ha, fun hne => ?_⟩
    obtain ⟨hlo, hhi, hpos, hneg⟩ := interpolation_bounds hfall hfall' hne
    exact ⟨rfl, hlo, hhi, hpos.trans (sub_lt_sub_iff_left _), hneg.trans (sub_lt_sub_iff_left _)⟩
  · intro a c cb
    have hzero : variation1At referenceNum F pos = referenceNum.ofInt 0 ↔ cell F pos = 1 / 64 := by
      rw [variation1At_reference, referenceNum_ofInt, Int.cast_zero]
      exact falls_eq_zero_iff hpeak hb ha
    have hcb : correctedBinAt referenceNum F pos = cb := by
      rw [correctedBinAt_reference, variation1At_reference]
      rfl
    rw [quantizeClassifyRecord_eq, bandAt, hcb, referenceNum_mul, referenceNum_hzPerCb]
    refine ⟨fun h => ?_, fun h hband => ?_, fun b h hband => ?_⟩
    · rw [if_pos (hzero.mpr h)]
      rfl
    · rw [if_neg (mt hzero.mp h), hband, Option.elim_none]
    · rw [if_neg (mt hzero.mp h), hband, Option.elim_some]
      rfl

/-! ### The range of a recorded bin (R139) -/

/-- On the reals from 0 up the integer part is the floor. -/
theorem trunc_reference {v : ℝ} (h : 0 ≤ v) : referenceNum.trunc v = ⌊v⌋ := if_pos h

/-- The edges of the bands on the scale of the corrected bin, 1024 to 125 Hz. -/
theorem correctedBin_range_of_band {cb : ℝ} {b : Fin 4} (h : classify referenceNum (cb * (125 / 1024)) = some b) :
    2048 ≤ cb ∧ cb ≤ 45056 ∧ (b = 0 → cb < 4259 + 1) ∧ (b = 1 → 4259 ≤ cb ∧ cb < 11878 + 1) ∧
      (b = 2 → 11878 ≤ cb ∧ cb < 28671 + 1) ∧ (b = 3 → 28672 ≤ cb) := by
  obtain ⟨hnone, hband0, hband1, hband2, hband3⟩ := bandsOfFrequencies ℝ referenceNum id _ referenceNum_laws rfl
  rw [h, Option.some_inj, id_eq] at hband0 hband1 hband2 hband3
  obtain ⟨hlo, hhi⟩ := not_or.mp (hnone.not.mp (by rw [h]; exact Option.some_ne_none b))
  rw [id_eq] at hlo hhi
  rw [hband0, hband1, hband2, hband3]
  exact ⟨by linarith, by linarith, fun ⟨_, _⟩ => by linarith, fun ⟨_, _⟩ => ⟨by linarith, by linarith⟩,
    fun ⟨_, _⟩ => ⟨by linarith, by linarith⟩, fun ⟨_, _⟩ => by linarith⟩

/-- Settles O31: `cb` is within 32 of `64 pos`, and its floor is in the range of its band. -/
theorem recordedBinRanges : Obligations.RecordedBinRanges := by
  intro pos v2 b hv2 hv2' hband bin
  obtain ⟨hlo, hhi, hranges⟩ := correctedBin_range_of_band hband
  have hbin : bin = ⌊correctedBin referenceNum pos v2⌋ := trunc_reference (by linarith)
  have hpos : 31 < pos ∧ pos < 705 := by
    rw [correctedBin_reference] at hlo hhi
    have hlow : (31 : ℝ) < pos := by linarith
    have hhigh : (pos : ℝ) < 705 := by linarith
    exact ⟨by exact_mod_cast hlow, by exact_mod_cast hhigh⟩
  refine ⟨hpos.1, Nat.le_of_lt_succ hpos.2, ?_⟩
  rw [hbin]
  simp only [Int.le_floor, Int.floor_le_iff]
  push_cast
  exact ⟨hlo, by linarith, hranges⟩

end Sys2Proof.Machine
end

section
/-! The range of magnitudes in the reference instance (41_spectral.md R107, 43_detector.md R139): the transform of 16-bit
samples under the window is bounded by the full scale times the sum of the window. -/

namespace Sys2Proof.Machine

/-! ### The bound of the transform -/

/-- A twiddle has modulus 1, so the transform is bounded by the absolute sum of its frame (R104). -/
theorem norm_dft_le (frame : Vector ℝ 2048) (k : Nat) :
    ‖toComplex (dft frame k)‖ ≤ ∑ n ∈ Finset.range 2048, |cell frame n| := by
  have hroot : ‖fftRoot‖ = 1 := Complex.norm_exp_ofReal_mul_I _
  rw [toComplex_dft]
  refine (norm_sum_le _ _).trans_eq (Finset.sum_congr rfl fun n _ => ?_)
  rw [norm_mul, norm_pow, hroot, one_pow, mul_one, Complex.norm_real, Real.norm_eq_abs]

/-- A sample is at most the full scale of 16 bits (R11). -/
theorem abs_toInt_half_le (v : Half) : |(v.toInt : ℝ)| ≤ 32768 := by
  have hlo := BitVec.le_toInt v
  have hhi := BitVec.toInt_lt (x := v)
  have h : |v.toInt| ≤ 32768 := abs_le.mpr ⟨by omega, by omega⟩
  exact_mod_cast h

/-- A windowed frame of samples is, in absolute sum, at most the full scale times the sum of the window (R102, R103). -/
theorem sum_abs_windowFrame_le (ring : Ring) (wr : BitVec 11) :
    ∑ n ∈ Finset.range 2048, |cell (windowFrame referenceNum ring wr) n| ≤ 32768 * (2049 / 2) := by
  obtain ⟨hentry, hsum⟩ := windowTableShape
  rw [← hsum, Finset.mul_sum]
  refine Finset.sum_le_sum fun n hn => ?_
  have hn' := Finset.mem_range.mp hn
  have hpos := (hentry n hn').1
  rw [cell_windowFrame _ _ _ hn', referenceNum_mul, referenceNum_ofInt, abs_mul, abs_of_pos hpos]
  exact mul_le_mul_of_nonneg_right (abs_toInt_half_le _) hpos.le

/-- The magnitude of a transform of bounded modulus (R107). -/
theorem binMagnitude_reference_le {z : ℝ × ℝ} (h : ‖toComplex z‖ ≤ 32768 * (2049 / 2)) :
    binMagnitude referenceNum z ≤ 8598325248 := by
  have hsq : z.1 * z.1 + z.2 * z.2 = ‖toComplex z‖ ^ 2 := by
    rw [Complex.sq_norm, Complex.normSq_apply]
    rfl
  have hle : ‖toComplex z‖ ^ 2 ≤ (32768 * (2049 / 2)) ^ 2 := pow_le_pow_left₀ (norm_nonneg _) h 2
  refine max_le (by norm_num) ?_
  simp only [referenceNum_div, referenceNum_add, referenceNum_mul, referenceNum_magDiv]
  rw [hsq, div_le_iff₀ (by norm_num)]
  exact hle.trans_eq (by norm_num)

/-- Every bin of a hop's magnitude frame lies from the floor to the bound. -/
theorem hopMagnitude_reference_range (ring : Ring) (wr : BitVec 11) {k : Nat} (hk : k < 1025) :
    1 / 10 ^ 10 ≤ cell (hopMagnitude referenceNum ring wr) k ∧
      cell (hopMagnitude referenceNum ring wr) k ≤ 8598325248 := by
  rw [cell_hopMagnitude _ _ _ hk]
  refine ⟨le_max_left _ _, binMagnitude_reference_le ?_⟩
  rw [fftComputesTheDft _ k (by omega)]
  exact (norm_dft_le _ k).trans (sum_abs_windowFrame_le ring wr)

/-! ### The log-magnitudes of the bounds -/

/-- The logarithms of the bounds: 1/64 is a power of two, and the upper bound is little above one, so that
`log x ≤ x - 1` is close enough. -/
theorem log_magnitude_range {v : ℝ} (hlo : 1 / 64 ≤ v) (hhi : v ≤ 8598325248) :
    -(6 * Real.log 2) ≤ Real.log v ∧ Real.log v ≤ 33 * Real.log 2 + 8390656 / 8589934592 := by
  constructor
  · have h := Real.log_le_log (by norm_num) hlo
    rwa [show (1 / 64 : ℝ) = (2 ^ 6)⁻¹ by norm_num, Real.log_inv, Real.log_pow, Nat.cast_ofNat] at h
  · have h := Real.log_le_log (lt_of_lt_of_le (by norm_num) hlo) hhi
    have htop : (8598325248 : ℝ) = 2 ^ 33 * (8598325248 / 8589934592) := by norm_num
    have hrest := Real.log_le_sub_one_of_pos (show (0 : ℝ) < 8598325248 / 8589934592 by norm_num)
    rw [htop, Real.log_mul (by norm_num) (by norm_num), Real.log_pow, Nat.cast_ofNat] at h
    linarith

theorem logMag_reference_range {v : ℝ} (hlo : 1 / 64 ≤ v) (hhi : v ≤ 8598325248) :
    0 ≤ logMag referenceNum v ∧ logMag referenceNum v < 39937 := by
  obtain ⟨hln, hln'⟩ := log_magnitude_range hlo hhi
  have htwo := Real.log_two_lt_d9
  rw [logMag_reference, max_eq_right hlo]
  constructor <;> linarith

/-- Settles O32: the bound of the transform, and the integer part of the log-magnitudes between the bounds. -/
theorem recordedMagnitudeRange : Obligations.RecordedMagnitudeRange := by
  refine ⟨fun ring wr _ hk => hopMagnitude_reference_range ring wr hk, fun v hlo hhi => ?_⟩
  obtain ⟨hnonneg, hlt⟩ := logMag_reference_range hlo hhi
  rw [trunc_reference hnonneg]
  exact ⟨Int.floor_nonneg.mpr hnonneg, Int.floor_le_iff.mpr (by push_cast; linarith)⟩

end Sys2Proof.Machine
end

section
/-! The CRC32 unit (44_crc32.md): the bit step and the byte step as R151 writes them, the effect of the host's CRC32 lines,
and the three statements. -/

namespace Sys2Proof.Machine

/-! ### The bit step and the byte step (R151, R153) -/

/-- Bit 0 of the register is its parity as a number. -/
theorem crcBit_eq : crcBit = fun c : Word => if c.toNat % 2 = 1 then (c >>> 1) ^^^ 0xEDB88320#32 else c >>> 1 := by
  funext c
  have hbit : c.getLsbD 0 = decide (c.toNat % 2 = 1) := Nat.testBit_zero c.toNat
  simp only [crcBit, hbit, decide_eq_true_eq, Config.crcPoly]

/-- A byte is XORed in as a number, and eight bit steps follow. -/
theorem crcByte_eq : crcByte = fun (c : Word) (b : Byte) => crcBit^[8] (c ^^^ BitVec.ofNat 32 b.toNat) := by
  funext c b
  rw [BitVec.ofNat_toNat]
  rfl

/-! ### The commands and the read of CRC (R150 to R152) -/

theorem exec_crcinit (s : State) : exec .crcinit s = .next { s with crc := Config.crcInit } := rfl

theorem exec_crcb (b : Byte) (s : State) : exec (.crcb b) s = .next { s with crc := crcByte s.crc b } := rfl

/-- A read of CRC returns the complement of the register and changes nothing else (R152). -/
theorem regRead_crc (s : State) :
    regRead .bits32 0x020#9 s = { s with readData := s.crc ^^^ Config.crcXorOut } := rfl

/-- Settles O41: CRCINIT's rule presets the register, and CRC then reads the preset XORed with itself. -/
theorem crcinitPresetsTheRegister : Obligations.CrcinitPresetsTheRegister := by
  refine ⟨decodeOfEncodeIsIdentity .crcinit rfl, fun s => ⟨exec_crcinit s, ?_⟩⟩
  rw [regRead_crc, Config.crcXorOut, BitVec.xor_self]

/-- Settles O42: the word is the encoder's, and the byte step is eight of R151's bit steps. -/
theorem crcbFeedsOneByte : Obligations.CrcbFeedsOneByte := by
  refine fun s b => ⟨?_, ?_⟩
  · rw [BitVec.ofNat_toNat]
    exact decodeOfEncodeIsIdentity (.crcb b) rfl
  · rw [← crcBit_eq, exec_crcb, crcByte_eq]

/-! ### The host's lines (30_encoding.md R66) -/

/-- An event that answers a next state hands it to the events after it. -/
theorem performAll_cons {e : HostEvent} {s t : State} (h : performEvent e s = .next t) (rest : List HostEvent) :
    performAll (e :: rest) s = performAll rest t := by
  simp only [performAll, h]

/-- The lines of a byte list fold the byte step over it and leave everything but `crc`. -/
theorem performAll_crcBytesLines (bytes : List Byte) (s : State) :
    performAll (crcBytesLines bytes) s = .next { s with crc := bytes.foldl crcByte s.crc } := by
  induction bytes generalizing s with
  | nil => rfl
  | cons b bytes ih =>
    have hline := (performEvent_commandLine rfl s).trans (exec_crcb b s)
    exact (performAll_cons hline (crcBytesLines bytes)).trans (ih _)

/-- The lines `CRC32 b0, ..., b(k-1)` leave everything but `crc` and the value read, which is `crc32` of the bytes. -/
theorem performAll_crc32Lines (bytes : List Byte) (s : State) : performAll (crc32Lines bytes) s =
    .next { s with crc := bytes.foldl crcByte Config.crcInit, readData := crc32 bytes } := by
  have hpreset := (performEvent_commandLine rfl s).trans (exec_crcinit s)
  rw [crc32Lines, performAll_cons hpreset, performAll_append (performAll_crcBytesLines bytes _), performAll_singleton,
    readLine, performEvent, regRead_crc, crc32]

/-- Settles O43: the lines compute `crc32`, whose byte step is R153's. -/
theorem crcReadsTheMessageChecksum : Obligations.CrcReadsTheMessageChecksum := by
  intro s bytes bit c
  have hc : bytes.foldl crcByte Config.crcInit = c := by
    rw [crcByte_eq, crcBit_eq]
    rfl
  rw [performAll_crc32Lines, crc32, hc]
  rfl

end Sys2Proof.Machine
end

section
/-! The signature container (45_signature_format.md): a payload read back peak by peak, and the fields of the buffer. -/

namespace Sys2Proof.Machine

/-! ### Reading a payload back (R161) -/

/-- A marker and its frame set the baseline. -/
theorem readPayload_marker (base : Nat) (frame : Word) (rest : List Byte) :
    readPayload base (0xFF#8 :: le32 frame ++ rest) = readPayload frame.toNat rest := by
  simp only [le32, List.cons_append, List.nil_append, readPayload, if_true, wordOfBytes_byteOfWord]

/-- A delta below 255 is no marker: with the record after it, it gives the peak. -/
theorem readPayload_delta {base : Nat} {p : FrequencyPeak} (hbase : base ≤ p.frame.toNat)
    (hgap : p.frame.toNat - base < 255) (rest : List Byte) :
    readPayload base (BitVec.ofNat 8 (p.frame.toNat - base) :: (le16 p.mag ++ le16 p.bin ++ rest)) =
      (readPayload p.frame.toNat rest).map (p :: ·) := by
  have hdelta : (BitVec.ofNat 8 (p.frame.toNat - base)).toNat = p.frame.toNat - base := by
    rw [BitVec.toNat_ofNat, Nat.mod_eq_of_lt (by omega)]
  have hnomarker : BitVec.ofNat 8 (p.frame.toNat - base) ≠ 0xFF#8 := fun h => by
    have h255 : p.frame.toNat - base = 255 := hdelta.symm.trans (congrArg BitVec.toNat h)
    omega
  simp only [le16, List.cons_append, List.nil_append, readPayload, if_neg hnomarker, hdelta,
    Nat.add_sub_cancel' hbase, BitVec.ofNat_toNat, BitVec.setWidth_eq, half_of_bytes]

/-- The bytes of a peak give it back and move the baseline to its frame, with a marker and without one. -/
theorem readPayload_payloadFrom_cons {base : Nat} {p : FrequencyPeak} (hbase : base ≤ p.frame.toNat)
    (peaks : List FrequencyPeak) :
    readPayload base (payloadFrom base (p :: peaks)) =
      (readPayload p.frame.toNat (payloadFrom p.frame.toNat peaks)).map (p :: ·) := by
  by_cases hgap : 255 ≤ p.frame.toNat - base
  · have hdelta := readPayload_delta (base := p.frame.toNat) (p := p) le_rfl (by omega)
      (payloadFrom p.frame.toNat peaks)
    rw [Nat.sub_self] at hdelta
    simpa [payloadFrom, hgap] using (readPayload_marker base p.frame _).trans hdelta
  · simpa [payloadFrom, hgap] using readPayload_delta hbase (by omega) (payloadFrom p.frame.toNat peaks)

/-- Reading gives the list back from every baseline that no frame is below. -/
theorem readPayload_payloadFrom {peaks : List FrequencyPeak} {base : Nat}
    (hbase : ∀ p ∈ peaks, base ≤ p.frame.toNat)
    (hsorted : peaks.Pairwise fun p q => p.frame.toNat ≤ q.frame.toNat) :
    readPayload base (payloadFrom base peaks) = some peaks := by
  induction peaks generalizing base with
  | nil => rfl
  | cons p peaks ih =>
    obtain ⟨hnext, hrest⟩ := List.pairwise_cons.mp hsorted
    rw [readPayload_payloadFrom_cons (hbase p List.mem_cons_self), ih hnext hrest, Option.map_some]

/-- Settles O57: no frame is below the initial baseline 0. -/
theorem payloadReadsBack : Obligations.PayloadReadsBack :=
  fun _ hsorted => readPayload_payloadFrom (fun _ _ => Nat.zero_le _) hsorted

/-! ### Lengths (R162, R163, R164) -/

@[simp] theorem length_le32 (v : Word) : (le32 v).length = 4 := rfl

/-- The padding fills a chunk up to a multiple of 4. -/
theorem four_dvd_length_bandChunk (b : Fin 4) (peaks : List FrequencyPeak) : 4 ∣ (bandChunk b peaks).length := by
  simp only [bandChunk, List.length_append, length_le32, List.length_replicate]
  omega

theorem four_dvd_length_content (bands : Bands) : 4 ∣ (content bands).length := by
  rw [content, List.length_flatMap]
  refine List.dvd_sum fun n hn => ?_
  obtain ⟨b, -, rfl⟩ := List.mem_map.mp hn
  split
  · exact dvd_zero 4
  · exact four_dvd_length_bandChunk b _

theorem length_signatureBuffer (L : HeaderLayout) (crc : Word) (numSamples : Nat) (bands : Bands) :
    (signatureBuffer L crc numSamples bands).length = 56 + (content bands).length := by
  simp only [signatureBuffer, List.length_append, List.length_map, List.length_range, length_le32]

/-! ### The little-endian word at an offset of a byte list -/

/-- The word at offset `o` of a byte list, as the statement reads a field of the signature. -/
def wordAt (bytes : List Byte) (o : Nat) : Word :=
  wordOfBytes (bytes.getD o 0) (bytes.getD (o + 1) 0) (bytes.getD (o + 2) 0) (bytes.getD (o + 3) 0)

/-- Four bytes that are a word's read as the word. -/
theorem wordAt_eq_of_bytes {bytes : List Byte} {o : Nat} {w : Word}
    (h : ∀ j < 4, bytes.getD (o + j) 0 = byteOfWord w j) : wordAt bytes o = w := by
  have h0 := h 0 (by omega)
  rw [Nat.add_zero] at h0
  rw [wordAt, h0, h 1 (by omega), h 2 (by omega), h 3 (by omega), wordOfBytes_byteOfWord]

/-- `LE32` of a word is read back behind any prefix. -/
theorem wordAt_le32 (pre : List Byte) (w : Word) (rest : List Byte) :
    wordAt (pre ++ (le32 w ++ rest)) pre.length = w := by
  refine wordAt_eq_of_bytes fun j hj => ?_
  rw [List.getD_append_right _ _ _ _ (Nat.le_add_right _ _), Nat.add_sub_cancel_left]
  interval_cases j <;> rfl

/-! ### The header (R164) -/

/-- Where no two fields overlap, byte `j` of a field is the header's byte at that place. -/
theorem headerByte_of_mem {fields : List (Nat × Word)} {f : Nat × Word} {j : Nat} (hj : j < 4) (hf : f ∈ fields)
    (hdisj : fields.Pairwise fun f g => f.1 + 4 ≤ g.1 ∨ g.1 + 4 ≤ f.1) :
    headerByte fields (f.1 + j) = byteOfWord f.2 j := by
  induction fields with
  | nil => exact absurd hf List.not_mem_nil
  | cons g fields ih =>
    obtain ⟨hapart, hrest⟩ := List.pairwise_cons.mp hdisj
    rcases List.mem_cons.mp hf with rfl | hf
    · simp [headerByte, hj]
    · have hskip : (decide (g.1 ≤ f.1 + j) && decide (f.1 + j < g.1 + 4)) = false := by
        have := hapart f hf
        simp only [Bool.and_eq_false_iff, decide_eq_false_iff_not]
        omega
      rw [← ih hf hrest, headerByte, List.find?_cons_of_neg (by simp [hskip])]
      rfl

/-- A valid layout keeps its fields in the 48 bytes and apart (R164). -/
theorem headerFields_of_valid {L : HeaderLayout} (h : L.valid = true) (crc size nsamp : Word) :
    (∀ f ∈ headerFields L crc size nsamp, f.1 + 4 ≤ 48) ∧
      (headerFields L crc size nsamp).Pairwise fun f g => f.1 + 4 ≤ g.1 ∨ g.1 + 4 ≤ f.1 := by
  have hoffsets : L.offsets = (headerFields L crc size nsamp).map Prod.fst := rfl
  rw [HeaderLayout.valid, Bool.and_eq_true, List.all_eq_true, decide_eq_true_eq, hoffsets, List.pairwise_map] at h
  obtain ⟨hin, hapart⟩ := h
  exact ⟨fun f hf => of_decide_eq_true (hin f.1 (List.mem_map_of_mem hf)), hapart⟩

/-- Every field of a valid layout is read back at its offset of the buffer. -/
theorem wordAt_signatureBuffer_field {L : HeaderLayout} (h : L.valid = true) (crc : Word) (numSamples : Nat)
    (bands : Bands) {f : Nat × Word}
    (hf : f ∈ headerFields L crc (BitVec.ofNat 32 ((content bands).length + 8))
      (BitVec.ofNat 32 (numSamples + paddingSamples))) :
    wordAt (signatureBuffer L crc numSamples bands) f.1 = f.2 := by
  obtain ⟨hin, hapart⟩ := headerFields_of_valid h crc (BitVec.ofNat 32 ((content bands).length + 8))
    (BitVec.ofNat 32 (numSamples + paddingSamples))
  refine wordAt_eq_of_bytes fun j hj => ?_
  have hlt : f.1 + j < 48 := by have := hin f hf; omega
  rw [signatureBuffer, List.append_assoc, List.append_assoc, List.getD_append _ _ _ _ (by simpa using hlt),
    List.getD_eq_getElem _ _ (by simpa using hlt), List.getElem_map, List.getElem_range]
  exact headerByte_of_mem hj hf hapart

/-! ### The checksum (R168) -/

/-- From offset 8 on, no header byte is of the CRC32 field. -/
theorem headerByte_headerFields_crc {k : Nat} (hk : 8 ≤ k) (L : HeaderLayout) (crc crc' size nsamp : Word) :
    headerByte (headerFields L crc size nsamp) k = headerByte (headerFields L crc' size nsamp) k := by
  simp only [headerByte, headerFields, List.find?_cons, show ¬ k < 4 + 4 by omega, decide_false, Bool.and_false]

/-- So the bytes the checksum is taken of do not depend on it. -/
theorem drop_signatureBuffer_crc (L : HeaderLayout) (crc crc' : Word) (numSamples : Nat) (bands : Bands) :
    (signatureBuffer L crc numSamples bands).drop 8 = (signatureBuffer L crc' numSamples bands).drop 8 := by
  have hheader (size nsamp : Word) : ((List.range 48).map (headerByte (headerFields L crc size nsamp))).drop 8 =
      ((List.range 48).map (headerByte (headerFields L crc' size nsamp))).drop 8 := by
    rw [← List.map_drop, ← List.map_drop, show (List.range 48).drop 8 = List.range' 8 40 from rfl]
    exact List.map_congr_left fun k hk =>
      headerByte_headerFields_crc (List.mem_range'_1.mp hk).1 L crc crc' size nsamp
  simp only [signatureBuffer, List.append_assoc]
  rw [List.drop_append_of_le_length (by simp), List.drop_append_of_le_length (by simp), hheader]

theorem signatureCrc_eq (L : HeaderLayout) (numSamples : Nat) (bands : Bands) :
    signatureCrc L numSamples bands = crc32 ((signature L numSamples bands).drop 8) :=
  congrArg crc32 (drop_signatureBuffer_crc L _ _ numSamples bands)

/-! ### The words after the header (R164) -/

theorem wordAt_signatureBuffer_marker (L : HeaderLayout) (crc : Word) (numSamples : Nat) (bands : Bands) :
    wordAt (signatureBuffer L crc numSamples bands) 48 = 0x40000000#32 := by
  rw [signatureBuffer, List.append_assoc, List.append_assoc]
  exact wordAt_le32 ((List.range 48).map _) _ _

theorem wordAt_signatureBuffer_contentLength (L : HeaderLayout) (crc : Word) (numSamples : Nat) (bands : Bands) :
    wordAt (signatureBuffer L crc numSamples bands) 52 = BitVec.ofNat 32 ((content bands).length + 8) := by
  rw [signatureBuffer, List.append_assoc]
  exact wordAt_le32 ((List.range 48).map _ ++ le32 _) _ _

/-- Settles O58: the two header fields by the layout, the two words behind the header by their places, and the
checksum because its bytes do not hold it. -/
theorem signatureFieldsAreConsistent : Obligations.SignatureFieldsAreConsistent := by
  intro L numSamples bands hL sig word
  have hfield (f : Nat × Word) :=
    wordAt_signatureBuffer_field (f := f) hL (signatureCrc L numSamples bands) numSamples bands
  have hcrc := hfield (4, signatureCrc L numSamples bands) (.tail _ (.head _))
  have hsize := hfield (L.offSize, BitVec.ofNat 32 ((content bands).length + 8)) (.tail _ (.tail _ (.head _)))
  exact ⟨length_signatureBuffer L _ _ bands, Nat.mod_eq_zero_of_dvd (four_dvd_length_content bands),
    hcrc.trans (signatureCrc_eq L numSamples bands), hsize, wordAt_signatureBuffer_marker L _ _ bands,
    wordAt_signatureBuffer_contentLength L _ _ bands⟩

end Sys2Proof.Machine
end

section
/-! Faults gate nothing (60_exceptions.md R183): the parts of a hop and the commands under other fault bits; and the
idle step (R189). -/

namespace Sys2Proof.Machine

/-! ### The idle step (R189) -/

/-- Settles O7: the step with nothing pending is the stutter. -/
theorem idleStepHoldsAllState : Obligations.IdleStepHoldsAllState := fun _ => step_of_nil

/-! ### A command under other fault bits (R183) -/

/-- With other fault bits in the results before it, `f` leaves the same results but for the fault bits. -/
def IgnoresFaults (f : Results → Results) : Prop :=
  ∀ (r : Results) (e : Err), ∃ e', f { r with err := e } = { f r with err := e' }

/-- A chain of parts that ignore the fault bits ignores them. -/
theorem IgnoresFaults.foldl {ι : Type} {f : Results → ι → Results} (h : ∀ x, IgnoresFaults (f · x)) (xs : List ι) :
    IgnoresFaults (xs.foldl f ·) := by
  induction xs with
  | nil => exact fun _ e => ⟨e, rfl⟩
  | cons x xs ih =>
    intro r e
    obtain ⟨e', hx⟩ := h x r e
    simp only [List.foldl_cons, hx]
    exact ih _ e'

section Detector

variable {α : Type} (N : NumSys α) (cap : Nat) (hops : Word)

/-- The record step looks at the values and at the list's length (R137). -/
theorem record_ignoresFaults (b : Fin 4) (pm cb : α) : IgnoresFaults (record N cap hops b pm cb) := by
  intro r e
  by_cases hfits : fits16 N pm = true ∧ fits16 N cb = true
  case neg =>
    rw [record_of_not_fits hfits, record_of_not_fits hfits]
    exact ⟨e.raise .errOvf, rfl⟩
  by_cases hfull : cap ≤ (bandList r.band b).length
  · rw [record_of_full hfull, record_of_full (r := { r with err := e }) hfull]
    exact ⟨e.raise .errOvf, rfl⟩
  · have hroom := Nat.not_le.mp hfull
    rw [record_of_room hfits.1 hfits.2 hroom, record_of_room (r := { r with err := e }) hfits.1 hfits.2 hroom]
    exact ⟨e, rfl⟩

variable [DecidableEq α]

/-- The quantizer looks at the frame (R134 to R136). -/
theorem quantizeClassifyRecord_ignoresFaults (F : Frame α) (pos : Nat) :
    IgnoresFaults (quantizeClassifyRecord N cap hops F pos) := by
  intro r e
  rw [quantizeClassifyRecord_eq, quantizeClassifyRecord_eq]
  split
  · exact ⟨e.raise .errDiv, rfl⟩
  · cases bandAt N F pos with
    | none => exact ⟨e, rfl⟩
    | some b => exact record_ignoresFaults N cap hops b _ _ r e

/-- A position of the scan looks at the frames and the history (R130). -/
theorem detectAt_ignoresFaults (F S : Frame α) (h : Hist α) (wr : BitVec 8) (pos : Nat) :
    IgnoresFaults (detectAt N cap hops F S h wr · pos) := by
  intro r e
  simp only [detectAt]
  split
  · exact quantizeClassifyRecord_ignoresFaults N cap hops F pos r e
  · exact ⟨e, rfl⟩

theorem scan_ignoresFaults (F S : Frame α) (h : Hist α) (wr : BitVec 8) :
    IgnoresFaults (scan N cap hops F S h wr) := by
  unfold scan
  exact .foldl (detectAt_ignoresFaults N cap hops F S h wr) scanPositions

end Detector

/-- A performed hop leaves the same state but for the fault bits: the scan, if due, ignores them, and the rest of the
hop neither reads nor writes them. -/
theorem performHop_ignores_err (N : NumSys T) (cap : Nat) (s : State) (e : Err) :
    ∃ e', performHop N cap { s with err := e } = { performHop N cap s with err := e' } := by
  unfold performHop
  by_cases hdue : 47 ≤ (s.hops + 1#32).toNat
  · rw [detectWhenDue_due N cap hdue, detectWhenDue_due N cap hdue]
    obtain ⟨e', hscan⟩ := scan_ignoresFaults N cap _ _ _ _ _ (spreadPeaks N (analyze N s)).results e
    exact ⟨e', congrArg (spreadPeaks N (analyze N s)).withResults hscan⟩
  · rw [detectWhenDue_early N cap (Nat.not_le.mp hdue), detectWhenDue_early N cap (Nat.not_le.mp hdue)]
    exact ⟨e, rfl⟩

/-- HOP is refused, at the counter's limit or performed by what STOP and the counter say, which are no fault bits. -/
theorem exec_hop_ignores_err (s : State) (e : Err) :
    ∃ t e', exec .hop s = .next t ∧ exec .hop { s with err := e } = .next { t with err := e' } := by
  cases hstop : stop s with
  | true => exact ⟨s, e, exec_hop_of_stop hstop, exec_hop_of_stop (s := { s with err := e }) hstop⟩
  | false =>
    by_cases hmax : s.hops = 0xFFFFFFFF#32
    · exact ⟨_, e.raise .errOvf, exec_hop_of_limit hstop hmax, exec_hop_of_limit (s := { s with err := e }) hstop hmax⟩
    · obtain ⟨e', hhop⟩ := performHop_ignores_err Config.num Config.peakCap s e
      exact ⟨_, e', exec_hop_of_performed hstop hmax, by
        rw [exec_hop_of_performed (s := { s with err := e }) hstop hmax, hhop]⟩

/-- Settles O48: no command's rule reads the fault bits. -/
theorem faultsDoNotGateCommands : Obligations.FaultsDoNotGateCommands := by
  intro i s t e h
  cases i with
  | hop =>
    obtain ⟨u, e', hu, he⟩ := exec_hop_ignores_err s e
    obtain rfl := Host.Outcome.next.inj (hu.symm.trans h)
    exact ⟨e', he⟩
  | pkrd b index =>
    obtain ⟨hnone, he⟩ | ⟨p, hp, he⟩ := execPkrd_cases b index s <;>
      obtain rfl := Host.Outcome.next.inj (he.symm.trans h)
    · exact ⟨e.raise .errRng, by simp only [exec, execPkrd, hnone]; rfl⟩
    · exact ⟨e, by simp only [exec, execPkrd, hp]⟩
  | nop | crcinit | crcb =>
    cases h
    exact ⟨e, rfl⟩
  | init =>
    cases h
    exact ⟨Err.none, rfl⟩

end Sys2Proof.Machine
end

section
/-! The cause of each fault (60_exceptions.md R181): what every access and command raises. -/

namespace Sys2Proof.Machine

/-! ### Fault bits and their causes -/

/-- The bit of a fault. -/
def Err.bit (e : Err) : FaultCode → Bool
  | .errCmd => e.cmd
  | .errAcc => e.acc
  | .errDiv => e.div
  | .errRng => e.rng
  | .errOvf => e.ovf

/-- Raising a fault sets its bit and no other. -/
theorem Err.bit_raise (e : Err) (f g : FaultCode) : (e.raise g).bit f = (decide (f = g) || e.bit f) := by
  cases g <;> cases f <;> rfl

/-- A bit that raising a fault sets is that fault's. -/
theorem Err.eq_of_bit_raise {e : Err} {f g : FaultCode} (hold : e.bit f = false) (hnew : (e.raise g).bit f = true) :
    f = g := by
  simpa [bit_raise, hold] using hnew

theorem Err.bit_none (f : FaultCode) : Err.none.bit f = false := by
  cases f <;> rfl

/-- A read of another width, misaligned, of CMD or of a reserved offset (20_memory.md R44, R45). -/
def IllegalRead (width : AccessWidth) (off : Offset) : Prop :=
  width ≠ .bits32 ∨ off.toNat % 4 ≠ 0 ∨ off = 0#9 ∨ (0x02C ≤ off.toNat ∧ off.toNat ≤ 0x0FC)

/-- A write of another width, misaligned, or of a read-only or reserved offset (R44, R45). -/
def IllegalWrite (width : AccessWidth) (off : Offset) : Prop :=
  width ≠ .bits32 ∨ off.toNat % 4 ≠ 0 ∨ (4 ≤ off.toNat ∧ off.toNat ≤ 0x0FC)

/-- What R181's table gives as the cause of a fault, for an event on the lists `band`. -/
def FaultCode.CausedBy (band : Bands) (e : HostEvent) : FaultCode → Prop
  | .errCmd => ∃ c err, e = .write .bits32 0#9 c ∧ decode c = .error err
  | .errAcc => (∃ width off, e = .read width off ∧ IllegalRead width off) ∨
      ∃ width off v, e = .write width off v ∧ IllegalWrite width off
  | .errRng => ∃ c b index, e = .write .bits32 0#9 c ∧ decode c = .ok (.pkrd b index) ∧
      (bandList band b).length ≤ index
  | .errDiv | .errOvf => e = .write .bits32 0#9 0x02000000#32

/-! ### Illegal accesses (R44, R45) -/

/-- No register stands at a misaligned offset and none at a reserved one. -/
theorem offset_of_regAt_eq_none {off : Offset} (h : regAt off = none) :
    off.toNat % 4 ≠ 0 ∨ (0x02C ≤ off.toNat ∧ off.toNat ≤ 0x0FC) := by
  unfold regAt at h
  split at h
  next hmisaligned => exact .inl hmisaligned
  next haligned =>
    split at h
    · cases h
    · split at h <;> cases h
      simp only [imp_false] at *
      omega

/-- A read that reaches no readable register is illegal. -/
theorem illegalRead_of_unreached {width : AccessWidth} {off : Offset}
    (h : ∀ r, accessed width off = some r → r.readable = false) : IllegalRead width off := by
  by_cases hwidth : width = .bits32
  case neg => exact .inl hwidth
  cases hreg : regAt off with
  | none => exact .inr ((offset_of_regAt_eq_none hreg).imp_right .inr)
  | some r =>
    cases r with
    | cmd => exact .inr (.inr (.inl (regAt_eq_cmd hreg)))
    | _ => cases h _ (accessed_eq_some_iff.mpr ⟨hwidth, hreg⟩)

/-- A write that reaches no writable register is illegal. -/
theorem illegalWrite_of_unreached {width : AccessWidth} {off : Offset}
    (h : ∀ r, accessed width off = some r → r.writable = false) : IllegalWrite width off := by
  by_cases hwidth : width = .bits32
  case neg => exact .inl hwidth
  cases hreg : regAt off with
  | none => exact .inr ((offset_of_regAt_eq_none hreg).imp_right (.imp_left (by omega)))
  | some r =>
    have hro := h r (accessed_eq_some_iff.mpr ⟨hwidth, hreg⟩)
    obtain ⟨-, ⟨-, rfl⟩ | ⟨hlo, hhi, -⟩ | ⟨-, i, rfl⟩⟩ := regAt_eq_some_cases hreg
    · cases hro
    · exact .inr (.inr ⟨hlo, by omega⟩)
    · cases hro

/-! ### What each event raises -/

/-- A performed hop sets the bits of ERR_DIV and ERR_OVF only. -/
theorem performHop_raises {N : NumSys T} {cap : Nat} {s : State} {f : FaultCode} (hold : s.err.bit f = false)
    (hnew : (performHop N cap s).err.bit f = true) : f = .errDiv ∨ f = .errOvf := by
  obtain ⟨hcmd, hacc, hrng⟩ := performHop_leaves_other_faults N cap s
  cases f with
  | errDiv => exact .inl rfl
  | errOvf => exact .inr rfl
  | errCmd => exact nomatch hold.symm.trans (hcmd.symm.trans hnew)
  | errAcc => exact nomatch hold.symm.trans (hacc.symm.trans hnew)
  | errRng => exact nomatch hold.symm.trans (hrng.symm.trans hnew)

/-- HOP raises ERR_DIV and ERR_OVF only, PKRD raises ERR_RNG only and from the count on, and no other command raises a
fault. -/
theorem exec_raises {i : Instr} {s t : State} {f : FaultCode} (h : exec i s = .next t) (hold : s.err.bit f = false)
    (hnew : t.err.bit f = true) : (i = .hop ∧ (f = .errDiv ∨ f = .errOvf)) ∨
      (f = .errRng ∧ ∃ b index, i = .pkrd b index ∧ (bandList s.band b).length ≤ index) := by
  cases i with
  | hop =>
    obtain ⟨-, he⟩ | ⟨-, -, he⟩ | ⟨-, -, he⟩ := execHop_cases s <;>
      obtain rfl := Host.Outcome.next.inj (he.symm.trans h)
    · exact nomatch hold.symm.trans hnew
    · exact .inl ⟨rfl, .inr (Err.eq_of_bit_raise hold hnew)⟩
    · exact .inl ⟨rfl, performHop_raises hold hnew⟩
  | pkrd b index =>
    obtain ⟨hnone, he⟩ | ⟨p, -, he⟩ := execPkrd_cases b index s <;>
      obtain rfl := Host.Outcome.next.inj (he.symm.trans h)
    · exact .inr ⟨Err.eq_of_bit_raise hold hnew, b, index, rfl, List.getElem?_eq_none_iff.mp hnone⟩
    · exact nomatch hold.symm.trans hnew
  | init =>
    cases h
    exact nomatch (Err.bit_none f).symm.trans hnew
  | nop | crcinit | crcb =>
    cases h
    exact nomatch hold.symm.trans hnew

/-- A command word raises ERR_CMD when it does not decode, and what its command raises when it does. -/
theorem writeCommand_raises {c : Word} {s t : State} {f : FaultCode} (h : writeCommand c s = .next t)
    (hold : s.err.bit f = false) (hnew : t.err.bit f = true) : f.CausedBy s.band (.write .bits32 0#9 c) := by
  cases hdec : decode c with
  | error err =>
    rw [writeCommand_of_decode_error hdec] at h
    cases h
    obtain rfl := Err.eq_of_bit_raise hold hnew
    exact ⟨c, err, rfl, hdec⟩
  | ok i =>
    rw [writeCommand_of_decode_ok hdec] at h
    obtain ⟨rfl, hf⟩ | ⟨rfl, b, index, rfl, hcount⟩ := exec_raises h hold hnew
    · obtain ⟨-, rfl⟩ := encodeOfDecodeIsIdentity c .hop hdec
      obtain rfl | rfl := hf <;> rfl
    · exact ⟨c, b, index, rfl, hdec, hcount⟩

/-- A register write raises ERR_ACC when it is illegal, and a legal one what the command written to CMD raises. -/
theorem regWrite_raises {width : AccessWidth} {off : Offset} {v : Word} {s t : State} {f : FaultCode}
    (h : regWrite width off v s = .next t) (hold : s.err.bit f = false) (hnew : t.err.bit f = true) :
    f.CausedBy s.band (.write width off v) := by
  by_cases hunreached : ∀ r, accessed width off = some r → r.writable = false
  · rw [regWrite_of_illegal hunreached] at h
    cases h
    obtain rfl := Err.eq_of_bit_raise hold hnew
    exact .inr ⟨width, off, v, rfl, illegalWrite_of_unreached hunreached⟩
  simp only [not_forall] at hunreached
  obtain ⟨r, hr, hwritable⟩ := hunreached
  cases r with
  | cmd =>
    obtain ⟨rfl, rfl⟩ := accessed_eq_cmd hr
    exact writeCommand_raises ((performEvent_writeCmd v s).symm.trans h) hold hnew
  | sample i =>
    obtain ⟨rfl, hreg⟩ := accessed_eq_some_iff.mp hr
    obtain rfl := Host.Outcome.next.inj ((performEvent_writeSample hreg v s).symm.trans h)
    exact nomatch hold.symm.trans hnew
  | _ => exact absurd rfl hwritable

/-- A register read raises ERR_ACC when it is illegal, and nothing else. -/
theorem regRead_raises {width : AccessWidth} {off : Offset} {s : State} {f : FaultCode} (hold : s.err.bit f = false)
    (hnew : (regRead width off s).err.bit f = true) : f.CausedBy s.band (.read width off) := by
  by_cases hunreached : ∀ r, accessed width off = some r → r.readable = false
  · rw [regRead_of_illegal hunreached] at hnew
    obtain rfl := Err.eq_of_bit_raise hold hnew
    exact .inl ⟨width, off, rfl, illegalRead_of_unreached hunreached⟩
  · simp only [not_forall, Bool.not_eq_false] at hunreached
    obtain ⟨r, hr, hreadable⟩ := hunreached
    simp only [regRead, hr, hreadable, if_true] at hnew
    exact nomatch hold.symm.trans hnew

/-- A fault bit set by a step from a state without it was caused by the event that the step performed. -/
theorem step_raises {s t : State} {f : FaultCode} (h : step s = .next t) (hold : s.err.bit f = false)
    (hnew : t.err.bit f = true) : ∃ e rest, s.pending = e :: rest ∧ f.CausedBy s.band e := by
  obtain ⟨-, rfl⟩ | ⟨e, rest, hp, he⟩ := step_next_cases h
  · exact nomatch hold.symm.trans hnew
  refine ⟨e, rest, hp, ?_⟩
  cases e with
  | read width off =>
    cases he
    exact regRead_raises (s := { s with pending := rest }) hold hnew
  | write width off v => exact regWrite_raises (s := { s with pending := rest }) he hold hnew
  | reset =>
    cases he
    exact nomatch (Err.bit_none f).symm.trans hnew

/-- Settles O47: each bit's cause is the event that the step performed. -/
theorem eachFaultHasItsCause : Obligations.EachFaultHasItsCause := by
  intro s t h
  have hcause (f : FaultCode) := step_raises (f := f) h
  refine ⟨fun hold hnew => ?_, fun hold hnew => ?_, fun hold hnew => ?_, fun hnohop => ?_⟩
  · obtain ⟨_, rest, hp, c, err, rfl, hdec⟩ := hcause .errCmd hold hnew
    exact ⟨c, rest, err, hp, hdec⟩
  · obtain ⟨_, rest, hp, ⟨width, off, rfl, hillegal⟩ | ⟨width, off, v, rfl, hillegal⟩⟩ := hcause .errAcc hold hnew
    · exact .inl ⟨width, off, rest, hp, hillegal⟩
    · exact .inr ⟨width, off, v, rest, hp, hillegal⟩
  · obtain ⟨_, rest, hp, c, b, index, rfl, hdec, hcount⟩ := hcause .errRng hold hnew
    exact ⟨c, b, index, rest, hp, hdec, hcount⟩
  · have hnotcaused (f : FaultCode) (hf : ∀ band e, f.CausedBy band e → e = .write .bits32 0#9 0x02000000#32)
        (hold : s.err.bit f = false) : t.err.bit f = false := by
      refine Bool.eq_false_iff.mpr fun hnew => ?_
      obtain ⟨e, rest, hp, hhop⟩ := hcause f hold hnew
      exact hnohop (by rw [hp, hf _ _ hhop, List.head?_cons])
    exact ⟨hnotcaused .errDiv fun _ _ => id, hnotcaused .errOvf fun _ _ => id⟩

end Sys2Proof.Machine
end

section
/-! Reset (70_reset_and_hazards.md R200, R201), the independence of the CRC unit (R205) and the call loop at STOP (R202). -/

namespace Sys2Proof.Machine

/-! ### The reset state (R201) -/

/-- The reset state is a fresh call: INIT changes nothing of it. -/
theorem freshCall_reset : freshCall State.reset = State.reset := rfl

/-- So STOP is 0 (R84). -/
theorem stop_reset : stop State.reset = false := by
  rw [← freshCall_reset, stop_freshCall]

/-- Every element of a history at reset is `ofInt 0` (R12, R13). -/
theorem cell_cell_zeroHist (q k : Nat) : cell (cell zeroHist q) k = Config.num.ofInt 0 := by
  rw [cell_zeroHist, zeroFrame_eq, cell_replicate]

/-- The lists are empty at reset. -/
theorem bandList_reset (b : Fin 4) : bandList State.reset.band b = [] := bandList_replicate b

/-- Every register but those of SAMPLE holds 0 at reset: the CRC register as the preset XORed with itself. -/
theorem regValue_reset {r : Reg} (h : ∀ i, r ≠ .sample i) : regValue State.reset r = 0#32 := by
  cases r with
  | cmd | hops | npeaks | pkframe | pkdata => rfl
  | status => exact statusWord_eq_zero rfl stop_reset
  | bandcnt b => rw [regValue, bandList_reset, List.length_nil]
  | crc => exact BitVec.xor_self
  | sample i => exact absurd rfl (h i)

/-- Settles O49: the items are constants of the reset state, and the registers show them. -/
theorem resetStateIsAsTabulated : Obligations.ResetStateIsAsTabulated :=
  ⟨fun i _ => cell_replicate _ i, rfl, fun q k _ _ => cell_cell_zeroHist q k, rfl, fun q k _ _ => cell_cell_zeroHist q k,
    rfl, rfl, rfl, bandList_reset, rfl, rfl, stop_reset, rfl, rfl, fun _ => regValue_reset⟩

/-- Settles O50: the step performs the reset, whose SAMPLE is the free value of the next reset. -/
theorem hardwareResetGivesTheResetState : Obligations.HardwareResetGivesTheResetState :=
  fun s _ hp => ⟨sampleAfterReset (s.resetCount + 1), step_of_cons hp⟩

/-- Settles O51: the reset state is a fresh call, which meets the invariant. -/
theorem invariantHoldsAtReset : Obligations.InvariantHoldsAtReset := by
  rw [Obligations.InvariantHoldsAtReset, ← freshCall_reset]
  exact freshCall_inv State.reset

/-! ### The CRC unit (R205) -/

/-- Settles O44: no rule but INIT's and the unit's own writes `crc`, and the unit's own write nothing else. -/
theorem crcUnitIsIndependent : Obligations.CrcUnitIsIndependent := by
  intro i s t h
  refine ⟨fun hinit hcrcinit hcrcb => ?_, ?_⟩
  · obtain ⟨-, rfl⟩ | ⟨hi, -⟩ | ⟨-, rfl | rfl | ⟨-, -, rfl⟩⟩ | ⟨hi, -⟩ | ⟨b, hi, -⟩ |
      ⟨b, index, -, rfl | ⟨p, -, rfl⟩⟩ := exec_next_cases h
    · rfl
    · exact absurd hi hinit
    · rfl
    · rfl
    · exact (performHop_leaves_rest _ _ s).1
    · exact absurd hi hcrcinit
    · exact absurd hi (hcrcb b)
    · rfl
    · rfl
  · rintro (rfl | ⟨b, rfl⟩)
    · obtain rfl := Host.Outcome.next.inj ((exec_crcinit s).symm.trans h)
      rfl
    · obtain rfl := Host.Outcome.next.inj ((exec_crcb b s).symm.trans h)
      rfl

/-! ### The call loop (R202) -/

/-- Settles O56: the STATUS read returns the stop predicate in bit 0, where the loop leaves. -/
theorem callLoopLeavesAtStop : Obligations.CallLoopLeavesAtStop := fun v rest _ => hopLoop_cons_of_stop v rest

end Sys2Proof.Machine
end
